-- ==== Sys2Proof/Word.lean ====
section
/-! DEFINITION. The word types of SI4432-CTL (00_scope.md R7, R21). -/

namespace Sys2Proof

/-- A bus byte or a chip register value (R7). -/
abbrev Byte := BitVec 8

/-- A host register, a command word or the tick counter (R21, R33, R91). -/
abbrev Word := BitVec 32

/-- A chip register address, 0x00 to 0x7F (R7). -/
abbrev ChipAddr := BitVec 7

end Sys2Proof
end

