-- ==== Sys2Proof/Machine/Env.lean ====
section
/-! DEFINITION. The moves of the agents around the controller (10_state.md R20), as plain data. -/

namespace Sys2Proof.Machine

/-- The level of the interrupt-request pin; `low` is asserted (00_scope.md R11, 44_packet.md R201). -/
inductive Level where
  /-- 0, asserted: an event is pending. -/
  | low
  /-- 1, the idle level. -/
  | high
  deriving DecidableEq, Repr, Inhabited

/-- How many steps the controller takes before another agent may step. DESIGN CHOICE (log 2): the spec lets any agent
step between any two controller steps (R20), so every count is allowed. -/
inductive Grant where
  /-- until the command ends or a WaitTicks blocks it. -/
  | toWait
  /-- exactly `n` micro-steps. -/
  | steps (n : Nat)
  deriving DecidableEq, Repr, Inhabited

/-- One host load or store, at an absolute address and of a size in bytes (20_memory.md R61). -/
inductive HostAccess where
  | load (addr size : Nat)
  | store (addr size : Nat) (value : Word)
  deriving DecidableEq, Repr, Inhabited

/-- One move of one agent (R20), or the platform's block reset (70_reset_and_hazards.md R300). -/
inductive Event where
  | controller (grant : Grant)
  | tick
  | host (access : HostAccess)
  | blockReset
  deriving DecidableEq, Repr, Inhabited

/-- Values that come from outside: the ones already listed, and how many free values were used after the list ran
out (log 3). -/
structure Tape (α : Type) where
  script : List α
  used : Nat
  deriving DecidableEq, Repr

end Sys2Proof.Machine
end

