-- ==== Sys2Proof/Syntax.lean ====
section
/-! DEFINITION. The instructions of SI4432-CTL: one constructor per row of spec/opcode_table.json.

The twenty commands carry no operands, because their operands are the values of ARG0, ARG1 and DATABUF while the
command runs (30_encoding.md R90, R95). The two bus frames carry what the chip-select window holds (R98). -/

namespace Sys2Proof

/-- The twenty commands of R92 and the two frames of R98. -/
inductive Instr where
  /-- 0x01, R124. -/
  | writeReg
  /-- 0x02, R125. -/
  | readReg
  /-- 0x03, R126. -/
  | writeBurst
  /-- 0x04, R127. -/
  | readBurst
  /-- 0x10, R151. -/
  | setFrequency
  /-- 0x11, R152. -/
  | setSignature
  /-- 0x12, R153. -/
  | setChannel
  /-- 0x13, R166. -/
  | setBaudRate
  /-- 0x20, R181. -/
  | switchMode
  /-- 0x21, R185. -/
  | clearTxFifo
  /-- 0x22, R186. -/
  | clearRxFifo
  /-- 0x23, R187. -/
  | clearFifo
  /-- 0x30, R210. -/
  | sendPacket
  /-- 0x31, R211. -/
  | waitForPacket
  /-- 0x32, R212. -/
  | startListening
  /-- 0x33, R213. -/
  | isPacketReceived
  /-- 0x34, R214. -/
  | getPacketReceived
  /-- 0x40, R250. -/
  | boot
  /-- 0x41, R251. -/
  | softwareReset
  /-- 0x42, R253. -/
  | hardwareReset
  /-- A write window: header bit 7 = 1, then the bytes sent (R98, R120). -/
  | busWrite (addr : ChipAddr) (sent : List Byte)
  /-- A read window: header bit 7 = 0, then `count` bytes received (R98, R121). -/
  | busRead (addr : ChipAddr) (count : Nat)
  deriving DecidableEq, Repr

end Sys2Proof
end

