-- ==== Sys2Proof/WellFormed.lean ====
section
/-! DEFINITION. What the spec asks of a term before it has a meaning: the length of a bus frame, the order of the
IF-filter table, the width and alignment of a host access. -/

namespace Sys2Proof

/-- A transaction moves 0 to 256 data bytes (41_register_access.md R120, R121); a command has no field to check. -/
def Instr.wf : Instr → Bool
  | .writeReg | .readReg | .writeBurst | .readBurst => true
  | .setFrequency | .setSignature | .setChannel | .setBaudRate => true
  | .switchMode | .clearTxFifo | .clearRxFifo | .clearFifo => true
  | .sendPacket | .waitForPacket | .startListening | .isPacketReceived | .getPacketReceived => true
  | .boot | .softwareReset | .hardwareReset => true
  | .busWrite _ sent => sent.length ≤ 256
  | .busRead _ count => count ≤ 256

/-- The IF-filter table is sorted ascending by threshold (42_configuration.md R150). DEDUCED: equal thresholds are
taken as sorted (log 8). -/
def ascending : List (Nat × Byte) → Bool
  | [] => true
  | [_] => true
  | a :: b :: rest => a.1 ≤ b.1 && ascending (b :: rest)

/-- A host access has a meaning when it is a 4-byte access at a 4-byte-aligned offset (20_memory.md R61, R63). DESIGN
CHOICE: alignment is that of the offset from P_BASE, as R21 places the registers, and not of the address (log 28). -/
def hostAccessWf (offset size : Nat) : Bool :=
  size == 4 && offset % 4 == 0

end Sys2Proof
end

