-- ==== Sys2Proof/Config.lean ====
section
/-! DEFINITION. The implementation parameters of 00_scope.md R6 and the free values. -/

namespace Sys2Proof

/-- P_REGMAP: the chip register names the controller uses and their addresses (10_state.md R44). Where a burst writes
several consecutive registers only the first is named. -/
structure RegMap where
  deviceStatus : ChipAddr
  intStatus1 : ChipAddr
  intStatus2 : ChipAddr
  intEnable1 : ChipAddr
  intEnable2 : ChipAddr
  state : ChipAddr
  operationControl : ChipAddr
  ifFilterBw : ChipAddr
  clockRecovery : ChipAddr
  txHeader3 : ChipAddr
  pkgLen : ChipAddr
  checkHeader3 : ChipAddr
  rxLen : ChipAddr
  txDatarate1 : ChipAddr
  modulation1 : ChipAddr
  freqband : ChipAddr
  channel : ChipAddr
  fifo : ChipAddr
  deriving DecidableEq, Repr

/-- The default addresses of R44. PRESUMED by the spec itself (I1): general knowledge of the chip (log 9). -/
def RegMap.default : RegMap where
  deviceStatus := 0x02
  intStatus1 := 0x03
  intStatus2 := 0x04
  intEnable1 := 0x05
  intEnable2 := 0x06
  state := 0x07
  operationControl := 0x08
  ifFilterBw := 0x1C
  clockRecovery := 0x20
  txHeader3 := 0x3A
  pkgLen := 0x3E
  checkHeader3 := 0x3F
  rxLen := 0x4B
  txDatarate1 := 0x6E
  modulation1 := 0x70
  freqband := 0x75
  channel := 0x79
  fifo := 0x7F

/-- P_IF_TABLE: (threshold in 0.1 kHz, filter byte), ascending (42_configuration.md R150). An unsorted table is no
value of this type: that is how the model refuses it (I19, log 8). -/
structure IfTable where
  entries : List (Nat × Byte)
  sorted : ascending entries = true
  deriving DecidableEq, Repr

/-- The entries whose thresholds grow by the given gaps, starting above `base`. -/
def gapEntries (base : Nat) : List (Nat × Byte) → List (Nat × Byte)
  | [] => []
  | (gap, v) :: rest => (base + gap, v) :: gapEntries (base + gap) rest

theorem ascending_gapEntries (gaps : List (Nat × Byte)) (base : Nat) :
    ascending (gapEntries base gaps) = true := by
  induction gaps generalizing base with
  | nil => rfl
  | cons g rest ih =>
    obtain ⟨gap, v⟩ := g
    cases rest with
    | nil => rfl
    | cons g' rest' =>
      have h := ih (base + gap)
      simp only [gapEntries, ascending, Bool.and_eq_true, decide_eq_true_eq] at h ⊢
      exact ⟨by omega, h⟩

/-- The table with the given gaps between its thresholds. Every ascending table is one of these. -/
def IfTable.ofGaps (gaps : List (Nat × Byte)) : IfTable :=
  ⟨gapEntries 0 gaps, ascending_gapEntries gaps 0⟩

/-- The parameters of R6, an argument of the model: State carries them, no step changes them (log 7). -/
structure Params where
  /-- P_BASE, OPEN. -/
  base : Nat
  /-- P_REGMAP. -/
  regs : RegMap
  /-- P_IF_TABLE, OPEN. -/
  ifTable : IfTable
  /-- P_BOOT_TABLE, OPEN (45_bootstrap.md R255). -/
  bootTable : List (ChipAddr × Byte)
  /-- P_MASK_PKSENT. -/
  maskPksent : Byte
  /-- P_MASK_PKVALID. -/
  maskPkvalid : Byte
  /-- P_MASK_CRCERR. -/
  maskCrcerr : Byte
  /-- P_MASK_POR. -/
  maskPor : Byte
  /-- P_MASK_OVFL. -/
  maskOvfl : Byte
  /-- P_STATE_RESET. -/
  stateReset : Byte
  /-- P_CLR_TX. -/
  clrTx : Byte
  /-- P_CLR_RX. -/
  clrRx : Byte
  /-- P_IE1_TX. -/
  ie1Tx : Byte
  /-- P_IE1_RX. -/
  ie1Rx : Byte
  /-- P_IE2_RX. -/
  ie2Rx : Byte
  /-- P_TX_TIMEOUT, in ticks. -/
  txTimeout : Nat
  /-- P_SDN_OFF, in ticks. -/
  sdnOff : Nat
  /-- P_SDN_ON, in ticks. -/
  sdnOn : Nat
  /-- P_POR_SLEEP, in ticks. -/
  porSleep : Nat
  /-- P_POR_LIMIT; `none` is unbounded. -/
  porLimit : Option Nat
  /-- P_READ_DUMMY. -/
  readDummy : Byte
  deriving DecidableEq, Repr

/-- P_BASE has no value (R6, OPEN). -/
opaque Config.base : Nat

/-- P_IF_TABLE has no value (R6, OPEN): the gaps between its thresholds are free. -/
opaque Config.ifGaps : List (Nat × Byte)

/-- P_BOOT_TABLE has no value (R6, OPEN). -/
opaque Config.bootTable : List (ChipAddr × Byte)

/-- The byte the chip answers to a read transfer (00_scope.md R12). -/
opaque Config.freeAnswer : Nat → Byte

/-- The level of the interrupt line at a sample (R12). -/
opaque Config.freeLevel : Nat → Machine.Level

/-- The value of a read the spec leaves open: an unwritten DATABUF byte, a result register while BUSY, a load the
platform answers (10_state.md R34, 20_memory.md R64, R71). -/
opaque Config.freeWord : Nat → Word

/-- The agent that moves next (10_state.md R20). -/
opaque Config.freeEvent : Nat → Machine.Event

/-- DATABUF_SIZE (R6). -/
def Config.databufSize : Nat := 256

/-- The parameters at the values R6 fixes, the OPEN ones free. -/
def Config.params : Params where
  base := Config.base
  regs := RegMap.default
  ifTable := IfTable.ofGaps Config.ifGaps
  bootTable := Config.bootTable
  maskPksent := 0x04
  maskPkvalid := 0x02
  maskCrcerr := 0x01
  maskPor := 0x02
  maskOvfl := 0x80
  stateReset := 0x80
  clrTx := 0x01
  clrRx := 0x02
  ie1Tx := 0x04
  ie1Rx := 0x02 ||| 0x01
  ie2Rx := 0x00
  txTimeout := 1000
  sdnOff := 1
  sdnOn := 20
  porSleep := 1
  porLimit := none
  readDummy := 0x00

end Sys2Proof
end

