-- ==== Sys2Proof/Machine/State.lean ====
section
/-! DEFINITION. The state of SI4432-CTL (10_state.md), why a step can stop, and the machine after block reset. -/

namespace Sys2Proof.Machine

/-- Why the machine stops: never. SI4432-CTL has no trap (60_exceptions.md R271, R277): an error is a result code and
the next command may be issued at once. -/
inductive Fault where
  deriving DecidableEq, Repr

/-- Why the model gives a step no meaning. -/
inductive Refusal where
  /-- An instruction without a meaning yet. Safe: the model stops. -/
  | notModelled (mnemonic : String)
  /-- A host access of the aperture that is not an aligned 32-bit one (20_memory.md R63, I18), raised by
  `hostMove`. Safe: the spec asks the model to refuse it. -/
  | hostAccessForm
  deriving DecidableEq, Repr

/-- The packet FIFO controller's protocol state (10_state.md R37). -/
inductive Fsm where
  | idle
  | transmitting
  | awaitingAck
  | listening
  | resetting
  deriving DecidableEq, Repr

/-- The result codes (60_exceptions.md R270). -/
inductive ResultCode where
  | ok
  | ignored
  | txTimeout
  | noPacket
  | packet
  | porTimeout
  | illegalCmd
  | badArg
  | calcFault
  | pending
  deriving DecidableEq, Repr

/-- One event at the bus port (00_scope.md R16, byte level). The byte a discarded transfer returns is not recorded
(log 4). -/
inductive BusEvent where
  /-- `BusSelect(active)`. -/
  | select (active : Bool)
  /-- `BusXfer(out)`, the returned byte discarded. -/
  | sent (out : Byte)
  /-- `BusXfer(out)` returning `answer`. -/
  | exchanged (out answer : Byte)
  /-- `SampleIRQ()` returning the level. -/
  | irq (level : Level)
  /-- `SetSDN(active)`. -/
  | sdn (active : Bool)
  /-- `WaitTicks(ticks)`. -/
  | wait (ticks : Nat)
  /-- Block reset: SEL to 0 and SDN to 1 outside any procedure (R300, log 12). -/
  | blockReset
  deriving DecidableEq, Repr

/-- The calculator's intermediate values (10_state.md R42, 42_configuration.md R155 to R163). -/
structure BaudValues where
  freqDev : Nat
  modulationByte : Byte
  fdReg : Nat
  dataRateReg : Nat
  filt : Byte
  dwn3Bypass : Nat
  ndecExp : Nat
  rxOversampling : Nat
  ncOffset : Nat
  crGain : Nat
  deriving DecidableEq, Repr

/-- One atomic step of the controller that does not choose what comes next. -/
inductive Micro where
  /-- Begin the transaction of this header and these further bytes (R98): its steps come next. -/
  | frame (header : Byte) (sent : List Byte)
  /-- `BusSelect(active)`. -/
  | select (active : Bool)
  /-- `BusXfer(out)`, the returned byte discarded. -/
  | send (out : Byte)
  /-- `BusXfer(out)` of a read header: the list of received bytes begins empty. -/
  | ask (out : Byte)
  /-- `BusXfer(out)`, the returned byte appended to the received bytes. -/
  | recv (out : Byte)
  /-- `FSM <- fsm`. -/
  | setFsm (fsm : Fsm)
  /-- `SetSDN(active)`. -/
  | setSdn (active : Bool)
  /-- `x[LAST_MODE] <- zext_32({1, value})`. -/
  | setMode (value : Byte)
  /-- `x[LAST_MODE] <- 0`. -/
  | clearMode
  /-- The anomaly test of SwitchMode (R180). -/
  | testAnomaly
  /-- `t0 <- Now()`. -/
  | setT0
  /-- `polls <- 0`. -/
  | clearPolls
  /-- `polls <- polls + 1`. -/
  | countPoll
  /-- `s1 <-` the byte just read. -/
  | keepS1
  /-- Compute the baud values of `k`. -/
  | calculate (k : Nat)
  /-- `x[CFG_FREQ] <- value`. -/
  | setCfgFreq (value : Word)
  /-- `x[CFG_BAUD] <- value`. -/
  | setCfgBaud (value : Word)
  /-- `x[CFG_CHANNEL] <- value`. -/
  | setCfgChannel (value : Byte)
  /-- `x[CFG_SIGNATURE] <- value`. -/
  | setCfgSignature (value : BitVec 16)
  /-- `x[RESULT].DATA <-` the byte just read. -/
  | setData
  /-- `MemWrite(0, n, r)` and `x[RXLEN] <- n` for the bytes just read. -/
  | storeRx
  /-- `finish(code)`. -/
  | finish (code : ResultCode)
  deriving DecidableEq, Repr

/-- Who runs the receive check (44_packet.md R206, R209, R213). -/
inductive Poller where
  /-- IS_PACKET_RECEIVED, one check. -/
  | once
  /-- The wait of WAIT_FOR_PACKET. -/
  | waitCommand
  /-- The acknowledgment wait of SEND_PACKET. -/
  | acknowledgment
  deriving DecidableEq, Repr

/-- A position inside a command where the controller chooses what comes next (10_state.md R38). -/
inductive Label where
  /-- IDLE_WAIT. -/
  | idle
  /-- A word is latched in CMD and not decoded yet (30_encoding.md R93). -/
  | decode
  /-- SET_BAUD_RATE after the calculation (R166). -/
  | baudDone
  /-- Boot after the calculation (R256). -/
  | bootBaud
  /-- SendPoll, the bound test at the loop head (R204). -/
  | sendHead
  /-- SendPoll, the sample. -/
  | sendSample
  /-- SendPoll, after both status reads. -/
  | sendStatus
  /-- SendPoll returned SENT (R210). -/
  | sendSent
  /-- SendPoll's timeout exit, after the device-status read. -/
  | sendTimeout
  /-- WaitProc, the bound test at the loop head (R206). -/
  | waitHead (who : Poller)
  /-- IsPacketReceived, the sample (R207). -/
  | rxSample (who : Poller)
  /-- IsPacketReceived, after both status reads. -/
  | rxStatus (who : Poller)
  /-- The sleep between two receive polls (R206). -/
  | pollSleep (who : Poller)
  /-- GetPacket, after the length read (R208); `ack`: inside SEND_PACKET. -/
  | fetch (ack : Bool)
  /-- PorPoll, the next read (R254). -/
  | porHead
  /-- PorPoll, after the read. -/
  | porTest
  /-- HARDWARE_RESET, the wait with the pin active (R253). -/
  | sdnOff
  /-- HARDWARE_RESET, the release of the pin. -/
  | sdnRelease
  /-- HARDWARE_RESET, the wait after the release. -/
  | sdnOn
  /-- HARDWARE_RESET, the start of the poll. -/
  | porStart
  deriving DecidableEq, Repr

/-- Everything the spec gives the machine (10_state.md), and below it the model's own fields. -/
structure State where
  /-- CMD (R22). -/
  cmd : Word
  /-- ARG0 (R23). -/
  arg0 : Word
  /-- ARG1 (R24). -/
  arg1 : Word
  /-- STATUS.BUSY (R25). -/
  busy : Bool
  /-- STATUS.FSM (R37). -/
  fsm : Fsm
  /-- STATUS.BUS_ANOMALY (R25, R180). -/
  busAnomaly : Bool
  /-- STATUS.CMD_OVERRUN (R25, R36). -/
  cmdOverrun : Bool
  /-- The shutdown output (R40). -/
  sdn : Bool
  /-- The chip-select output (R39). -/
  sel : Bool
  /-- RESULT.CODE (R26). -/
  code : ResultCode
  /-- RESULT.DATA (R26). -/
  data : Byte
  /-- RXLEN (R27). -/
  rxlen : BitVec 9
  /-- CFG_FREQ (R28). -/
  cfgFreq : Word
  /-- CFG_BAUD (R29). -/
  cfgBaud : Word
  /-- CFG_CHANNEL (R30). -/
  cfgChannel : Byte
  /-- CFG_SIGNATURE (R31). -/
  cfgSignature : BitVec 16
  /-- LAST_MODE.VALUE (R32). -/
  modeValue : Byte
  /-- LAST_MODE.VALID (R32). -/
  modeValid : Bool
  /-- TICK (R33). -/
  tick : Word
  /-- DATABUF (R34): the bytes written since block reset, by rising index. -/
  databuf : List Host.Cell
  /-- phase: the steps left of the present block (R38). -/
  todo : List Micro
  /-- phase: where the controller goes after them (R38). -/
  next : Label
  /-- Increments of TICK the running WaitTicks still waits for; 0: not blocked (R13). -/
  wait : Nat
  /-- t0 (R42). -/
  t0 : Word
  /-- polls (R42). -/
  polls : Nat
  /-- The calculator's intermediate values (R42). -/
  baud : BaudValues
  /-- The interrupt-status-1 byte of the running poll (R204, R207). -/
  s1 : Byte
  /-- The bytes the last read transaction returned (R121). -/
  rx : List Byte
  /-- Model's own: the parameters (R6, log 7). -/
  params : Params
  /-- Model's own: how far the controller runs in its present move (log 2). -/
  grant : Grant
  /-- Model's own: the moves of the agents (R20, log 1). -/
  events : Tape Event
  /-- Model's own: the chip's answers (R12, log 3). -/
  answers : Tape Byte
  /-- Model's own: the interrupt line's levels (R12, log 3). -/
  levels : Tape Level
  /-- Model's own: the values of open reads (R34, R71, log 5). -/
  fresh : Tape Word
  /-- Model's own: the bus events so far, oldest first (R16, log 12). -/
  trace : List BusEvent
  /-- Model's own: what the host's last load returned (log 22). -/
  hostData : Word
  deriving DecidableEq, Repr

/-- The machine right after block reset (70_reset_and_hazards.md R300, 10_state.md R21), nothing on any tape. -/
def State.reset : State where
  cmd := 0
  arg0 := 0
  arg1 := 0
  busy := false
  fsm := .idle
  busAnomaly := false
  cmdOverrun := false
  sdn := true
  sel := false
  code := .ok
  data := 0
  rxlen := 0
  cfgFreq := 433
  cfgBaud := 100
  cfgChannel := 0
  cfgSignature := 0
  modeValue := 0
  modeValid := false
  tick := 0
  databuf := []
  todo := []
  next := .idle
  wait := 0
  t0 := 0
  polls := 0
  baud := ⟨0, 0, 0, 0, 0, 0, 0, 0, 0, 0⟩
  s1 := 0
  rx := []
  params := Config.params
  grant := .toWait
  events := ⟨[], 0⟩
  answers := ⟨[], 0⟩
  levels := ⟨[], 0⟩
  fresh := ⟨[], 0⟩
  trace := []
  hostData := 0

end Sys2Proof.Machine
end

