-- ==== Sys2Proof/Machine/Operands.lean ====
section
/-! DEFINITION. The operand fields of the commands (30_encoding.md R95). Every field is taken from the bits named, and
the other bits of ARG0 and ARG1 are ignored (R97). -/

namespace Sys2Proof.Machine

/-- A: ARG0[7:0], of the four register commands. -/
def State.opAddr (s : State) : Byte := s.arg0.extractLsb' 0 8

/-- V: ARG1[7:0], of WRITE_REG. -/
def State.opValue (s : State) : Byte := s.arg1.extractLsb' 0 8

/-- N: ARG1[8:0], of WRITE_BURST and READ_BURST. -/
def State.opCount (s : State) : Nat := (s.arg1.extractLsb' 0 9).toNat

/-- The BAD_ARG condition of WRITE_BURST and READ_BURST (R96). -/
def State.badCount (s : State) : Bool := 256 < s.opCount

/-- F: ARG0[31:0], of SET_FREQUENCY. -/
def State.opFreq (s : State) : Nat := s.arg0.toNat

/-- F is in 240..930 (R140, R151). -/
def State.freqInRange (s : State) : Bool := 240 ≤ s.opFreq && s.opFreq ≤ 930

/-- SIG: ARG0[15:0], of SET_SIGNATURE. -/
def State.opSignature (s : State) : BitVec 16 := s.arg0.extractLsb' 0 16

/-- CH: ARG0[7:0], of SET_CHANNEL. -/
def State.opChannel (s : State) : Byte := s.arg0.extractLsb' 0 8

/-- K: ARG0[31:0], of SET_BAUD_RATE. -/
def State.opBaud (s : State) : Nat := s.arg0.toNat

/-- K is in 1..256 (R140, R166). -/
def State.baudInRange (s : State) : Bool := 1 ≤ s.opBaud && s.opBaud ≤ 256

/-- M: ARG0[3:0], of SWITCH_MODE, zero-extended to a byte (R181). -/
def State.opMode (s : State) : Byte := (s.arg0.extractLsb' 0 4).setWidth 8

/-- LEN: ARG0[7:0], of SEND_PACKET. -/
def State.opLen (s : State) : Byte := s.arg0.extractLsb' 0 8

/-- ACK: ARG0[8], of SEND_PACKET. -/
def State.opAck (s : State) : Bool := s.arg0.getLsbD 8

/-- ACKTO: ARG1[31:0], of SEND_PACKET, read only if ACK = 1. -/
def State.opAckTimeout (s : State) : Nat := s.arg1.toNat

/-- TO: ARG0[31:0], of WAIT_FOR_PACKET. -/
def State.opTimeout (s : State) : Nat := s.arg0.toNat

/-- The bound of the wait that runs: TO of WAIT_FOR_PACKET or ACKTO of SEND_PACKET (44_packet.md R206, R209). The
single check of IS_PACKET_RECEIVED has no bound and never tests one. -/
def State.waitBound (s : State) : Poller → Nat
  | .once => 0
  | .waitCommand => s.opTimeout
  | .acknowledgment => s.opAckTimeout

end Sys2Proof.Machine
end

