-- ==== Sys2Proof/Decode.lean ====
section
/-! DEFINITION. The two encoded formats of 30_encoding.md: the command word (R91) and the bus window (R98).
Both decoders are total (R94, R99). The encoder follows them. -/

namespace Sys2Proof

/-- What is encoded: a word stored in CMD, or the bytes the controller sends while chip-select is active. -/
inductive Code where
  | cmd (word : Word)
  | bus (sent : List Byte)
  deriving DecidableEq, Repr

/-- The opcode map of R92. -/
def decodeOpcode (op : Nat) : Option Instr :=
  match op with
  | 0x01 => some .writeReg
  | 0x02 => some .readReg
  | 0x03 => some .writeBurst
  | 0x04 => some .readBurst
  | 0x10 => some .setFrequency
  | 0x11 => some .setSignature
  | 0x12 => some .setChannel
  | 0x13 => some .setBaudRate
  | 0x20 => some .switchMode
  | 0x21 => some .clearTxFifo
  | 0x22 => some .clearRxFifo
  | 0x23 => some .clearFifo
  | 0x30 => some .sendPacket
  | 0x31 => some .waitForPacket
  | 0x32 => some .startListening
  | 0x33 => some .isPacketReceived
  | 0x34 => some .getPacketReceived
  | 0x40 => some .boot
  | 0x41 => some .softwareReset
  | 0x42 => some .hardwareReset
  | _ => none

/-- The command a word selects; `none` is ILLEGAL_CMD (R91, R94, R100). -/
def decodeWord (w : Word) : Option Instr :=
  if w.extractLsb' 8 24 = 0 then decodeOpcode (w.extractLsb' 0 8).toNat else none

/-- The frame of a window with this header and these further bytes (R98). -/
def decodeFrame (header : Byte) (sent : List Byte) : Instr :=
  if header.msb then .busWrite (header.extractLsb' 0 7) sent
  else .busRead (header.extractLsb' 0 7) sent.length

/-- Every window with at least one byte is a frame (R99). -/
def decodeWindow : List Byte → Option Instr
  | [] => none
  | header :: sent => some (decodeFrame header sent)

/-- The instruction of either format. -/
def decode : Code → Option Instr
  | .cmd w => decodeWord w
  | .bus sent => decodeWindow sent

/-- The header of a write transaction at chip address byte `a` (R120). -/
def writeHeader (a : Byte) : Byte := (a ||| 0x80) &&& 0xFF

/-- The header of a read transaction at chip address byte `a` (R121). -/
def readHeader (a : Byte) : Byte := a &&& 0x7F

/-- The words of an instruction: R92 for a command, R98 for a frame; `dummy` is P_READ_DUMMY. -/
def encode (dummy : Byte) : Instr → Code
  | .writeReg => .cmd 0x01
  | .readReg => .cmd 0x02
  | .writeBurst => .cmd 0x03
  | .readBurst => .cmd 0x04
  | .setFrequency => .cmd 0x10
  | .setSignature => .cmd 0x11
  | .setChannel => .cmd 0x12
  | .setBaudRate => .cmd 0x13
  | .switchMode => .cmd 0x20
  | .clearTxFifo => .cmd 0x21
  | .clearRxFifo => .cmd 0x22
  | .clearFifo => .cmd 0x23
  | .sendPacket => .cmd 0x30
  | .waitForPacket => .cmd 0x31
  | .startListening => .cmd 0x32
  | .isPacketReceived => .cmd 0x33
  | .getPacketReceived => .cmd 0x34
  | .boot => .cmd 0x40
  | .softwareReset => .cmd 0x41
  | .hardwareReset => .cmd 0x42
  | .busWrite a sent => .bus (writeHeader (a.setWidth 8) :: sent)
  | .busRead a count => .bus (readHeader (a.setWidth 8) :: List.replicate count dummy)

/-- The instruction of a row of spec/opcode_table.json: a 32-bit command word, or the 8-bit header of a window. -/
def decodeTableWord (nbits w : Nat) : Option Instr :=
  if nbits = 8 then decode (.bus [BitVec.ofNat 8 w])
  else if nbits = 32 then decode (.cmd (BitVec.ofNat 32 w))
  else none

end Sys2Proof
end

