-- ==== Sys2Proof/Machine/Calculator.lean ====
section
/-! DEFINITION. The configuration calculator (42_configuration.md sections 2 to 5).

All arithmetic is exact (00_scope.md R9): a rational is a pair of natural numbers here, and each of the three
roundings is one division of natural numbers (log 19). -/

namespace Sys2Proof.Machine

/-- `round(num / den) = floor(num / den + 1/2)` (R9). -/
def roundDiv (num den : Nat) : Nat := (2 * num + den) / (2 * den)

/-- `ceil(num / den)` (R9). -/
def ceilDiv (num den : Nat) : Nat := (num + den - 1) / den

/-- The high-band flag of R142 (R144: it flips at 480). -/
def highBand (f : Nat) : Nat := if 480 ≤ f then 1 else 0

/-- `div` of R142. -/
def freqDivisor (f : Nat) : Nat := 10 * (highBand f + 1)

/-- The numerator of `fp = f / div - 24` over the denominator `div` (R142). -/
def freqPart (f : Nat) : Nat := f - 24 * freqDivisor f

/-- `band` of R142. -/
def freqBand (f : Nat) : Nat := freqPart f / freqDivisor f

/-- `carrier` of R142: `fp - band` is the remainder over `div`. -/
def freqCarrier (f : Nat) : Nat := roundDiv (freqPart f % freqDivisor f * 64000) (freqDivisor f)

/-- `FreqEncode(f)` (R142). -/
def freqEncode (f : Nat) : List Byte :=
  [ BitVec.ofNat 8 (0x40 ||| highBand f <<< 5 ||| (freqBand f &&& 0x3F)),
    BitVec.ofNat 8 (freqCarrier f >>> 8),
    BitVec.ofNat 8 (freqCarrier f &&& 0xFF) ]

/-- `IfLookup(req)` over a table's entries (R150). -/
def ifLookup (entries : List (Nat × Byte)) (req : Nat) : Byte :=
  match entries with
  | [] => 0xFF
  | (threshold, value) :: rest => if req ≤ threshold then value else ifLookup rest req

/-- `freqDev` (R155). -/
def freqDeviation (k : Nat) : Nat := if k ≤ 10 then 15 else 150

/-- `modulationByte` (R156). -/
def modulationByteOf (k : Nat) : Byte := if k < 30 then 0x4C else 0x0C

/-- The third byte of the modulation burst (R157). -/
def fdRegOf (k : Nat) : Nat := roundDiv (freqDeviation k * 1000) 625

/-- `dataRateReg` (R158, C1). -/
def dataRateOf (k : Nat) : Nat := roundDiv (k * if k < 30 then 2097152 else 65536) 1000

/-- `filt` (R159). -/
def filterOf (table : IfTable) (k : Nat) : Byte :=
  ifLookup table.entries ((2 * freqDeviation k + k) * 10)

/-- `dwn3Bypass = filt[7]` (R160). -/
def dwn3BypassOf (filt : Byte) : Nat := (filt.extractLsb' 7 1).toNat

/-- `ndecExp = filt[6:4]` (R160). -/
def ndecExpOf (filt : Byte) : Nat := (filt.extractLsb' 4 3).toNat

/-- `rxOversampling` (R161), as `round(4000 * (1 + 2*dwn3Bypass) / (2^ndecExp * k))`. -/
def rxOversamplingOf (filt : Byte) (k : Nat) : Nat :=
  roundDiv (4000 * (1 + 2 * dwn3BypassOf filt)) (2 ^ ndecExpOf filt * k)

/-- `ncOffset` (R162). -/
def ncOffsetOf (filt : Byte) (k : Nat) : Nat :=
  ceilDiv (k * 2 ^ (ndecExpOf filt + 20)) (500 * (1 + 2 * dwn3BypassOf filt))

/-- `crGain` (R163), from the full rxOversampling. -/
def crGainOf (filt : Byte) (k : Nat) : Nat :=
  min 0x7FF (2 + 65535 * k / (rxOversamplingOf filt k * freqDeviation k))

/-- The values of R155 to R163 for `k`. Where `rxOversampling` is 0 they are a CALC_FAULT (R164) and `crGain` is not
used. -/
def baudValues (table : IfTable) (k : Nat) : BaudValues where
  freqDev := freqDeviation k
  modulationByte := modulationByteOf k
  fdReg := fdRegOf k
  dataRateReg := dataRateOf k
  filt := filterOf table k
  dwn3Bypass := dwn3BypassOf (filterOf table k)
  ndecExp := ndecExpOf (filterOf table k)
  rxOversampling := rxOversamplingOf (filterOf table k) k
  ncOffset := ncOffsetOf (filterOf table k) k
  crGain := crGainOf (filterOf table k) k

/-- CALC_FAULT (R164). -/
def baudFaults (b : BaudValues) : Bool := b.rxOversampling == 0

/-- The modulation burst (R157). -/
def modulationBurst (b : BaudValues) : List Byte :=
  [b.modulationByte, 0x23, BitVec.ofNat 8 b.fdReg]

/-- The data-rate burst (R158). -/
def dataRateBurst (b : BaudValues) : List Byte :=
  [BitVec.ofNat 8 (b.dataRateReg >>> 8), BitVec.ofNat 8 (b.dataRateReg &&& 0xFF)]

/-- `crMultiplier` (R163). -/
def crMultiplier : Nat := 0

/-- The timing burst (R165): bits above the fields are dropped. -/
def timingBurst (b : BaudValues) : List Byte :=
  [ BitVec.ofNat 8 b.rxOversampling,
    BitVec.ofNat 8 ((b.rxOversampling >>> 8 &&& 0x7) <<< 5 ||| (b.ncOffset >>> 16 &&& 0xF)),
    BitVec.ofNat 8 (b.ncOffset >>> 8),
    BitVec.ofNat 8 b.ncOffset,
    BitVec.ofNat 8 ((b.crGain >>> 8 &&& 0x7) ||| crMultiplier),
    BitVec.ofNat 8 b.crGain ]

/-- `BaudEncode(k)` (R155 to R165): the four write lists in R166's order, or `none` for CALC_FAULT. -/
def baudEncode (table : IfTable) (k : Nat) : Option (List (List Byte)) :=
  let b := baudValues table k
  if baudFaults b then none
  else some [modulationBurst b, dataRateBurst b, [b.filt], timingBurst b]

end Sys2Proof.Machine
end

