-- ==== Sys2Proof/Machine/Flags.lean ====
section
/-! DEFINITION. The host registers that are made of fields, as words, and the two sticky flags (10_state.md R25 to R32,
R49). SI4432-CTL has no condition codes. -/

namespace Sys2Proof.Machine

/-- The value of STATUS.FSM (R37). -/
def Fsm.toBits : Fsm → BitVec 3
  | .idle => 0
  | .transmitting => 1
  | .awaitingAck => 2
  | .listening => 3
  | .resetting => 4

/-- The value of RESULT.CODE (60_exceptions.md R270). -/
def ResultCode.toByte : ResultCode → Byte
  | .ok => 0x00
  | .ignored => 0x01
  | .txTimeout => 0x02
  | .noPacket => 0x03
  | .packet => 0x04
  | .porTimeout => 0x05
  | .illegalCmd => 0x10
  | .badArg => 0x11
  | .calcFault => 0x12
  | .pending => 0xFF

/-- One bit at a position of a word. -/
def flagAt (b : Bool) (position : Nat) : Word := (BitVec.ofBool b).setWidth 32 <<< position

/-- STATUS as the host reads it (R25). -/
def State.statusWord (s : State) : Word :=
  flagAt s.busy 0 ||| s.fsm.toBits.setWidth 32 <<< 4 ||| flagAt s.busAnomaly 8 ||| flagAt s.cmdOverrun 9 |||
    flagAt s.sdn 10 ||| flagAt s.sel 11

/-- RESULT from its two fields (R26). -/
def resultWord (data : Byte) (code : ResultCode) : Word :=
  data.setWidth 32 <<< 8 ||| code.toByte.setWidth 32

/-- LAST_MODE (R32). -/
def State.lastModeWord (s : State) : Word :=
  flagAt s.modeValid 8 ||| s.modeValue.setWidth 32

/-- A store of `w` to STATUS: the W1C bits written as 1 are cleared, nothing else changes (R25, R65). -/
def State.clearFlags (s : State) (w : Word) : State :=
  { s with busAnomaly := s.busAnomaly && !w.getLsbD 8
           cmdOverrun := s.cmdOverrun && !w.getLsbD 9 }

/-- A device-status answer that is a bus anomaly (43_mode_and_fifo.md R180, 60_exceptions.md R273). -/
def isAnomaly (answer : Byte) : Bool := answer == 0x00 || answer == 0xFF

/-- The anomaly flag is sticky (R25). -/
def State.flagAnomaly (s : State) (answer : Byte) : State :=
  { s with busAnomaly := s.busAnomaly || isAnomaly answer }

end Sys2Proof.Machine
end

