-- ==== Sys2Proof/Machine/Ops.lean ====
section
/-! DEFINITION. The named operations over the state: draws, DATABUF, the bus port, `finish`, block reset and the
micro-operations of the controller.

There is no exception to take and none to return from (60_exceptions.md R277, R278): every end of a command, good or
bad, is the one operation `State.finish` (00_scope.md R14). -/

namespace Sys2Proof.Machine

/-! ### Draws (00_scope.md R12) -/

/-- The next value of a tape: the one listed first, or the free value when none is listed. -/
def Tape.head {α : Type} (free : Nat → α) (t : Tape α) : α :=
  match t.script with
  | [] => free t.used
  | a :: _ => a

/-- The tape after its next value is used. -/
def Tape.advance {α : Type} (t : Tape α) : Tape α :=
  match t.script with
  | [] => ⟨[], t.used + 1⟩
  | _ :: rest => ⟨rest, t.used⟩

/-- The tape after `k` of its values are used. -/
def Tape.skip {α : Type} (t : Tape α) : Nat → Tape α
  | 0 => t
  | k + 1 => t.advance.skip k

/-- The byte the chip answers next. -/
def State.nextAnswer (s : State) : Byte := s.answers.head Config.freeAnswer

/-- The byte the chip answers after `k` more. -/
def State.answerAt (s : State) (k : Nat) : Byte := (s.answers.skip k).head Config.freeAnswer

/-- The next `n` bytes the chip answers. -/
def State.answersFor (s : State) (n : Nat) : List Byte := (List.range n).map s.answerAt

/-- The level the next sample returns. -/
def State.nextLevel (s : State) : Level := s.levels.head Config.freeLevel

/-- The value of the next open read. -/
def State.nextFresh (s : State) : Word := s.fresh.head Config.freeWord

/-! ### DATABUF (10_state.md R34) -/

/-- The byte at an index, if one was written since block reset. -/
def bufGet (m : List Host.Cell) (i : Nat) : Option Byte :=
  match m with
  | [] => none
  | (j, v) :: rest => if i = j then some v else bufGet rest i

/-- A cell list with the byte at `i` set, indices kept rising. -/
def bufInsert (m : List Host.Cell) (i : Nat) (v : Byte) : List Host.Cell :=
  match m with
  | [] => [(i, v)]
  | (j, u) :: rest =>
    if i < j then (i, v) :: (j, u) :: rest
    else if i = j then (i, v) :: rest
    else (j, u) :: bufInsert rest i v

/-- One byte written. There is no index at or above DATABUF_SIZE (log 21). -/
def bufSet (m : List Host.Cell) (i : Nat) (v : Byte) : List Host.Cell :=
  if i < Config.databufSize then bufInsert m i v else m

/-- `MemWrite(i, n, v)` (00_scope.md R10). -/
def bufWrite (m : List Host.Cell) (i : Nat) : List Byte → List Host.Cell
  | [] => m
  | v :: rest => bufWrite (bufSet m i v) (i + 1) rest

/-- `MemRead(i, n)` (R10): each unwritten byte is a fresh draw (R34, I10, log 5). -/
def State.bufRead (s : State) (i : Nat) : Nat → List Byte × State
  | 0 => ([], s)
  | n + 1 =>
    match bufGet s.databuf i with
    | some v => ((v :: (s.bufRead (i + 1) n).1), (s.bufRead (i + 1) n).2)
    | none =>
      let s' := { s with fresh := s.fresh.advance }
      (s.nextFresh.extractLsb' 0 8 :: (s'.bufRead (i + 1) n).1, (s'.bufRead (i + 1) n).2)

/-- Indices strictly rising. -/
def rising : List Host.Cell → Bool
  | [] => true
  | [_] => true
  | a :: b :: rest => a.1 < b.1 && rising (b :: rest)

/-- The canonical form of DATABUF: indices strictly rising, all below DATABUF_SIZE. An unlisted index has no value, so
no entry can equal what an unlisted index reads as. -/
def Memory.wf (m : List Host.Cell) : Bool :=
  rising m && m.all (fun c => c.1 < Config.databufSize)

/-! ### The bus port (00_scope.md R11) -/

/-- One event appended to the trace. -/
def State.emit (s : State) (e : BusEvent) : State := { s with trace := s.trace ++ [e] }

/-- `BusSelect(b)`: chip-select follows (R39). -/
def State.busSelect (s : State) (active : Bool) : State :=
  { s with sel := active, trace := s.trace ++ [.select active] }

/-- `BusXfer(o)`, the returned byte discarded. -/
def State.busSend (s : State) (out : Byte) : State := s.emit (.sent out)

/-- `BusXfer(o)` of a read header: returned byte discarded, no byte received yet (R121). -/
def State.busAsk (s : State) (out : Byte) : State := { s.emit (.sent out) with rx := [] }

/-- `r[k] <- BusXfer(o)` (R121). -/
def State.busRecv (s : State) (out : Byte) : State :=
  { s with rx := s.rx ++ [s.nextAnswer]
           answers := s.answers.advance
           trace := s.trace ++ [.exchanged out s.nextAnswer] }

/-- `SetSDN(b)` (R11, R40). -/
def State.setSdn (s : State) (active : Bool) : State :=
  { s with sdn := active, trace := s.trace ++ [.sdn active] }

/-- The state after `SampleIRQ()` returned `nextLevel` (R11, R41). -/
def State.sampled (s : State) : State :=
  { s with levels := s.levels.advance, trace := s.trace ++ [.irq s.nextLevel] }

/-- `WaitTicks(n)` begins: the controller is blocked until TICK was incremented n times (R13), and goes on at
`resume`. -/
def State.waitTicks (s : State) (n : Nat) (resume : Label) : State :=
  { s with wait := n, todo := [], next := resume, trace := s.trace ++ [.wait n] }

/-- The byte a one-byte read returned: the first received (R123). Before any read it is 0 (log 20). -/
def State.received (s : State) : Byte := s.rx.head?.getD 0

/-- `(Now() - t0) mod 2^32` (10_state.md R33). -/
def State.elapsed (s : State) : Nat := (s.tick - s.t0).toNat

/-! ### Ends -/

/-- `finish(code)` (00_scope.md R14): the result code, BUSY to 0, phase IDLE_WAIT. t0, polls and the calculator's values,
which are undefined outside their command (10_state.md R42), keep what they held: DESIGN CHOICE (log 10). -/
def State.finish (s : State) (code : ResultCode) : State :=
  { s with code := code, busy := false, next := .idle }

/-- Block reset (70_reset_and_hazards.md R300): every register, output and phase at its reset value, as one step; a
running command is abandoned. What lies outside the block (the parameters, the tapes, the events already on the bus and
the word the host read last) stays (log 13). -/
def State.blockReset (s : State) : State :=
  { State.reset with
      params := s.params, grant := s.grant, events := s.events, answers := s.answers, levels := s.levels
      fresh := s.fresh, hostData := s.hostData, trace := s.trace ++ [.blockReset] }

/-- One increment of the tick counter (10_state.md R33); a running WaitTicks has one fewer to wait for (R13). -/
def State.tickOnce (s : State) : State := { s with tick := s.tick + 1, wait := s.wait - 1 }

/-! ### Windows (41_register_access.md R120 to R122) -/

/-- The steps of `WriteBurst(a, d)`. -/
def writeWindow (a : Byte) (sent : List Byte) : List Micro :=
  .select true :: .send (writeHeader a) :: (sent.map Micro.send ++ [.select false])

/-- The steps of `ReadBurst(a, n)`. -/
def readWindow (dummy a : Byte) (count : Nat) : List Micro :=
  .select true :: .ask (readHeader a) :: (List.replicate count (.recv dummy) ++ [.select false])

/-- The steps of a frame. -/
def frameSteps (dummy : Byte) (header : Byte) (sent : List Byte) : List Micro :=
  if header.msb then writeWindow header sent else readWindow dummy header sent.length

/-! ### Micro-operations -/

/-- One micro-operation, already taken off `todo`. A frame puts its steps in front of what is left. -/
def State.micro (s : State) : Micro → State
  | .frame header sent => { s with todo := frameSteps s.params.readDummy header sent ++ s.todo }
  | .select active => s.busSelect active
  | .send out => s.busSend out
  | .ask out => s.busAsk out
  | .recv out => s.busRecv out
  | .setFsm fsm => { s with fsm := fsm }
  | .setSdn active => s.setSdn active
  | .setMode value => { s with modeValue := value, modeValid := true }
  | .clearMode => { s with modeValue := 0, modeValid := false }
  | .testAnomaly => s.flagAnomaly s.received
  | .setT0 => { s with t0 := s.tick }
  | .clearPolls => { s with polls := 0 }
  | .countPoll => { s with polls := s.polls + 1 }
  | .keepS1 => { s with s1 := s.received }
  | .calculate k => { s with baud := baudValues s.params.ifTable k }
  | .setCfgFreq value => { s with cfgFreq := value }
  | .setCfgBaud value => { s with cfgBaud := value }
  | .setCfgChannel value => { s with cfgChannel := value }
  | .setCfgSignature value => { s with cfgSignature := value }
  | .setData => { s with data := s.received }
  | .storeRx => { s with databuf := bufWrite s.databuf 0 s.rx, rxlen := BitVec.ofNat 9 s.rx.length }
  | .finish code => s.finish code

/-- Micro-operations one after another. -/
def State.micros (s : State) (ops : List Micro) : State := ops.foldl State.micro s

/-- One micro-operation with, for a frame, all the steps of its window. -/
def State.wholeMicro (s : State) : Micro → State
  | .frame header sent => s.micros (frameSteps s.params.readDummy header sent)
  | m => s.micro m

/-- A block's micro-operations, each window whole. -/
def State.perform (s : State) (ops : List Micro) : State := ops.foldl State.wholeMicro s

end Sys2Proof.Machine
end

