-- ==== Sys2Proof/Machine/Procedures.lean ====
section
/-! DEFINITION. The procedures the commands share, as lists of micro-operations in the order their rules give
(20_memory.md R66, R69): 41_register_access.md R120 to R123, 42_configuration.md R151 to R166, 43_mode_and_fifo.md R180
and R184, 44_packet.md R203 and R205, 45_bootstrap.md R252 and R256. -/

namespace Sys2Proof.Machine

/-- The OperatingMode flags (10_state.md R46). -/
inductive OperatingMode where
  | ready
  | tune
  | receive
  | transmit
  deriving DecidableEq, Repr

/-- A flag's value (R46). -/
def OperatingMode.value : OperatingMode → Byte
  | .ready => 0x01
  | .tune => 0x02
  | .receive => 0x04
  | .transmit => 0x08

/-- The byte of a set of flags: the OR of their values, 0x00 for the empty set (R46). -/
def modeByte (flags : List OperatingMode) : Byte := flags.foldl (fun b f => b ||| f.value) 0x00

/-- A chip register's address as a byte. -/
def regByte (a : ChipAddr) : Byte := a.setWidth 8

/-- `WriteBurst(a, d)` (R120). -/
def writeBurst (a : Byte) (d : List Byte) : List Micro := [.frame (writeHeader a) d]

/-- `ReadBurst(a, n)` (R121): the received bytes are in `rx` afterwards. -/
def readBurst (p : Params) (a : Byte) (n : Nat) : List Micro :=
  [.frame (readHeader a) (List.replicate n p.readDummy)]

/-- `WriteReg(a, v)` (R123). -/
def writeReg (a v : Byte) : List Micro := writeBurst a [v]

/-- `ReadReg(a)` (R123). -/
def readReg (p : Params) (a : Byte) : List Micro := readBurst p a 1

/-- `SwitchMode(m)` (R180). -/
def switchMode (p : Params) (m : Byte) : List Micro :=
  writeReg (regByte p.regs.state) m ++ [.setMode m] ++
    readReg p (regByte p.regs.deviceStatus) ++ [.testAnomaly]

/-- A FIFO clear with this pattern: the pattern, then the whole byte 0x00 (R184, C6). -/
def clearWith (p : Params) (pattern : Byte) : List Micro :=
  writeReg (regByte p.regs.operationControl) pattern ++ writeReg (regByte p.regs.operationControl) 0x00

/-- `ClearTx()` (R184). -/
def clearTx (p : Params) : List Micro := clearWith p p.clrTx

/-- `ClearRx()` (R184). -/
def clearRx (p : Params) : List Micro := clearWith p p.clrRx

/-- `ClearBoth()` (R184). -/
def clearBoth (p : Params) : List Micro := clearWith p (p.clrTx ||| p.clrRx)

/-- The flush reads of R203 step 5 and R205 step 3: status 1 then status 2, values discarded. -/
def flushStatus (p : Params) : List Micro :=
  readReg p (regByte p.regs.intStatus1) ++ readReg p (regByte p.regs.intStatus2)

/-- The two status reads of a poll (R204, R207): status 1 kept, then status 2. -/
def pollStatus (p : Params) : List Micro :=
  readReg p (regByte p.regs.intStatus1) ++ [.keepS1] ++ readReg p (regByte p.regs.intStatus2)

/-- The two interrupt-enable writes, enable 1 first (R203 step 4, R205 step 2). -/
def enableInterrupts (p : Params) (ie1 ie2 : Byte) : List Micro :=
  writeReg (regByte p.regs.intEnable1) ie1 ++ writeReg (regByte p.regs.intEnable2) ie2

/-- `SendStart(d)` (R203). -/
def sendStart (p : Params) (len : Byte) (d : List Byte) : List Micro :=
  clearTx p ++
  writeReg (regByte p.regs.pkgLen) len ++
  writeBurst (regByte p.regs.fifo) d ++
  enableInterrupts p p.ie1Tx 0x00 ++
  flushStatus p ++
  switchMode p (modeByte [.transmit, .ready])

/-- `StartListening(label)` (R205). -/
def listen (p : Params) (label : Fsm) : List Micro :=
  [.setFsm label] ++
  clearRx p ++
  enableInterrupts p p.ie1Rx p.ie2Rx ++
  flushStatus p ++
  switchMode p (modeByte [.receive, .ready])

/-- The frequency write of R151. -/
def writeFrequency (p : Params) (f : Nat) : List Micro := writeBurst (regByte p.regs.freqband) (freqEncode f)

/-- The two signature bursts of R152, high byte first, transmit header first. -/
def writeSignature (p : Params) (sig : BitVec 16) : List Micro :=
  writeBurst (regByte p.regs.txHeader3) [sig.extractLsb' 8 8, sig.extractLsb' 0 8] ++
  writeBurst (regByte p.regs.checkHeader3) [sig.extractLsb' 8 8, sig.extractLsb' 0 8]

/-- The channel write of R153. -/
def writeChannel (p : Params) (ch : Byte) : List Micro := writeReg (regByte p.regs.channel) ch

/-- The four baud writes of R166, in its order. -/
def writeBaud (p : Params) (b : BaudValues) : List Micro :=
  writeBurst (regByte p.regs.modulation1) (modulationBurst b) ++
  writeBurst (regByte p.regs.txDatarate1) (dataRateBurst b) ++
  writeReg (regByte p.regs.ifFilterBw) b.filt ++
  writeBurst (regByte p.regs.clockRecovery) (timingBurst b)

/-- `SoftReset()` (R252): no device-status read follows. -/
def softReset (p : Params) : List Micro :=
  writeReg (regByte p.regs.state) p.stateReset ++ [.setMode p.stateReset]

/-- `Boot()` up to the baud calculation (R256). -/
def bootFirst (p : Params) (freq baud : Nat) : List Micro :=
  p.bootTable.flatMap (fun row => writeReg (regByte row.1) row.2) ++
  writeFrequency p freq ++
  [.calculate baud]

/-- `Boot()` after the baud calculation (R256): a CALC_FAULT skips only the baud writes. -/
def bootRest (p : Params) (b : BaudValues) (ch : Byte) (sig : BitVec 16) : List Micro :=
  (if baudFaults b then [] else writeBaud p b) ++
  writeChannel p ch ++
  writeSignature p sig ++
  switchMode p (modeByte [.ready])

/-- What a Boot ends with (R256). -/
def bootResult (b : BaudValues) : ResultCode := if baudFaults b then .calcFault else .ok

end Sys2Proof.Machine
end

