-- ==== Sys2Proof/Machine/Phases.lean ====
section
/-! DEFINITION. The controller's positions inside a command (10_state.md R38): what it does at each branch of the
procedures of 42, 44 and 45, and how far it runs in one move. -/

namespace Sys2Proof.Machine

/-- Go on with these micro-operations and then at this position. -/
def State.goOn (s : State) (ops : List Micro) (next : Label) : State := { s with todo := ops, next := next }

/-- SendPoll's loop head: the bound test comes before the sample (R204, R275 (c)). -/
def State.atSendHead (s : State) : State :=
  if s.params.txTimeout ≤ s.elapsed then
    s.goOn (switchMode s.params (modeByte [.ready]) ++ readReg s.params (regByte s.params.regs.deviceStatus))
      .sendTimeout
  else s.goOn [] .sendSample

/-- SendPoll's sample: the status reads are skipped on an idle line (R201, R204, C2). DESIGN CHOICE: one step of the
controller takes the sample of an idle line and begins the WaitTicks(1); IsPacketReceived's loop takes two (log 27). -/
def State.atSendSample (s : State) : State :=
  match s.nextLevel with
  | .low => s.sampled.goOn (pollStatus s.params) .sendStatus
  | .high => s.sampled.waitTicks 1 .sendHead

/-- SendPoll's test of the packet-sent bit (R204). -/
def State.atSendStatus (s : State) : State :=
  if s.s1 &&& s.params.maskPksent ≠ 0 then
    s.goOn (switchMode s.params (modeByte [.ready, .tune])) .sendSent
  else s.waitTicks 1 .sendHead

/-- SEND_PACKET after SENT (R210). -/
def State.atSendSent (s : State) : State :=
  if s.opAck then
    s.goOn ([.setFsm .awaitingAck] ++ listen s.params .awaitingAck ++ [.setT0]) (.waitHead .acknowledgment)
  else s.goOn [.setFsm .idle, .finish .ok] .idle

/-- SendPoll's timeout exit: the overflow bit of the separate device-status read clears both FIFOs (R204, R210). -/
def State.atSendTimeout (s : State) : State :=
  s.goOn ((if s.received &&& s.params.maskOvfl ≠ 0 then clearBoth s.params else []) ++
    [.setFsm .idle, .finish .txTimeout]) .idle

/-- WaitProc's loop head: the bound test comes before the check (R206, R275 (d)). After NO_PACKET the acknowledged
SEND_PACKET writes FSM once more (R210). -/
def State.atWaitHead (s : State) (who : Poller) : State :=
  if s.waitBound who ≤ s.elapsed then
    s.goOn (switchMode s.params (modeByte [.ready]) ++ clearRx s.params ++ [.setFsm .idle, .finish .noPacket]) .idle
  else s.goOn [] (.rxSample who)

/-- After IsPacketReceived returned false, with these steps before the return (R206, R213). -/
def State.notReceived (s : State) (ops : List Micro) (who : Poller) : State :=
  match who with
  | .once => s.goOn (ops ++ [.finish .noPacket]) .idle
  | .waitCommand => s.goOn ops (.pollSleep who)
  | .acknowledgment => s.goOn ops (.pollSleep who)

/-- IsPacketReceived's sample: on an idle line it returns false at once (R207). -/
def State.atRxSample (s : State) (who : Poller) : State :=
  match s.nextLevel with
  | .low => s.sampled.goOn (pollStatus s.params) (.rxStatus who)
  | .high => s.sampled.notReceived [] who

/-- IsPacketReceived's tests, the valid packet before the CRC error (R207, R275 (b)). -/
def State.atRxStatus (s : State) (who : Poller) : State :=
  if s.s1 &&& s.params.maskPkvalid ≠ 0 then
    match who with
    | .once => s.goOn (switchMode s.params (modeByte [.ready, .tune]) ++ [.setFsm .idle, .finish .packet]) .idle
    | .waitCommand =>
      s.goOn (switchMode s.params (modeByte [.ready, .tune]) ++ [.setFsm .idle, .finish .packet]) .idle
    | .acknowledgment =>
      s.goOn (switchMode s.params (modeByte [.ready, .tune]) ++ [.setFsm .idle] ++
        readReg s.params (regByte s.params.regs.rxLen)) (.fetch true)
  else if s.s1 &&& s.params.maskCrcerr ≠ 0 then
    s.notReceived (switchMode s.params (modeByte [.ready]) ++ clearRx s.params ++
      switchMode s.params (modeByte [.receive, .ready])) who
  else s.notReceived [] who

/-- GetPacket after the length read (R208), and what follows it in GET_PACKET_RECEIVED (R214) and in an acknowledged
SEND_PACKET (R210). -/
def State.atFetch (s : State) (ack : Bool) : State :=
  s.goOn (readBurst s.params (regByte s.params.regs.fifo) s.received.toNat ++ clearRx s.params ++ [.storeRx] ++
    if ack then [.setFsm .idle, .finish .packet] else [.finish .ok]) .idle

/-- SET_BAUD_RATE after the calculation (R166): CALC_FAULT makes no write (R141, R164). -/
def State.atBaudDone (s : State) : State :=
  if baudFaults s.baud then s.goOn [.finish .calcFault] .idle
  else s.goOn (writeBaud s.params s.baud ++ [.setCfgBaud s.arg0, .finish .ok]) .idle

/-- Boot after the calculation, and the end of the command that runs it (R250, R256). -/
def State.atBootBaud (s : State) : State :=
  s.goOn (bootRest s.params s.baud s.cfgChannel s.cfgSignature ++ [.setFsm .idle, .finish (bootResult s.baud)]) .idle

/-- The steps of Boot up to the calculation, from the configuration registers (R256). -/
def State.bootSteps (s : State) : List Micro := bootFirst s.params s.cfgFreq.toNat s.cfgBaud.toNat

/-- PorPoll's read (R254). -/
def State.atPorHead (s : State) : State :=
  s.goOn (readReg s.params (regByte s.params.regs.intStatus2) ++ [.countPoll]) .porTest

/-- `P_POR_LIMIT = some N and polls >= N` (R254). -/
def State.porExhausted (s : State) : Bool :=
  match s.params.porLimit with
  | none => false
  | some n => n ≤ s.polls

/-- PorPoll's tests, and what follows DONE and POR_TIMEOUT (R251, R253, R254). -/
def State.atPorTest (s : State) : State :=
  if s.received &&& s.params.maskPor ≠ 0 then s.goOn s.bootSteps .bootBaud
  else if s.porExhausted then s.goOn [.setFsm .idle, .finish .porTimeout] .idle
  else s.waitTicks s.params.porSleep .porHead

/-- The controller at a position, with no micro-operation left before it. -/
def State.enter (s : State) : State :=
  match s.next with
  | .idle => s
  | .decode => s
  | .baudDone => s.atBaudDone
  | .bootBaud => s.atBootBaud
  | .sendHead => s.atSendHead
  | .sendSample => s.atSendSample
  | .sendStatus => s.atSendStatus
  | .sendSent => s.atSendSent
  | .sendTimeout => s.atSendTimeout
  | .waitHead who => s.atWaitHead who
  | .rxSample who => s.atRxSample who
  | .rxStatus who => s.atRxStatus who
  | .pollSleep who => s.waitTicks 1 (.waitHead who)
  | .fetch ack => s.atFetch ack
  | .porHead => s.atPorHead
  | .porTest => s.atPorTest
  | .sdnOff => s.waitTicks s.params.sdnOff .sdnRelease
  | .sdnRelease => s.goOn [.setSdn false] .sdnOn
  | .sdnOn => s.waitTicks s.params.sdnOn .porStart
  | .porStart => s.goOn [.clearPolls] .porHead

/-- One step of the controller: one micro-operation, or one branch with the sample it takes and the wait it begins. DESIGN
CHOICE: the spec does not say how much one step is (log 27). Blocked in a WaitTicks, at IDLE_WAIT or before a decode it
has none to take here. -/
def State.ctlStep (s : State) : State :=
  if s.wait = 0 then
    match s.todo with
    | op :: rest => ({ s with todo := rest }).micro op
    | [] => s.enter
  else s

/-- `n` steps of the controller. -/
def State.ctlSteps (s : State) : Nat → State
  | 0 => s
  | n + 1 => s.ctlStep.ctlSteps n

/-- The rest of the present block and the branch after it. -/
def State.runBlock (s : State) : State := (({ s with todo := [] }).perform s.todo).enter

/-- At most `n` blocks, ending where a WaitTicks blocks the controller. -/
def State.runBlocks (s : State) : Nat → State
  | 0 => s
  | n + 1 => if s.wait = 0 then s.runBlock.runBlocks n else s

/-- More blocks than any command has between two waits; a P_POR_SLEEP of 0 makes PorPoll go on in the next move
(log 2). -/
def blocksPerMove : Nat := 16

/-- The controller runs as far as its move goes. -/
def State.run (s : State) : State :=
  match s.grant with
  | .toWait => s.runBlocks blocksPerMove
  | .steps n => s.ctlSteps n

/-- A command begins: its first block and what follows it. -/
def State.startCommand (s : State) (ops : List Micro) (next : Label) : State :=
  ({ s with todo := ops, next := next, wait := 0 }).run

/-- A transaction on its own: its steps come before whatever is left. A move that runs to the next wait makes the whole
window, whatever comes after it (41_register_access.md R120, R121). -/
def State.transact (s : State) (window : List Micro) : State :=
  match s.grant with
  | .toWait => s.micros window
  | .steps n => ({ s with todo := window ++ s.todo }).ctlSteps n

end Sys2Proof.Machine
end

