-- ==== Sys2Proof/Machine/Bootstrap.lean ====
section
/-! DEFINITION. The bootstrap family (45_bootstrap.md R250, R251, R253). What a command does after its first branch is
in Machine/Phases.lean. -/

namespace Sys2Proof.Machine

/-- BOOT (R250). -/
def execBoot (s : State) : Host.Outcome State Fault Refusal :=
  .next (s.startCommand ([.setFsm .resetting] ++ s.bootSteps) .bootBaud)

/-- SOFTWARE_RESET (R251): SoftReset (R252), then PorPoll (R254). -/
def execSoftwareReset (s : State) : Host.Outcome State Fault Refusal :=
  .next (s.startCommand ([.setFsm .resetting] ++ softReset s.params ++ [.clearPolls]) .porHead)

/-- HARDWARE_RESET (R253): the chip is powered off and LAST_MODE forgotten, then the delays, the poll and Boot. -/
def execHardwareReset (s : State) : Host.Outcome State Fault Refusal :=
  .next (s.startCommand [.setFsm .resetting, .setSdn true, .clearMode] .sdnOff)

end Sys2Proof.Machine
end

