-- ==== Sys2Proof/Machine/Configuration.lean ====
section
/-! DEFINITION. The configuration family (42_configuration.md R151 to R153, R166). -/

namespace Sys2Proof.Machine

/-- SET_FREQUENCY (R151); out of range it is IGNORED (R140). -/
def execSetFrequency (s : State) : Host.Outcome State Fault Refusal :=
  .next (
    if s.freqInRange then
      s.startCommand (writeFrequency s.params s.opFreq ++ [.setCfgFreq s.arg0, .finish .ok]) .idle
    else s.startCommand [.finish .ignored] .idle)

/-- SET_SIGNATURE (R152). -/
def execSetSignature (s : State) : Host.Outcome State Fault Refusal :=
  .next (s.startCommand (writeSignature s.params s.opSignature ++ [.setCfgSignature s.opSignature, .finish .ok]) .idle)

/-- SET_CHANNEL (R153). -/
def execSetChannel (s : State) : Host.Outcome State Fault Refusal :=
  .next (s.startCommand (writeChannel s.params s.opChannel ++ [.setCfgChannel s.opChannel, .finish .ok]) .idle)

/-- SET_BAUD_RATE (R166); out of range it is IGNORED (R140). The calculation comes before any bus event. -/
def execSetBaudRate (s : State) : Host.Outcome State Fault Refusal :=
  .next (
    if s.baudInRange then s.startCommand [.calculate s.opBaud] .baudDone
    else s.startCommand [.finish .ignored] .idle)

end Sys2Proof.Machine
end

