-- ==== Sys2Proof/Machine/ModeFifo.lean ====
section
/-! DEFINITION. The mode switch and the FIFO clears (43_mode_and_fifo.md R181, R185 to R187). -/

namespace Sys2Proof.Machine

/-- SWITCH_MODE (R181). -/
def execSwitchMode (s : State) : Host.Outcome State Fault Refusal :=
  .next (s.startCommand (switchMode s.params s.opMode ++ [.finish .ok]) .idle)

/-- CLEAR_TX_FIFO (R185). -/
def execClearTxFifo (s : State) : Host.Outcome State Fault Refusal :=
  .next (s.startCommand (clearTx s.params ++ [.finish .ok]) .idle)

/-- CLEAR_RX_FIFO (R186). -/
def execClearRxFifo (s : State) : Host.Outcome State Fault Refusal :=
  .next (s.startCommand (clearRx s.params ++ [.finish .ok]) .idle)

/-- CLEAR_FIFO (R187). -/
def execClearFifo (s : State) : Host.Outcome State Fault Refusal :=
  .next (s.startCommand (clearBoth s.params ++ [.finish .ok]) .idle)

end Sys2Proof.Machine
end

