-- ==== Sys2Proof/Machine/Packet.lean ====
section
/-! DEFINITION. The packet family (44_packet.md R210 to R214). What a command does after its first wait is in
Machine/Phases.lean. -/

namespace Sys2Proof.Machine

/-- SEND_PACKET (R210): the payload is read, the transmission started (R203), and SendPoll begins (R204). -/
def execSendPacket (s : State) : Host.Outcome State Fault Refusal :=
  let read := s.bufRead 0 s.opLen.toNat
  .next (read.2.startCommand
    ([.setFsm .transmitting] ++ sendStart s.params s.opLen read.1 ++ [.setT0]) .sendHead)

/-- WAIT_FOR_PACKET (R211): reception is armed and WaitProc begins (R206). -/
def execWaitForPacket (s : State) : Host.Outcome State Fault Refusal :=
  .next (s.startCommand (listen s.params .listening ++ [.setT0]) (.waitHead .waitCommand))

/-- START_LISTENING (R212). -/
def execStartListening (s : State) : Host.Outcome State Fault Refusal :=
  .next (s.startCommand (listen s.params .listening ++ [.finish .ok]) .idle)

/-- IS_PACKET_RECEIVED (R213): one receive check (R207). -/
def execIsPacketReceived (s : State) : Host.Outcome State Fault Refusal :=
  .next (s.startCommand [] (.rxSample .once))

/-- GET_PACKET_RECEIVED (R214): the length read, then the fetch (R208). -/
def execGetPacketReceived (s : State) : Host.Outcome State Fault Refusal :=
  .next (s.startCommand (readReg s.params (regByte s.params.regs.rxLen)) (.fetch false))

end Sys2Proof.Machine
end

