-- ==== Sys2Proof/Machine/RegisterAccess.lean ====
section
/-! DEFINITION. The register access family (41_register_access.md section 2) and the two bus frames (section 1). -/

namespace Sys2Proof.Machine

/-- WRITE_REG (R124). -/
def execWriteReg (s : State) : Host.Outcome State Fault Refusal :=
  .next (s.startCommand (writeReg s.opAddr s.opValue ++ [.finish .ok]) .idle)

/-- READ_REG (R125). -/
def execReadReg (s : State) : Host.Outcome State Fault Refusal :=
  .next (s.startCommand (readReg s.params s.opAddr ++ [.setData, .storeRx, .finish .ok]) .idle)

/-- WRITE_BURST (R126); BAD_ARG before any bus event (R94, R96). -/
def execWriteBurst (s : State) : Host.Outcome State Fault Refusal :=
  .next (
    if s.badCount then s.startCommand [.finish .badArg] .idle
    else
      let read := s.bufRead 0 s.opCount
      read.2.startCommand (writeBurst s.opAddr read.1 ++ [.finish .ok]) .idle)

/-- READ_BURST (R127); BAD_ARG before any bus event (R94, R96). -/
def execReadBurst (s : State) : Host.Outcome State Fault Refusal :=
  .next (
    if s.badCount then s.startCommand [.finish .badArg] .idle
    else s.startCommand (readBurst s.params s.opAddr s.opCount ++ [.storeRx, .finish .ok]) .idle)

/-- A write frame: one chip-select window sending `addr | 0x80` and the bytes (R98, R120). -/
def execBusWrite (addr : ChipAddr) (sent : List Byte) (s : State) : Host.Outcome State Fault Refusal :=
  .next (s.transact (writeWindow (regByte addr) sent))

/-- A read frame: one chip-select window sending `addr & 0x7F` and receiving `count` bytes (R98, R121). -/
def execBusRead (addr : ChipAddr) (count : Nat) (s : State) : Host.Outcome State Fault Refusal :=
  .next (s.transact (readWindow s.params.readDummy (regByte addr) count))

end Sys2Proof.Machine
end

