-- ==== Sys2Proof/Machine/Dispatch.lean ====
section
/-! DEFINITION. One arm per instruction. -/

namespace Sys2Proof.Machine

def exec (i : Instr) (s : State) : Host.Outcome State Fault Refusal :=
  match i with
  | .writeReg => Sys2Proof.Machine.execWriteReg s
  | .readReg => Sys2Proof.Machine.execReadReg s
  | .writeBurst => Sys2Proof.Machine.execWriteBurst s
  | .readBurst => Sys2Proof.Machine.execReadBurst s
  | .setFrequency => Sys2Proof.Machine.execSetFrequency s
  | .setSignature => Sys2Proof.Machine.execSetSignature s
  | .setChannel => Sys2Proof.Machine.execSetChannel s
  | .setBaudRate => Sys2Proof.Machine.execSetBaudRate s
  | .switchMode => Sys2Proof.Machine.execSwitchMode s
  | .clearTxFifo => Sys2Proof.Machine.execClearTxFifo s
  | .clearRxFifo => Sys2Proof.Machine.execClearRxFifo s
  | .clearFifo => Sys2Proof.Machine.execClearFifo s
  | .sendPacket => Sys2Proof.Machine.execSendPacket s
  | .waitForPacket => Sys2Proof.Machine.execWaitForPacket s
  | .startListening => Sys2Proof.Machine.execStartListening s
  | .isPacketReceived => Sys2Proof.Machine.execIsPacketReceived s
  | .getPacketReceived => Sys2Proof.Machine.execGetPacketReceived s
  | .boot => Sys2Proof.Machine.execBoot s
  | .softwareReset => Sys2Proof.Machine.execSoftwareReset s
  | .hardwareReset => Sys2Proof.Machine.execHardwareReset s
  | .busWrite addr sent => Sys2Proof.Machine.execBusWrite addr sent s
  | .busRead addr count => Sys2Proof.Machine.execBusRead addr count s

end Sys2Proof.Machine
end

