-- ==== Sys2Proof/Machine/HostPort.lean ====
section
/-! DEFINITION. The host's loads and stores of the register aperture (10_state.md R21 to R36, 20_memory.md R60 to R65,
R71). -/

namespace Sys2Proof.Machine

/-- The size of the aperture in bytes (R21, R60). -/
def apertureSize : Nat := 0x200

/-- The host has read this word; loads have no other effect (R65). -/
def State.hostReads (s : State) (w : Word) : State := { s with hostData := w }

/-- The host has read a value the spec leaves open (R64, R71): the fields in `mask` are free and the other bits are
those of `fixed`. -/
def State.hostReadsOpen (s : State) (mask fixed : Word) : State :=
  { s with hostData := (s.nextFresh &&& mask) ||| fixed, fresh := s.fresh.advance }

/-- A register that holds its value while BUSY = 0 and reads as a draw while BUSY = 1 (R71); `mask` is its field, the
other bits read 0 (log 6). -/
def State.hostReadsResult (s : State) (w mask : Word) : State :=
  if s.busy then s.hostReadsOpen mask 0 else s.hostReads w

/-- The four bytes of a DATABUF word, byte lane `i mod 4` from index `i` (R62). -/
def wordOfBytes (b : List Byte) : Word :=
  match b with
  | [b0, b1, b2, b3] => b3 ++ b2 ++ b1 ++ b0
  | _ => 0

/-- The bytes of a word, lowest lane first (R62). -/
def bytesOfWord (w : Word) : List Byte :=
  [w.extractLsb' 0 8, w.extractLsb' 8 8, w.extractLsb' 16 8, w.extractLsb' 24 8]

/-- A load of the DATABUF word whose first byte has index `i` (R34, R62). -/
def State.hostReadsBuf (s : State) (i : Nat) : State :=
  if s.busy then s.hostReadsOpen 0xFFFFFFFF 0
  else (s.bufRead i 4).2.hostReads (wordOfBytes (s.bufRead i 4).1)

/-- A load at an aligned offset below 0x200 (R21 to R35, R71). -/
def State.hostLoad (s : State) (offset : Nat) : State :=
  match offset with
  | 0x000 => s.hostReads s.cmd
  | 0x004 => s.hostReads s.arg0
  | 0x008 => s.hostReads s.arg1
  | 0x00C => s.hostReads s.statusWord
  | 0x010 =>
    if s.busy then s.hostReadsOpen 0xFF00 (resultWord 0 s.code) else s.hostReads (resultWord s.data s.code)
  | 0x014 => s.hostReadsResult (s.rxlen.setWidth 32) 0x1FF
  | 0x018 => s.hostReadsResult s.cfgFreq 0xFFFFFFFF
  | 0x01C => s.hostReadsResult s.cfgBaud 0xFFFFFFFF
  | 0x020 => s.hostReadsResult (s.cfgChannel.setWidth 32) 0xFF
  | 0x024 => s.hostReadsResult (s.cfgSignature.setWidth 32) 0xFFFF
  | 0x028 => s.hostReadsResult s.lastModeWord 0x1FF
  | 0x02C => s.hostReads s.tick
  | other => if 0x100 ≤ other then s.hostReadsBuf (other - 0x100) else s.hostReads 0

/-- A store to CMD, ARG0, ARG1 or DATABUF while BUSY = 1 is dropped and flagged; otherwise it is `stored` (R36). -/
def State.guarded (s stored : State) : State :=
  if s.busy then { s with cmdOverrun := true } else stored

/-- The issue of a command (30_encoding.md R93): the word is latched, BUSY set, RESULT.CODE PENDING; decoding is the
controller's next step (log 24). -/
def State.issue (s : State) (w : Word) : State :=
  { s with cmd := w, busy := true, code := .pending, todo := [], next := .decode, wait := 0 }

/-- A store at an aligned offset below 0x200 (R65); read-only and reserved locations ignore it. -/
def State.hostStore (s : State) (offset : Nat) (w : Word) : State :=
  match offset with
  | 0x000 => s.guarded (s.issue w)
  | 0x004 => s.guarded { s with arg0 := w }
  | 0x008 => s.guarded { s with arg1 := w }
  | 0x00C => s.clearFlags w
  | other =>
    if 0x100 ≤ other then s.guarded { s with databuf := bufWrite s.databuf (other - 0x100) (bytesOfWord w) }
    else s

/-- Some byte of an access of `size` bytes at `addr` is in the aperture; otherwise it does not reach the block (R64). -/
def reachesAperture (p : Params) (addr size : Nat) : Bool :=
  p.base < addr + size && addr < p.base + apertureSize

/-- An access that reaches the block has a meaning (R61, R63). -/
def accessibleAt (p : Params) (addr size : Nat) : Bool :=
  p.base ≤ addr && hostAccessWf (addr - p.base) size

/-- One host access. One that does not reach the aperture changes nothing here, and what a load of it returns is the
platform's (R64, log 16); one of another form than an aligned 32-bit access is refused (R63). -/
def State.hostMove (s : State) : HostAccess → Host.Outcome State Fault Refusal
  | .load addr size =>
    if reachesAperture s.params addr size then
      if accessibleAt s.params addr size then .next (s.hostLoad (addr - s.params.base))
      else .refused .hostAccessForm
    else .next (s.hostReadsOpen 0xFFFFFFFF 0)
  | .store addr size w =>
    if reachesAperture s.params addr size then
      if accessibleAt s.params addr size then .next (s.hostStore (addr - s.params.base) w)
      else .refused .hostAccessForm
    else .next s

end Sys2Proof.Machine
end

