-- ==== Sys2Proof/Machine/Turn.lean ====
section
/-! DEFINITION. Whose move it is and what the move does, up to running an instruction (10_state.md R20). -/

namespace Sys2Proof.Machine

/-- What a move comes to: an outcome, or an instruction to run. -/
inductive Turn where
  | done (outcome : Host.Outcome State Fault Refusal)
  | exec (i : Instr) (s : State)

/-- The move that comes next. -/
def State.nextEvent (s : State) : Event := s.events.head Config.freeEvent

/-- The controller's move. Blocked in a WaitTicks it takes no step (R13). With a word latched and not decoded it decodes
it (30_encoding.md R94); with a bus transaction next, the engine reads the frame's header (R98); otherwise it goes on
with the command. -/
def State.controllerMove (s : State) : Turn :=
  if s.wait = 0 then
    match s.todo, s.next with
    | .frame header sent :: rest, _ => .exec (decodeFrame header sent) { s with todo := rest }
    | [], .decode =>
      match decodeWord s.cmd with
      | some i => .exec i s
      | none => .done (.next (s.startCommand [.finish .illegalCmd] .idle))
    | _, _ => .done (.next s.run)
  else .done (.next s)

/-- A move with the event already taken off the tape. -/
def State.move (s : State) : Event → Turn
  | .controller grant => ({ s with grant := grant }).controllerMove
  | .tick => .done (.next s.tickOnce)
  | .host access => .done (s.hostMove access)
  | .blockReset => .done (.next s.blockReset)

/-- The next move. -/
def State.turn (s : State) : Turn := ({ s with events := s.events.advance }).move s.nextEvent

end Sys2Proof.Machine
end

