-- ==== Sys2Proof/Machine/Step.lean ====
section
/-! DEFINITION. One step of the machine: the next agent's move (10_state.md R20). -/

namespace Sys2Proof.Machine

/-- One step. -/
def step (s : State) : Host.Outcome State Fault Refusal :=
  match s.turn with
  | .done outcome => outcome
  | .exec i s' => exec i s'

/-- `s` with an instruction placed where the next step takes it, and the controller to move next (log 14): a command
word latched in CMD as the host's store of it leaves it (30_encoding.md R93), or a window of one header byte at the head
of what the controller does next (R98). -/
def State.withFetchWord (s : State) (nbits w : Nat) : State :=
  let fetched : State :=
    if nbits = 8 then
      { s with todo := [.frame (BitVec.ofNat 8 w) []], next := .idle, wait := 0 }
    else s.issue (BitVec.ofNat 32 w)
  { fetched with events := ⟨.controller .toWait :: s.events.script, s.events.used⟩ }

end Sys2Proof.Machine
end

