-- ==== Sys2Proof/Machine/Assembler.lean ====
section
/-! DEFINITION. Host programs (30_encoding.md R102, R103): the text of a line, and the host accesses it stands for. -/

namespace Sys2Proof.Machine

/-- A line of a host program: a command with its operands, a pseudo-command or a `.buf` directive. -/
inductive HostLine where
  | writeReg (a v : Byte)
  | readReg (a : Byte)
  | writeBurst (a : Byte) (n : BitVec 9)
  | readBurst (a : Byte) (n : BitVec 9)
  | setFrequency (f : Word)
  | setSignature (sig : BitVec 16)
  | setChannel (ch : Byte)
  | setBaudRate (k : Word)
  | switchMode (m : BitVec 4)
  | clearTxFifo
  | clearRxFifo
  | clearFifo
  /-- `SEND_PACKET LEN` or, with an acknowledgment timeout, `SEND_PACKET LEN, ACKTO`. -/
  | sendPacket (len : Byte) (ackTimeout : Option Word)
  | waitForPacket (timeout : Word)
  | startListening
  | isPacketReceived
  | getPacketReceived
  | boot
  | softwareReset
  | hardwareReset
  | modeStandby
  | modeReady
  | modeTune
  | modeRx
  | modeTx
  /-- `.buf b0, b1, ...`. -/
  | buf (bytes : List Byte)
  deriving DecidableEq, Repr

/-- A mode set as the operand of SWITCH_MODE. -/
def modeOperand (flags : List OperatingMode) : BitVec 4 := (modeByte flags).setWidth 4

/-- The command a line issues with the values of ARG0 and ARG1; unused bits are 0 (R95, R102, R103). -/
def HostLine.command : HostLine → Option (Word × Word × Word)
  | .writeReg a v => some (a.setWidth 32, v.setWidth 32, 0x01)
  | .readReg a => some (a.setWidth 32, 0, 0x02)
  | .writeBurst a n => some (a.setWidth 32, n.setWidth 32, 0x03)
  | .readBurst a n => some (a.setWidth 32, n.setWidth 32, 0x04)
  | .setFrequency f => some (f, 0, 0x10)
  | .setSignature sig => some (sig.setWidth 32, 0, 0x11)
  | .setChannel ch => some (ch.setWidth 32, 0, 0x12)
  | .setBaudRate k => some (k, 0, 0x13)
  | .switchMode m => some (m.setWidth 32, 0, 0x20)
  | .clearTxFifo => some (0, 0, 0x21)
  | .clearRxFifo => some (0, 0, 0x22)
  | .clearFifo => some (0, 0, 0x23)
  | .sendPacket len none => some (len.setWidth 32, 0, 0x30)
  | .sendPacket len (some ackTimeout) => some (len.setWidth 32 ||| 0x100, ackTimeout, 0x30)
  | .waitForPacket timeout => some (timeout, 0, 0x31)
  | .startListening => some (0, 0, 0x32)
  | .isPacketReceived => some (0, 0, 0x33)
  | .getPacketReceived => some (0, 0, 0x34)
  | .boot => some (0, 0, 0x40)
  | .softwareReset => some (0, 0, 0x41)
  | .hardwareReset => some (0, 0, 0x42)
  | .modeStandby => some ((modeOperand []).setWidth 32, 0, 0x20)
  | .modeReady => some ((modeOperand [.ready]).setWidth 32, 0, 0x20)
  | .modeTune => some ((modeOperand [.ready, .tune]).setWidth 32, 0, 0x20)
  | .modeRx => some ((modeOperand [.receive, .ready]).setWidth 32, 0, 0x20)
  | .modeTx => some ((modeOperand [.transmit, .ready]).setWidth 32, 0, 0x20)
  | .buf _ => none

/-- The little-endian word stores of a `.buf` from `offset`; the rest of a partly-covered word is 0 (R102). -/
def bufStores (base offset : Nat) : List Byte → List HostAccess
  | [] => []
  | [b0] => [.store (base + offset) 4 (wordOfBytes [b0, 0, 0, 0])]
  | [b0, b1] => [.store (base + offset) 4 (wordOfBytes [b0, b1, 0, 0])]
  | [b0, b1, b2] => [.store (base + offset) 4 (wordOfBytes [b0, b1, b2, 0])]
  | b0 :: b1 :: b2 :: b3 :: rest =>
    .store (base + offset) 4 (wordOfBytes [b0, b1, b2, b3]) :: bufStores base (offset + 4) rest

/-- The stores of a line: ARG0, ARG1, then CMD, or the words of a `.buf` (R102). -/
def HostLine.stores (base : Nat) (line : HostLine) : List HostAccess :=
  match line.command with
  | some (a0, a1, word) => [.store (base + 4) 4 a0, .store (base + 8) 4 a1, .store base 4 word]
  | none =>
    match line with
    | .buf bytes => bufStores base 0x100 bytes
    | _ => []

/-! ### The text of a line (R102); what the grammar does not say is in log 25 -/

/-- A blank. -/
def isBlank (c : Char) : Bool := c == ' ' || c == '\t'

/-- The text without the blanks at its ends. -/
def trimmed (text : List Char) : List Char :=
  ((text.dropWhile isBlank).reverse.dropWhile isBlank).reverse

/-- The parts between the separators. -/
def partsAt (sep : Char) : List Char → List (List Char)
  | [] => [[]]
  | c :: rest =>
    if c = sep then [] :: partsAt sep rest
    else
      match partsAt sep rest with
      | [] => [[c]]
      | part :: parts => (c :: part) :: parts

/-- The value of a digit, decimal or hexadecimal. -/
def digitOf (base : Nat) (c : Char) : Option Nat :=
  let n := c.toNat
  let value :=
    if 48 ≤ n && n ≤ 57 then n - 48
    else if 65 ≤ n && n ≤ 70 then n - 55
    else if 97 ≤ n && n ≤ 102 then n - 87
    else base
  if value < base then some value else none

/-- The number with these further digits. -/
def digitsFrom (base acc : Nat) : List Char → Option Nat
  | [] => some acc
  | c :: rest =>
    match digitOf base c with
    | some d => digitsFrom base (acc * base + d) rest
    | none => none

/-- `number := decimal | "0x" hex`. -/
def numberOf (text : List Char) : Option Nat :=
  match text with
  | [] => none
  | ['0', 'x'] => none
  | '0' :: 'x' :: digits => digitsFrom 16 0 digits
  | digits => digitsFrom 10 0 digits

/-- `flag`. -/
def flagOf (text : List Char) : Option OperatingMode :=
  if text = "READY".toList then some .ready
  else if text = "TUNE".toList then some .tune
  else if text = "RECEIVE".toList then some .receive
  else if text = "TRANSMIT".toList then some .transmit
  else none

/-- Every part read, or none. -/
def allOf {α β : Type} (f : α → Option β) : List α → Option (List β)
  | [] => some []
  | a :: rest =>
    match f a, allOf f rest with
    | some b, some bs => some (b :: bs)
    | _, _ => none

/-- `operand := number | modeset`, as a number. -/
def operandOf (text : List Char) : Option Nat :=
  match numberOf text with
  | some n => some n
  | none => (allOf (fun part => flagOf (trimmed part)) (partsAt '|' text)).map (fun flags => (modeByte flags).toNat)

/-- The operands of a line, separated by commas. -/
def operandsOf {β : Type} (f : List Char → Option β) (text : List Char) : Option (List β) :=
  match trimmed text with
  | [] => some []
  | c :: rest => allOf (fun part => f (trimmed part)) (partsAt ',' (c :: rest))

/-- A number as a field of this width: the field takes the low bits of the number, as R95 takes it from its register
(log 25). -/
def fieldOf (width n : Nat) : BitVec width := BitVec.ofNat width n

/-- A command of no operand. -/
def plainCommand (mnemonic : List Char) : Option HostLine :=
  if mnemonic = "CLEAR_TX_FIFO".toList then some .clearTxFifo
  else if mnemonic = "CLEAR_RX_FIFO".toList then some .clearRxFifo
  else if mnemonic = "CLEAR_FIFO".toList then some .clearFifo
  else if mnemonic = "START_LISTENING".toList then some .startListening
  else if mnemonic = "IS_PACKET_RECEIVED".toList then some .isPacketReceived
  else if mnemonic = "GET_PACKET_RECEIVED".toList then some .getPacketReceived
  else if mnemonic = "BOOT".toList then some .boot
  else if mnemonic = "SOFTWARE_RESET".toList then some .softwareReset
  else if mnemonic = "HARDWARE_RESET".toList then some .hardwareReset
  else if mnemonic = "MODE_STANDBY".toList then some .modeStandby
  else if mnemonic = "MODE_READY".toList then some .modeReady
  else if mnemonic = "MODE_TUNE".toList then some .modeTune
  else if mnemonic = "MODE_RX".toList then some .modeRx
  else if mnemonic = "MODE_TX".toList then some .modeTx
  else none

/-- A command of one operand. -/
def unaryCommand (mnemonic : List Char) (n : Nat) : Option HostLine :=
  if mnemonic = "READ_REG".toList then some (.readReg (fieldOf 8 n))
  else if mnemonic = "SET_FREQUENCY".toList then some (.setFrequency (fieldOf 32 n))
  else if mnemonic = "SET_SIGNATURE".toList then some (.setSignature (fieldOf 16 n))
  else if mnemonic = "SET_CHANNEL".toList then some (.setChannel (fieldOf 8 n))
  else if mnemonic = "SET_BAUD_RATE".toList then some (.setBaudRate (fieldOf 32 n))
  else if mnemonic = "SWITCH_MODE".toList then some (.switchMode (fieldOf 4 n))
  else if mnemonic = "SEND_PACKET".toList then some (.sendPacket (fieldOf 8 n) none)
  else if mnemonic = "WAIT_FOR_PACKET".toList then some (.waitForPacket (fieldOf 32 n))
  else none

/-- A command of two operands. -/
def binaryCommand (mnemonic : List Char) (m n : Nat) : Option HostLine :=
  if mnemonic = "WRITE_REG".toList then some (.writeReg (fieldOf 8 m) (fieldOf 8 n))
  else if mnemonic = "WRITE_BURST".toList then some (.writeBurst (fieldOf 8 m) (fieldOf 9 n))
  else if mnemonic = "READ_BURST".toList then some (.readBurst (fieldOf 8 m) (fieldOf 9 n))
  else if mnemonic = "SEND_PACKET".toList then some (.sendPacket (fieldOf 8 m) (some (fieldOf 32 n)))
  else none

/-- A command or directive with the text of its operands. -/
def commandOf (mnemonic operands : List Char) : Option HostLine :=
  if mnemonic = ".buf".toList then
    match operandsOf numberOf operands with
    | some (n :: rest) => some (.buf ((n :: rest).map (fieldOf 8)))
    | _ => none
  else
    match operandsOf operandOf operands with
    | some [] => plainCommand mnemonic
    | some [n] => unaryCommand mnemonic n
    | some [m, n] => binaryCommand mnemonic m n
    | _ => none

/-- `[label ":"]` taken off: a label is one word. -/
def afterLabel (text : List Char) : Option (List Char) :=
  match partsAt ':' text with
  | [statement] => some statement
  | [label, statement] =>
    if (trimmed label).isEmpty || (trimmed label).any isBlank then none else some statement
  | _ => none

/-- `line := [label ":"] (command | directive) [";" comment]`; `none` is no line of the grammar. -/
def parseLine (text : List Char) : Option HostLine :=
  match afterLabel (text.takeWhile (· != ';')) with
  | none => none
  | some statement =>
    let words := trimmed statement
    commandOf (words.takeWhile (fun c => !isBlank c)) (words.dropWhile (fun c => !isBlank c))

end Sys2Proof.Machine
end

