-- ==== Sys2Proof/Machine/HostProgram.lean ====
section
/-! DEFINITION. A host program at work (30_encoding.md R102): the accesses of its lines one after another, and after
those of a command line the loads of STATUS until one of them shows BUSY = 0. -/

namespace Sys2Proof.Machine

/-- What a host program does at one place. -/
inductive HostAction where
  /-- One load or store. -/
  | access (a : HostAccess)
  /-- Load STATUS until BUSY = 0. -/
  | awaitIdle
  deriving DecidableEq, Repr

/-- What a line means: the stores of a command line and then the wait for its end, or the stores of a `.buf` (R102). -/
def HostLine.actions (base : Nat) (line : HostLine) : List HostAction :=
  match line.command with
  | some _ => (line.stores base).map .access ++ [.awaitIdle]
  | none => (line.stores base).map .access

/-- What a program means: its lines in order. -/
def programActions (base : Nat) (lines : List HostLine) : List HostAction := lines.flatMap (HostLine.actions base)

/-- A program from its text, one line after another. -/
def parseProgram (text : List (List Char)) : Option (List HostLine) := allOf parseLine text

/-- The load of STATUS that a wait repeats (R102). -/
def statusPoll (base : Nat) : HostAccess := .load (base + 0xC) 4

/-- A machine with the host program that drives it. -/
structure Session where
  machine : State
  /-- What the program has still to do. -/
  ahead : List HostAction
  /-- What the last load of STATUS that the wait at the head of `ahead` made has read, if it has made one. -/
  status : Option Word
  deriving DecidableEq, Repr

/-- A program about to begin. -/
def Session.start (machine : State) (lines : List HostLine) : Session :=
  ⟨machine, programActions machine.params.base lines, none⟩

/-- A load of STATUS that the wait made shows BUSY = 0. -/
def Session.sawIdle (c : Session) : Bool :=
  match c.status with
  | some w => !w.getLsbD 0
  | none => false

/-- What the program has still to do once a wait whose last load of STATUS shows BUSY = 0 is over. DESIGN CHOICE: only a
load that the wait itself made ends it, whatever else the host reads (log 25). -/
def Session.due (c : Session) : List HostAction :=
  match c.ahead with
  | .awaitIdle :: rest => if c.sawIdle then rest else c.ahead
  | _ => c.ahead

/-- The host's next access, what is left after it, and whether it is the load of STATUS of a wait. -/
def Session.nextAccess (c : Session) : Option (HostAccess × List HostAction × Bool) :=
  match c.due with
  | [] => none
  | .access a :: rest => some (a, rest, false)
  | .awaitIdle :: rest => some (statusPoll c.machine.params.base, .awaitIdle :: rest, true)

/-- The program is at its end. -/
def Session.done (c : Session) : Bool := c.due == []

/-- The session after a step of its machine, if the step gave a next state. -/
def Session.after (next : State → Session) (o : Host.Outcome State Fault Refusal) : Host.Outcome Session Fault Refusal :=
  match o with
  | .next t => .next (next t)
  | .fault r => .fault r
  | .refused r => .refused r

/-- The program's move: its next access is the next move of the machine. At its end the program makes none. -/
def Session.hostMove (c : Session) : Host.Outcome Session Fault Refusal :=
  match c.nextAccess with
  | none => .next c
  | some (a, ahead, polls) =>
    let events : Tape Event := ⟨.host a :: c.machine.events.script, c.machine.events.used⟩
    Session.after (fun t => ⟨t, ahead, if polls then some t.hostData else none⟩) (step { c.machine with events := events })

/-- The move that the machine's schedule names (R20), which leaves what the program has to do as it is. DESIGN CHOICE: a
host access named there is one that the host makes beside its program; it is performed (20_memory.md R72), and what it
reads ends no wait of the program (log 25). -/
def Session.otherMove (c : Session) : Host.Outcome Session Fault Refusal :=
  Session.after (fun t => { c with machine := t }) (step c.machine)

/-- The session over a list of moves: `true` is the program's, `false` the one the schedule names (R20). -/
def Session.run (c : Session) : List Bool → Host.Outcome Session Fault Refusal
  | [] => .next c
  | host :: rest =>
    match if host then c.hostMove else c.otherMove with
    | .next d => d.run rest
    | .fault r => .fault r
    | .refused r => .refused r

end Sys2Proof.Machine
end

