-- ==== Sys2Proof/Machine/Trace.lean ====
section
/-! DEFINITION. The bus trace of 00_scope.md R16: transactions read off the byte events (30_encoding.md R98, R99), the
traces the procedures of 41 to 45 leave, and the bus cost of 70_reset_and_hazards.md R318. -/

namespace Sys2Proof.Machine

/-- One event of R16's notation. -/
inductive TraceEvent where
  /-- `W(a; b0, b1, ...)`. -/
  | write (addr : ChipAddr) (sent : List Byte)
  /-- `R(a; n) -> [r0, ...]`. -/
  | read (addr : ChipAddr) (answers : List Byte)
  /-- `IRQ -> l`. -/
  | irq (level : Level)
  /-- `SDN(b)`. -/
  | sdn (active : Bool)
  /-- `WAIT(n)`. -/
  | wait (ticks : Nat)
  /-- Block reset (log 12). -/
  | blockReset
  deriving DecidableEq, Repr

/-- A window as a transaction: its header decides (R99). DESIGN CHOICE: a window with no byte at all, which block reset can
leave between BusSelect(1) and the header, is no transaction (log 12). -/
def windowEvent (sent answers : List Byte) : List TraceEvent :=
  match sent with
  | [] => []
  | header :: rest =>
    if header.msb then [.write (header.extractLsb' 0 7) rest] else [.read (header.extractLsb' 0 7) answers]

/-- The trace's transactions, given the bytes sent and answered so far in the open window. -/
def transactionsFrom (sent answers : List Byte) : List BusEvent → List TraceEvent
  | [] => windowEvent sent answers
  | .select true :: rest => windowEvent sent answers ++ transactionsFrom [] [] rest
  | .select false :: rest => windowEvent sent answers ++ transactionsFrom [] [] rest
  | .sent out :: rest => transactionsFrom (sent ++ [out]) answers rest
  | .exchanged out answer :: rest => transactionsFrom (sent ++ [out]) (answers ++ [answer]) rest
  | .irq level :: rest => .irq level :: transactionsFrom sent answers rest
  | .sdn active :: rest => .sdn active :: transactionsFrom sent answers rest
  | .wait ticks :: rest => .wait ticks :: transactionsFrom sent answers rest
  | .blockReset :: rest => windowEvent sent answers ++ .blockReset :: transactionsFrom [] [] rest

/-- The bus trace in R16's notation. A window that block reset cuts short is the transaction of the bytes it had, cut
short (R99, 41_register_access.md R128), and so is a window still open at the end of the trace (log 12). -/
def transactions (trace : List BusEvent) : List TraceEvent := transactionsFrom [] [] trace

/-- Chip-select windows opened (R318). -/
def windowCount (trace : List BusEvent) : Nat :=
  trace.countP (fun e => e == .select true)

/-- A byte crossed the bus. -/
def isTransfer : BusEvent → Bool
  | .sent _ => true
  | .exchanged _ _ => true
  | .select _ => false
  | .irq _ => false
  | .sdn _ => false
  | .wait _ => false
  | .blockReset => false

/-- Bytes exchanged, the headers among them (R318). -/
def byteCount (trace : List BusEvent) : Nat := trace.countP isTransfer

/-! ### The traces of the procedures -/

/-- `W(a; d)` (R120). -/
def writeTrace (a : Byte) (d : List Byte) : List BusEvent :=
  .select true :: .sent (writeHeader a) :: (d.map BusEvent.sent ++ [.select false])

/-- `R(a; n) -> answers` (R121). -/
def readTrace (p : Params) (a : Byte) (answers : List Byte) : List BusEvent :=
  .select true :: .sent (readHeader a) :: (answers.map (BusEvent.exchanged p.readDummy) ++ [.select false])

/-- `SwitchMode(m)` with status answer `ds` (R180). -/
def switchModeTrace (p : Params) (m ds : Byte) : List BusEvent :=
  writeTrace (regByte p.regs.state) [m] ++ readTrace p (regByte p.regs.deviceStatus) [ds]

/-- A FIFO clear (R184). -/
def clearTrace (p : Params) (pattern : Byte) : List BusEvent :=
  writeTrace (regByte p.regs.operationControl) [pattern] ++ writeTrace (regByte p.regs.operationControl) [0x00]

/-- Status 1 then status 2 read (R203, R204, R205, R207). -/
def statusTrace (p : Params) (s1 s2 : Byte) : List BusEvent :=
  readTrace p (regByte p.regs.intStatus1) [s1] ++ readTrace p (regByte p.regs.intStatus2) [s2]

/-- The two enable writes (R203, R205). -/
def enableTrace (p : Params) (ie1 ie2 : Byte) : List BusEvent :=
  writeTrace (regByte p.regs.intEnable1) [ie1] ++ writeTrace (regByte p.regs.intEnable2) [ie2]

/-- `StartListening` with flush answers `s1`, `s2` and status answer `ds` (R205). -/
def listenTrace (p : Params) (s1 s2 ds : Byte) : List BusEvent :=
  clearTrace p p.clrRx ++ enableTrace p p.ie1Rx p.ie2Rx ++ statusTrace p s1 s2 ++
    switchModeTrace p (modeByte [.receive, .ready]) ds

/-- `SendStart(d)` with flush answers `s1`, `s2` and status answer `ds` (R203). -/
def sendStartTrace (p : Params) (len : Byte) (d : List Byte) (s1 s2 ds : Byte) : List BusEvent :=
  clearTrace p p.clrTx ++ writeTrace (regByte p.regs.pkgLen) [len] ++ writeTrace (regByte p.regs.fifo) d ++
    enableTrace p p.ie1Tx 0x00 ++ statusTrace p s1 s2 ++ switchModeTrace p (modeByte [.transmit, .ready]) ds

/-- The signature writes (R152). -/
def signatureTrace (p : Params) (sig : BitVec 16) : List BusEvent :=
  writeTrace (regByte p.regs.txHeader3) [sig.extractLsb' 8 8, sig.extractLsb' 0 8] ++
    writeTrace (regByte p.regs.checkHeader3) [sig.extractLsb' 8 8, sig.extractLsb' 0 8]

/-- The four baud writes (R166). -/
def baudTrace (p : Params) (b : BaudValues) : List BusEvent :=
  writeTrace (regByte p.regs.modulation1) (modulationBurst b) ++
    writeTrace (regByte p.regs.txDatarate1) (dataRateBurst b) ++
    writeTrace (regByte p.regs.ifFilterBw) [b.filt] ++
    writeTrace (regByte p.regs.clockRecovery) (timingBurst b)

/-- `Boot()` with status answer `ds` (R256). -/
def bootTrace (p : Params) (freq : Nat) (b : BaudValues) (ch : Byte) (sig : BitVec 16) (ds : Byte) :
    List BusEvent :=
  p.bootTable.flatMap (fun row => writeTrace (regByte row.1) [row.2]) ++
    writeTrace (regByte p.regs.freqband) (freqEncode freq) ++
    (if baudFaults b then [] else baudTrace p b) ++
    writeTrace (regByte p.regs.channel) [ch] ++
    signatureTrace p sig ++
    switchModeTrace p (modeByte [.ready]) ds

end Sys2Proof.Machine
end

