-- ==== Sys2Proof/Safety.lean ====
section
/-! DEFINITION. What holds in every state a run reaches: chip-select follows the windows, the phase agrees with BUSY and
RESULT.CODE, the configuration stays in range, DATABUF is in its canonical form. -/

namespace Sys2Proof.Machine

/-- `s` once a command has ended with `code` (00_scope.md R14): the phase is IDLE_WAIT. -/
def State.ended (s : State) (code : ResultCode) : State :=
  { s with code := code, busy := false, todo := [], next := .idle, wait := 0 }

/-- `s` with the next move taken off the schedule. -/
def State.moved (s : State) : State := { s with events := s.events.advance }

/-- The instruction is a command, not a bus frame. -/
def isCommand : Instr → Bool
  | .writeReg | .readReg | .writeBurst | .readBurst => true
  | .setFrequency | .setSignature | .setChannel | .setBaudRate => true
  | .switchMode | .clearTxFifo | .clearRxFifo | .clearFifo => true
  | .sendPacket | .waitForPacket | .startListening | .isPacketReceived | .getPacketReceived => true
  | .boot | .softwareReset | .hardwareReset => true
  | .busWrite _ _ | .busRead _ _ => false

/-- A byte crosses the bus. -/
def Micro.isTransfer : Micro → Bool
  | .send _ | .ask _ | .recv _ => true
  | .frame _ _ | .select _ | .setFsm _ | .setSdn _ | .setMode _ | .clearMode | .testAnomaly | .setT0 => false
  | .clearPolls | .countPoll | .keepS1 | .calculate _ | .setCfgFreq _ | .setCfgBaud _ => false
  | .setCfgChannel _ | .setCfgSignature _ | .setData | .storeRx | .finish _ => false

/-- The operation ends the command. -/
def Micro.isFinish : Micro → Bool
  | .finish _ => true
  | .frame _ _ | .select _ | .send _ | .ask _ | .recv _ | .setFsm _ | .setSdn _ | .setMode _ => false
  | .clearMode | .testAnomaly | .setT0 | .clearPolls | .countPoll | .keepS1 | .calculate _ => false
  | .setCfgFreq _ | .setCfgBaud _ | .setCfgChannel _ | .setCfgSignature _ | .setData | .storeRx => false

/-- From chip-select at `sel`, the operations open and close windows in turn, exchange bytes inside windows only, do
everything else outside them, and leave chip-select inactive (10_state.md R39, 41_register_access.md R128). -/
def portBalanced (sel : Bool) : List Micro → Bool
  | [] => !sel
  | .select active :: rest => (active != sel) && portBalanced active rest
  | op :: rest => (op.isTransfer == sel) && portBalanced sel rest

/-- The operations end with their only `finish`, which does not write PENDING (R14, R270). -/
def endsCommand : List Micro → Bool
  | [] => false
  | [op] => op.isFinish && op != .finish .pending
  | op :: rest => !op.isFinish && endsCommand rest

/-- No operation ends the command. -/
def goesOn (ops : List Micro) : Bool := ops.all (fun op => !op.isFinish)

/-- With BUSY = 0 the controller is at IDLE_WAIT (10_state.md R38) and RESULT.CODE is not PENDING; with BUSY = 1
RESULT.CODE is PENDING (30_encoding.md R93) and the command has an end ahead or a branch to take. -/
def State.phaseOk (s : State) : Bool :=
  if s.busy then
    s.code == .pending &&
      (if s.next = .idle then s.wait == 0 && endsCommand s.todo
       else if s.next = .decode then s.wait == 0 && s.todo == []
       else goesOn s.todo && (s.wait == 0 || s.todo == []))
  else s.code != .pending && s.next == .idle && s.todo == [] && s.wait == 0

/-- A frequency SET_FREQUENCY accepts (42_configuration.md R151). -/
def freqOk (f : Word) : Bool := 240 ≤ f.toNat && f.toNat ≤ 930

/-- A baud rate SET_BAUD_RATE accepts (R166). -/
def baudOk (k : Word) : Bool := 1 ≤ k.toNat && k.toNat ≤ 256

/-- The operation writes a legal configuration value, if it writes one. -/
def Micro.cfgOk : Micro → Bool
  | .setCfgFreq value => freqOk value
  | .setCfgBaud value => baudOk value
  | .frame _ _ | .select _ | .send _ | .ask _ | .recv _ | .setFsm _ | .setSdn _ | .setMode _ => true
  | .clearMode | .testAnomaly | .setT0 | .clearPolls | .countPoll | .keepS1 | .calculate _ => true
  | .setCfgChannel _ | .setCfgSignature _ | .setData | .storeRx | .finish _ => true

/-- CFG_FREQ is in 240..930 and CFG_BAUD in 1..256 (10_state.md R28, R29), and what is about to be written to them
too. -/
def State.cfgOk (s : State) : Bool :=
  freqOk s.cfgFreq && baudOk s.cfgBaud && s.todo.all Micro.cfgOk && (s.next != .baudDone || baudOk s.arg0)

/-- The invariant of the machine. -/
abbrev State.Inv (s : State) : Prop :=
  portBalanced s.sel s.todo = true ∧ s.phaseOk = true ∧ s.cfgOk = true ∧ Memory.wf s.databuf = true

end Sys2Proof.Machine
end

