-- ==== Sys2Proof/Certificates/Slice0/Obligations.lean ====
section
/-! DEFINITION. The statements for the provers. Every one holds in every state that meets its hypotheses, reached by a
run or not. A result statement says the whole next state: what is not named in `{ s with ... }` is unchanged.

`State.ended` is a command's end (00_scope.md R14), `State.moved` takes one move off the schedule, and
`s.answerAt k` is whatever the chip answers after `k` more bytes (R12). A statement about a command takes the move that
runs it to its end or its next wait (log 2); CoarseMovesAreFineSteps says what that has to do with the finer moves. -/

open Sys2Proof Sys2Proof.Machine

/-! ### Encoding -/

/-- Decode and encode agree on every well-formed instruction, operands and all (R92, R98, R99). -/
def Obligations.DecodeOfEncodeIsTheInstruction : Prop :=
  ∀ (i : Instr) (dummy : Byte), i.wf = true → decode (encode dummy i) = some i

/-- A command word decodes to a command exactly when the opcode map says so, one pair of word and command for each of the
twenty, and it is that command's only word (R91, R92, R94, R100). -/
def Obligations.CommandWordsAreTheOpcodeMap : Prop :=
  (∀ (w : Word) (i : Instr), decodeWord w = some i ↔ (w.toNat, i) ∈
    [(0x01, .writeReg), (0x02, .readReg), (0x03, .writeBurst), (0x04, .readBurst),
      (0x10, .setFrequency), (0x11, .setSignature), (0x12, .setChannel), (0x13, .setBaudRate),
      (0x20, .switchMode), (0x21, .clearTxFifo), (0x22, .clearRxFifo), (0x23, .clearFifo),
      (0x30, .sendPacket), (0x31, .waitForPacket), (0x32, .startListening), (0x33, .isPacketReceived),
      (0x34, .getPacketReceived), (0x40, .boot), (0x41, .softwareReset), (0x42, .hardwareReset)]) ∧
  ∀ (w : Word) (i : Instr) (dummy : Byte), decodeWord w = some i → encode dummy i = .cmd w

/-- Words written out from R91, R92 and R98 decode to what they stand for. -/
def Obligations.WrittenOutWordsDecode : Prop :=
  decodeWord 0b00000000000000000000000000000001#32 = some .writeReg ∧
  decodeWord 0b00000000000000000000000000010011#32 = some .setBaudRate ∧
  decodeWord 0b00000000000000000000000000100011#32 = some .clearFifo ∧
  decodeWord 0b00000000000000000000000000110000#32 = some .sendPacket ∧
  decodeWord 0b00000000000000000000000001000010#32 = some .hardwareReset ∧
  decodeWord 0b00000000000000000000000100000001#32 = none ∧
  decodeWindow [0b10000111#8, 0b00000101#8] = some (.busWrite 0x07 [0x05]) ∧
  decodeWindow [0b00000010#8, 0b00000000#8] = some (.busRead 0x02 1)

/-- The trace of a frame reads back as that frame: header bit 7 is the direction, the other seven bits the address, the
rest of the window the data (R98, R99). -/
def Obligations.WindowsReadBack : Prop :=
  ∀ (p : Params) (a : Byte) (d answers : List Byte) (rest : List BusEvent),
    transactions (writeTrace a d ++ rest) = .write (a.extractLsb' 0 7) d :: transactions rest ∧
    transactions (readTrace p a answers ++ rest) = .read (a.extractLsb' 0 7) answers :: transactions rest

/-! ### One step -/

/-- The controller's move with a word latched and not decoded runs the decoded instruction (R90, R94). -/
def Obligations.StepRunsTheLatchedCommand : Prop :=
  ∀ (s : State) (g : Grant) (i : Instr), s.nextEvent = .controller g → s.wait = 0 → s.todo = [] → s.next = .decode →
    decodeWord s.cmd = some i → step s = exec i { s.moved with grant := g }

/-- The controller's move with a transaction next runs the frame its window decodes to (R98, R99). That a frame is an
instruction of the machine is the model's choice (log 15). -/
def Obligations.StepRunsTheNextFrame : Prop :=
  ∀ (s : State) (g : Grant) (header : Byte) (sent : List Byte) (rest : List Micro) (i : Instr),
    s.nextEvent = .controller g → s.wait = 0 → s.todo = .frame header sent :: rest →
    decodeWindow (header :: sent) = some i → step s = exec i { s.moved with grant := g, todo := rest }

/-- A word that does not decode ends ILLEGAL_CMD with no bus event and no other state change (R94, R100). -/
def Obligations.IllegalWordEndsAtOnce : Prop :=
  ∀ s : State, s.nextEvent = .controller .toWait → s.wait = 0 → s.todo = [] → s.next = .decode →
    decodeWord s.cmd = none → step s = .next (State.ended { s.moved with grant := .toWait } .illegalCmd)

/-- One tick increments TICK modulo 2^32, counts one off a running wait and does nothing else (R13, R33). -/
def Obligations.TickIncrementsTheCounter : Prop :=
  ∀ s : State, s.nextEvent = .tick →
    ∃ t, step s = .next t ∧ t.tick.toNat = (s.tick.toNat + 1) % 2 ^ 32 ∧ t.wait = s.wait - 1 ∧
      t = { s.moved with tick := t.tick, wait := t.wait }

/-- Block reset, whatever runs: every register, output and phase at its reset value in one step, no result left, the
bus events already made kept (R300). What t0, polls and the local values become (log 10), the
trace's own mark (log 12) and what stays (log 13) are the model's choices. -/
def Obligations.BlockResetRestoresEverything : Prop :=
  ∀ s : State, s.nextEvent = .blockReset →
    ∃ t, step s = .next t ∧ t.sel = false ∧ t.sdn = true ∧ t.cmd = 0 ∧ t.arg0 = 0 ∧ t.arg1 = 0 ∧
      t.statusWord = 0x00000400 ∧ resultWord t.data t.code = 0 ∧ t.rxlen = 0 ∧ t.cfgFreq = 433 ∧ t.cfgBaud = 100 ∧
      t.cfgChannel = 0 ∧ t.cfgSignature = 0 ∧ t.lastModeWord = 0 ∧ t.tick = 0 ∧ (∀ i, bufGet t.databuf i = none) ∧
      t.fsm = .idle ∧ t.busy = false ∧ t.todo = [] ∧ t.next = .idle ∧ t.wait = 0 ∧ t.params = s.params ∧
      t.trace = s.trace ++ [.blockReset]

/-- The registers after reset read as the table of R21 says, and the controller waits at IDLE_WAIT. -/
def Obligations.ResetReadsAsTheTable : Prop :=
  State.reset.cmd = 0 ∧ State.reset.arg0 = 0 ∧ State.reset.arg1 = 0 ∧ State.reset.statusWord = 0x00000400 ∧
  resultWord State.reset.data State.reset.code = 0 ∧ State.reset.rxlen = 0 ∧ State.reset.cfgFreq = 0x1B1 ∧
  State.reset.cfgBaud = 0x64 ∧ State.reset.cfgChannel = 0 ∧ State.reset.cfgSignature = 0 ∧
  State.reset.lastModeWord = 0 ∧ State.reset.tick = 0 ∧ State.reset.next = .idle ∧ State.reset.busy = false

/-! ### The host's accesses -/

/-- With BUSY = 0 a store to CMD latches the word, sets BUSY and makes RESULT.CODE PENDING, the decode ahead; ARG0 and
ARG1 take the stored word, every bit of it (R23, R24, R93). That the decode is a step of its own is the model's choice
(log 24). -/
def Obligations.IdleStoresLatchTheWord : Prop :=
  ∀ (s : State) (w : Word), s.busy = false →
    (s.nextEvent = .host (.store s.params.base 4 w) → step s = .next { s.moved with
      cmd := w, busy := true, code := .pending, todo := [], next := .decode, wait := 0 }) ∧
    (s.nextEvent = .host (.store (s.params.base + 4) 4 w) → step s = .next { s.moved with arg0 := w }) ∧
    (s.nextEvent = .host (.store (s.params.base + 8) 4 w) → step s = .next { s.moved with arg1 := w })

/-- With BUSY = 1 a store to CMD, ARG0, ARG1 or DATABUF is dropped and sets CMD_OVERRUN (R36). -/
def Obligations.BusyStoreIsDropped : Prop :=
  ∀ (s : State) (offset : Nat) (w : Word), offset = 0 ∨ offset = 4 ∨ offset = 8 ∨ (0x100 ≤ offset ∧ offset < 0x200) →
    offset % 4 = 0 → s.nextEvent = .host (.store (s.params.base + offset) 4 w) → s.busy = true →
    step s = .next { s.moved with cmdOverrun := true }

/-- With BUSY = 0 a DATABUF store puts byte lane k of the word at index i + k and leaves every other byte and everything
else alone, and a load of four written bytes reads them lane by lane (R34, R62). -/
def Obligations.BufferWordsAreLittleEndian : Prop :=
  ∀ (s : State) (i : Nat) (w : Word), i % 4 = 0 → i < 256 → s.busy = false →
    (s.nextEvent = .host (.store (s.params.base + (0x100 + i)) 4 w) →
      ∃ t, step s = .next t ∧ t = { s.moved with databuf := t.databuf } ∧
        (∀ k < 4, bufGet t.databuf (i + k) = some (w.extractLsb' (8 * k) 8)) ∧
        (∀ j, j < i ∨ i + 4 ≤ j → bufGet t.databuf j = bufGet s.databuf j)) ∧
    (s.nextEvent = .host (.load (s.params.base + (0x100 + i)) 4) →
      (∀ k < 4, bufGet s.databuf (i + k) = some (w.extractLsb' (8 * k) 8)) →
      step s = .next { s.moved with hostData := w })

/-- Whether or not BUSY is 1, a store to STATUS clears the W1C bits written as 1 and nothing else, and a store to a
read-only or reserved location is ignored (R25, R35, R65). -/
def Obligations.StatusAndReadOnlyStores : Prop :=
  ∀ (s : State) (w : Word),
    (s.nextEvent = .host (.store (s.params.base + 0xC) 4 w) → step s = .next { s.moved with
      busAnomaly := s.busAnomaly && !w.getLsbD 8, cmdOverrun := s.cmdOverrun && !w.getLsbD 9 }) ∧
    ∀ offset, 0x10 ≤ offset → offset < 0x100 → offset % 4 = 0 →
      s.nextEvent = .host (.store (s.params.base + offset) 4 w) → step s = .next s.moved

/-- The fields of STATUS are where R25 puts them, FSM with the values of R37, and its reserved bits read 0. -/
def Obligations.StatusWordHasItsFields : Prop :=
  ∀ s : State, s.statusWord.getLsbD 0 = s.busy ∧
    (s.statusWord.extractLsb' 4 3).toNat = (match s.fsm with
      | .idle => 0 | .transmitting => 1 | .awaitingAck => 2 | .listening => 3 | .resetting => 4) ∧
    s.statusWord.getLsbD 8 = s.busAnomaly ∧ s.statusWord.getLsbD 9 = s.cmdOverrun ∧ s.statusWord.getLsbD 10 = s.sdn ∧
    s.statusWord.getLsbD 11 = s.sel ∧ s.statusWord.extractLsb' 1 3 = 0 ∧ s.statusWord.getLsbD 7 = false ∧
    s.statusWord.extractLsb' 12 20 = 0

/-- With BUSY = 0 a load returns the register and has no other effect, RESULT.CODE with the values of R270; reserved
offsets read 0 (R21 to R33, R35, R65). -/
def Obligations.IdleLoadsReturnTheRegisters : Prop :=
  ∀ (s : State) (offset : Nat) (v : Word), s.busy = false →
    let code : Word := match s.code with
      | .ok => 0x00 | .ignored => 0x01 | .txTimeout => 0x02 | .noPacket => 0x03 | .packet => 0x04 | .porTimeout => 0x05
      | .illegalCmd => 0x10 | .badArg => 0x11 | .calcFault => 0x12 | .pending => 0xFF
    (offset, v) ∈ [(0x000, s.cmd), (0x004, s.arg0), (0x008, s.arg1), (0x00C, s.statusWord),
      (0x010, s.data.setWidth 32 <<< 8 ||| code), (0x014, s.rxlen.setWidth 32),
      (0x018, s.cfgFreq), (0x01C, s.cfgBaud), (0x020, s.cfgChannel.setWidth 32), (0x024, s.cfgSignature.setWidth 32),
      (0x028, flagAt s.modeValid 8 ||| s.modeValue.setWidth 32), (0x02C, s.tick)] ∨
    (0x30 ≤ offset ∧ offset < 0x100 ∧ offset % 4 = 0 ∧ v = 0) →
    s.nextEvent = .host (.load (s.params.base + offset) 4) → step s = .next { s.moved with hostData := v }

/-- With BUSY = 1 STATUS, TICK, CMD, ARG0 and ARG1 still read their values and reserved offsets 0; RESULT.CODE reads PENDING
when it holds it; and a load of RESULT, RXLEN, CFG_*, LAST_MODE or DATABUF has no side effect: it changes what the host reads and
takes an open value, nothing else (R35, R65, R71). That the reserved bits of RESULT read 0 then too is the model's
choice (log 6). -/
def Obligations.BusyLoadsOfLiveRegisters : Prop :=
  ∀ (s : State) (offset : Nat) (v : Word), s.busy = true →
    ((offset, v) ∈ [(0x000, s.cmd), (0x004, s.arg0), (0x008, s.arg1), (0x00C, s.statusWord), (0x02C, s.tick)] ∨
        (0x30 ≤ offset ∧ offset < 0x100 ∧ offset % 4 = 0 ∧ v = 0) →
      s.nextEvent = .host (.load (s.params.base + offset) 4) → step s = .next { s.moved with hostData := v }) ∧
    (s.nextEvent = .host (.load (s.params.base + 0x10) 4) →
      ∃ t, step s = .next t ∧ t = { s.moved with hostData := t.hostData, fresh := t.fresh } ∧
        t.hostData.extractLsb' 0 8 = s.code.toByte ∧ (s.code = .pending → t.hostData.extractLsb' 0 8 = 0xFF) ∧
        t.hostData.extractLsb' 16 16 = 0) ∧
    (offset ∈ [0x014, 0x018, 0x01C, 0x020, 0x024, 0x028] ∨ (0x100 ≤ offset ∧ offset < 0x200 ∧ offset % 4 = 0) →
      s.nextEvent = .host (.load (s.params.base + offset) 4) →
      ∃ t, step s = .next t ∧ t = { s.moved with hostData := t.hostData, fresh := t.fresh })

/-- A byte, halfword or misaligned access that begins in the aperture is refused (R63). That alignment is judged by the
offset from P_BASE is the model's choice (log 28). -/
def Obligations.OtherAccessFormsAreRefused : Prop :=
  ∀ (s : State) (offset size : Nat) (w : Word), offset < 0x200 → 0 < size → size ≠ 4 ∨ offset % 4 ≠ 0 →
    (s.nextEvent = .host (.load (s.params.base + offset) size) → step s = .refused .hostAccessForm) ∧
    (s.nextEvent = .host (.store (s.params.base + offset) size w) → step s = .refused .hostAccessForm)

/-- An access at an offset of 0x200 or more does not reach the block: a store changes nothing, a load changes nothing but
what the host reads (R64). That such a load returns a free value is the model's choice (log 16). -/
def Obligations.OutsideAccessDoesNotReach : Prop :=
  ∀ (s : State) (offset size : Nat) (w : Word), 0x200 ≤ offset →
    (s.nextEvent = .host (.store (s.params.base + offset) size w) → step s = .next s.moved) ∧
    (s.nextEvent = .host (.load (s.params.base + offset) size) →
      ∃ t, step s = .next t ∧ t = { s.moved with hostData := t.hostData, fresh := t.fresh })

/-! ### The register access family -/

/-- A write frame is one window: header `addr | 0x80`, then the bytes, chip-select inactive at its end (R98, R120). -/
def Obligations.BusWriteMakesOneWindow : Prop :=
  ∀ (s : State) (addr : ChipAddr) (sent : List Byte), s.grant = .toWait →
    exec (.busWrite addr sent) s = .next { s with
      sel := false
      trace := s.trace ++ (.select true :: .sent (addr.setWidth 8 ||| 0x80) ::
        (sent.map BusEvent.sent ++ [.select false])) }

/-- A read frame is one window: header `addr & 0x7F`, then one P_READ_DUMMY sent and one answer received per byte
(R98, R121). -/
def Obligations.BusReadMakesOneWindow : Prop :=
  ∀ (s : State) (addr : ChipAddr) (count : Nat), s.grant = .toWait →
    exec (.busRead addr count) s = .next { s with
      sel := false
      rx := s.answersFor count
      answers := s.answers.skip count
      trace := s.trace ++ (.select true :: .sent (addr.setWidth 8 &&& 0x7F) ::
        ((s.answersFor count).map (BusEvent.exchanged s.params.readDummy) ++ [.select false])) }

/-- WRITE_REG writes V = ARG1[7:0] at A = ARG0[7:0] and ends OK; RESULT.DATA, RXLEN, DATABUF and LAST_MODE stay (R95, R124). -/
def Obligations.WriteRegCompletes : Prop :=
  ∀ s : State, s.grant = .toWait →
    exec .writeReg s = .next (State.ended { s with
      sel := false, trace := s.trace ++ writeTrace (s.arg0.extractLsb' 0 8) [s.arg1.extractLsb' 0 8] } .ok)

/-- READ_REG puts the byte read at A = ARG0[7:0] in RESULT.DATA and DATABUF[0], RXLEN = 1, and ends OK (R95, R125). -/
def Obligations.ReadRegCompletes : Prop :=
  ∀ s : State, s.grant = .toWait →
    exec .readReg s = .next (State.ended { s with
      sel := false
      data := s.answerAt 0
      databuf := bufWrite s.databuf 0 [s.answerAt 0]
      rxlen := 1
      rx := [s.answerAt 0]
      answers := s.answers.skip 1
      trace := s.trace ++ readTrace s.params (s.arg0.extractLsb' 0 8) [s.answerAt 0] } .ok)

/-- WRITE_BURST with N = ARG1[8:0] <= 256 sends DATABUF[0..N-1] at A = ARG0[7:0] in one window and ends OK (R95, R126). An
unwritten byte is a draw (R34, log 5). -/
def Obligations.WriteBurstCompletes : Prop :=
  ∀ s : State, s.grant = .toWait →
    let n := (s.arg1.extractLsb' 0 9).toNat
    n ≤ 256 →
    exec .writeBurst s = .next (State.ended { s with
      sel := false
      fresh := (s.bufRead 0 n).2.fresh
      trace := s.trace ++ writeTrace (s.arg0.extractLsb' 0 8) (s.bufRead 0 n).1 } .ok)

/-- READ_BURST with N = ARG1[8:0] <= 256 puts the bytes read at A = ARG0[7:0] in DATABUF[0..N-1], RXLEN = N, and ends OK;
DATABUF[N..255] and RESULT.DATA stay (R95, R127). -/
def Obligations.ReadBurstCompletes : Prop :=
  ∀ s : State, s.grant = .toWait →
    let n := (s.arg1.extractLsb' 0 9).toNat
    n ≤ 256 →
    exec .readBurst s = .next (State.ended { s with
      sel := false
      databuf := bufWrite s.databuf 0 (s.answersFor n)
      rxlen := BitVec.ofNat 9 n
      rx := s.answersFor n
      answers := s.answers.skip n
      trace := s.trace ++ readTrace s.params (s.arg0.extractLsb' 0 8) (s.answersFor n) } .ok)

/-- WRITE_BURST and READ_BURST with N = ARG1[8:0] > 256 end BAD_ARG with no bus event and nothing else changed (R94, R96). -/
def Obligations.TooLongBurstsAreBadArg : Prop :=
  ∀ s : State, s.grant = .toWait → 256 < (s.arg1.extractLsb' 0 9).toNat →
    exec .writeBurst s = .next (s.ended .badArg) ∧ exec .readBurst s = .next (s.ended .badArg)

/-- The bytes a command reads from DATABUF: byte k is what was written last at index k, and if all are written no draw
happens. MemWrite sets the bytes from index 0 and keeps the others. An unwritten byte is a fresh draw at each read, by a
command or by the host with BUSY = 0, the next one for each such byte in index order, and the read writes nothing (R10,
R34; that a draw is the low byte of the tape's next word is the model's choice, log 5). -/
def Obligations.BufferReadsWhatWasWritten : Prop :=
  (∀ (m : List Host.Cell) (d : List Byte) (s : State), d.length ≤ 256 → s.databuf = bufWrite m 0 d →
    s.bufRead 0 d.length = (d, s) ∧ ∀ j, d.length ≤ j → bufGet (bufWrite m 0 d) j = bufGet m j) ∧
  ∀ (s : State) (i : Nat),
    let drawn (k : Nat) : Nat := (List.range k).countP (fun j => (bufGet s.databuf (i + j)).isNone)
    let byteAt (k : Nat) : Byte :=
      (bufGet s.databuf (i + k)).getD (((s.fresh.skip (drawn k)).head Config.freeWord).extractLsb' 0 8)
    (∀ n, s.bufRead i n = ((List.range n).map byteAt, { s with fresh := s.fresh.skip (drawn n) })) ∧
    (i % 4 = 0 → i < 256 → s.busy = false → s.nextEvent = .host (.load (s.params.base + (0x100 + i)) 4) →
      ∃ t, step s = .next t ∧ t = { s.moved with hostData := t.hostData, fresh := s.fresh.skip (drawn 4) } ∧
        ∀ k < 4, t.hostData.extractLsb' (8 * k) 8 = byteAt k)

/-! ### The configuration family -/

/-- FreqEncode in exact rationals: band and carrier are the floor and the rounding of R142. -/
def Obligations.FreqEncodeIsExact : Prop :=
  ∀ f : Nat, 240 ≤ f → f ≤ 930 →
    ∃ hb dv band carrier : Nat, hb = (if 480 ≤ f then 1 else 0) ∧ dv = 10 * (hb + 1) ∧
      (band : ℤ) = ⌊(f : ℚ) / dv - 24⌋ ∧
      (carrier : ℤ) = ⌊((f : ℚ) / dv - 24 - band) * 64000 + 1 / 2⌋ ∧
      freqEncode f = [BitVec.ofNat 8 (0x40 ||| hb <<< 5 ||| (band &&& 0x3F)), BitVec.ofNat 8 (carrier >>> 8),
        BitVec.ofNat 8 (carrier &&& 0xFF)]

/-- SET_FREQUENCY in range sends FreqEncode(F) to REG_FREQBAND, sets CFG_FREQ and ends OK (R151). -/
def Obligations.SetFrequencyCompletes : Prop :=
  ∀ s : State, s.grant = .toWait → 240 ≤ s.arg0.toNat → s.arg0.toNat ≤ 930 →
    exec .setFrequency s = .next (State.ended { s with
      sel := false
      cfgFreq := s.arg0
      trace := s.trace ++ writeTrace (s.params.regs.freqband.setWidth 8) (freqEncode s.arg0.toNat) } .ok)

/-- Out of range SET_FREQUENCY and SET_BAUD_RATE end IGNORED: no bus event, nothing else changed (R140). -/
def Obligations.OutOfRangeSettersAreIgnored : Prop :=
  ∀ s : State, s.grant = .toWait →
    (s.arg0.toNat < 240 ∨ 930 < s.arg0.toNat → exec .setFrequency s = .next (s.ended .ignored)) ∧
    (s.arg0.toNat < 1 ∨ 256 < s.arg0.toNat → exec .setBaudRate s = .next (s.ended .ignored))

/-- SET_SIGNATURE sends high byte then low byte to both header pairs, transmit first, and sets CFG_SIGNATURE;
SET_CHANNEL writes CH and sets CFG_CHANNEL (R152, R153). -/
def Obligations.SetSignatureAndSetChannelComplete : Prop :=
  ∀ s : State, s.grant = .toWait →
    exec .setSignature s = .next (State.ended { s with
      sel := false
      cfgSignature := s.arg0.extractLsb' 0 16
      trace := s.trace ++
        writeTrace (s.params.regs.txHeader3.setWidth 8) [s.arg0.extractLsb' 8 8, s.arg0.extractLsb' 0 8] ++
        writeTrace (s.params.regs.checkHeader3.setWidth 8) [s.arg0.extractLsb' 8 8, s.arg0.extractLsb' 0 8] } .ok) ∧
    exec .setChannel s = .next (State.ended { s with
      sel := false
      cfgChannel := s.arg0.extractLsb' 0 8
      trace := s.trace ++ writeTrace (s.params.regs.channel.setWidth 8) [s.arg0.extractLsb' 0 8] } .ok)

/-- IfLookup picks the first entry whose threshold reaches the request, else the sentinel 0xFF (R150). -/
def Obligations.IfLookupPicksTheFirst : Prop :=
  ∀ (entries : List (Nat × Byte)) (req : Nat),
    (∃ before th v after, entries = before ++ (th, v) :: after ∧ (∀ e ∈ before, e.1 < req) ∧ req ≤ th ∧
      ifLookup entries req = v) ∨
    ((∀ e ∈ entries, e.1 < req) ∧ ifLookup entries req = 0xFF)

/-- The baud values in exact rationals, and the four write lists made of them, for every table and every k in 1..256: the
deviation, the modulation byte, the data rate, the filter byte and its two fields, the oversampling, the oscillator
offset and the gain (R155 to R163). -/
def Obligations.BaudValuesAreExact : Prop :=
  ∀ (table : IfTable) (k : Nat), 1 ≤ k → k ≤ 256 →
    ∃ b, b = baudValues table k ∧
      b.freqDev = (if k ≤ 10 then 15 else 150) ∧ b.modulationByte = (if k < 30 then 0x4C else 0x0C) ∧
      (b.fdReg : ℤ) = ⌊(b.freqDev : ℚ) * 1000 / 625 + 1 / 2⌋ ∧ b.fdReg = (if k ≤ 10 then 24 else 240) ∧
      (b.dataRateReg : ℤ) = ⌊(k : ℚ) * (if k < 30 then 2097152 else 65536) / 1000 + 1 / 2⌋ ∧ b.dataRateReg < 2 ^ 16 ∧
      b.filt = ifLookup table.entries ((2 * b.freqDev + k) * 10) ∧
      b.dwn3Bypass = b.filt.toNat / 128 ∧ b.ndecExp = b.filt.toNat / 16 % 8 ∧
      (b.rxOversampling : ℤ) =
        ⌊500 * (1 + 2 * (b.dwn3Bypass : ℚ)) / ((2 : ℚ) ^ ((b.ndecExp : ℤ) - 3) * k) + 1 / 2⌋ ∧
      (b.ncOffset : ℤ) = ⌈(k : ℚ) * 2 ^ (b.ndecExp + 20) / (500 * (1 + 2 * (b.dwn3Bypass : ℚ)))⌉ ∧
      (b.rxOversampling ≠ 0 →
        b.crGain = min 0x7FF (2 + 65535 * k / (b.rxOversampling * b.freqDev)) ∧
        baudEncode table k = some [[b.modulationByte, 0x23, BitVec.ofNat 8 b.fdReg],
          [BitVec.ofNat 8 (b.dataRateReg / 256), BitVec.ofNat 8 (b.dataRateReg % 256)], [b.filt], timingBurst b])

/-- CALC_FAULT exactly when the oversampling quotient is below one half (R164). -/
def Obligations.CalcFaultIsBelowOneHalf : Prop :=
  ∀ (table : IfTable) (k : Nat), 1 ≤ k → k ≤ 256 →
    (baudEncode table k = none ↔
      500 * (1 + 2 * ((baudValues table k).dwn3Bypass : ℚ)) /
        ((2 : ℚ) ^ (((baudValues table k).ndecExp : ℤ) - 3) * k) < 1 / 2)

/-- The timing burst packs 11 bits of rxOversampling, 20 of ncOffset and 11 of crGain where R165 says; bit 4 of t1 and
bits 7:3 of t4 are 0. -/
def Obligations.TimingBurstPacksItsFields : Prop :=
  ∀ b : BaudValues, ∃ t0 t1 t2 t3 t4 t5 : Byte, timingBurst b = [t0, t1, t2, t3, t4, t5] ∧
    t0.toNat + (t1.toNat / 32) * 256 = b.rxOversampling % 2 ^ 11 ∧
    (t1.toNat % 16) * 2 ^ 16 + t2.toNat * 2 ^ 8 + t3.toNat = b.ncOffset % 2 ^ 20 ∧
    t1.getLsbD 4 = false ∧ t4.toNat * 2 ^ 8 + t5.toNat = b.crGain % 2 ^ 11

/-- SET_BAUD_RATE in range makes the four writes in R166's order, sets CFG_BAUD and ends OK; if its calculation faults it
ends CALC_FAULT with no bus event and CFG_BAUD unchanged (R164, R166). -/
def Obligations.SetBaudRateCompletes : Prop :=
  ∀ s : State, s.grant = .toWait → 1 ≤ s.arg0.toNat → s.arg0.toNat ≤ 256 →
    (∀ (mod rate timing : List Byte) (filt : Byte),
      baudEncode s.params.ifTable s.arg0.toNat = some [mod, rate, [filt], timing] →
      exec .setBaudRate s = .next (State.ended { s with
        sel := false
        baud := baudValues s.params.ifTable s.arg0.toNat
        cfgBaud := s.arg0
        trace := s.trace ++ writeTrace (s.params.regs.modulation1.setWidth 8) mod ++
          writeTrace (s.params.regs.txDatarate1.setWidth 8) rate ++
          writeTrace (s.params.regs.ifFilterBw.setWidth 8) [filt] ++
          writeTrace (s.params.regs.clockRecovery.setWidth 8) timing } .ok)) ∧
    (baudEncode s.params.ifTable s.arg0.toNat = none →
      exec .setBaudRate s = .next (State.ended { s with
        baud := baudValues s.params.ifTable s.arg0.toNat } .calcFault)) ∧
    (baudEncode s.params.ifTable s.arg0.toNat = none ∨
      ∃ mod rate filt timing, baudEncode s.params.ifTable s.arg0.toNat = some [mod, rate, [filt], timing])

/-! ### Mode and FIFO clears -/

/-- SWITCH_MODE writes M, records LAST_MODE, reads the device status once and flags the anomaly on 0x00 or 0xFF; it ends
OK either way (R180, R181). -/
def Obligations.SwitchModeCompletes : Prop :=
  ∀ s : State, s.grant = .toWait →
    exec .switchMode s = .next (State.ended { s with
      sel := false
      modeValue := BitVec.ofNat 8 (s.arg0.toNat % 16)
      modeValid := true
      busAnomaly := s.busAnomaly || (s.answerAt 0 == 0x00 || s.answerAt 0 == 0xFF)
      rx := [s.answerAt 0]
      answers := s.answers.skip 1
      trace := s.trace ++ writeTrace (s.params.regs.state.setWidth 8) [BitVec.ofNat 8 (s.arg0.toNat % 16)] ++
        readTrace s.params (s.params.regs.deviceStatus.setWidth 8) [s.answerAt 0] } .ok)

/-- The three clears write their pattern and then the whole byte 0x00 to REG_OPERATION_CONTROL (R184 to R187). -/
def Obligations.FifoClearsComplete : Prop :=
  ∀ s : State, s.grant = .toWait →
    let cleared (pattern : Byte) : State := State.ended { s with
      sel := false
      trace := s.trace ++ writeTrace (s.params.regs.operationControl.setWidth 8) [pattern] ++
        writeTrace (s.params.regs.operationControl.setWidth 8) [0x00] } .ok
    exec .clearTxFifo s = .next (cleared s.params.clrTx) ∧
    exec .clearRxFifo s = .next (cleared s.params.clrRx) ∧
    exec .clearFifo s = .next (cleared (s.params.clrTx ||| s.params.clrRx))

/-! ### The packet family -/

/-- SEND_PACKET: SendStart with LEN = ARG0[7:0] bytes of DATABUF, and the first poll. Seen at once and without
acknowledgment it ends OK in {READY, TUNE}, FSM IDLE; seen at once with one it enters {READY, TUNE} and goes on as the step
from SENT does; on an idle line, and on an asserted line without the packet-sent bit, it sleeps one tick, FSM
TRANSMITTING, the bound test next (R95, R200, R203, R204, R210). -/
def Obligations.SendPacketCompletes : Prop :=
  ∀ s : State, s.grant = .toWait → 0 < s.params.txTimeout →
    let len : Byte := s.arg0.extractLsb' 0 8
    let started : State := { s with
      sel := false
      fsm := .transmitting
      t0 := s.tick
      rx := [s.answerAt 2]
      modeValue := 0x09
      modeValid := true
      busAnomaly := s.busAnomaly || isAnomaly (s.answerAt 2)
      fresh := (s.bufRead 0 len.toNat).2.fresh
      answers := s.answers.skip 3
      levels := s.levels.advance
      trace := s.trace ++
        sendStartTrace s.params len (s.bufRead 0 len.toNat).1 (s.answerAt 0) (s.answerAt 1) (s.answerAt 2) }
    let polled : State := { started with
      s1 := s.answerAt 3
      rx := [s.answerAt 4]
      answers := s.answers.skip 5
      trace := started.trace ++ [.irq .low] ++ statusTrace s.params (s.answerAt 3) (s.answerAt 4) }
    (s.arg0.getLsbD 8 = false → s.nextLevel = .low → s.answerAt 3 &&& s.params.maskPksent ≠ 0 →
      exec .sendPacket s = .next (State.ended { polled with
        fsm := .idle
        rx := [s.answerAt 5]
        modeValue := 0x03
        busAnomaly := s.busAnomaly || isAnomaly (s.answerAt 2) || isAnomaly (s.answerAt 5)
        answers := s.answers.skip 6
        trace := polled.trace ++ switchModeTrace s.params 0x03 (s.answerAt 5) } .ok)) ∧
    (s.arg0.getLsbD 8 = true → s.nextLevel = .low → s.answerAt 3 &&& s.params.maskPksent ≠ 0 →
      exec .sendPacket s = step { polled with
        todo := [], next := .sendSent, wait := 0
        events := ⟨.controller .toWait :: s.events.script, s.events.used⟩
        rx := [s.answerAt 5]
        modeValue := 0x03
        busAnomaly := s.busAnomaly || isAnomaly (s.answerAt 2) || isAnomaly (s.answerAt 5)
        answers := s.answers.skip 6
        trace := polled.trace ++ switchModeTrace s.params 0x03 (s.answerAt 5) }) ∧
    (s.nextLevel = .low → s.answerAt 3 &&& s.params.maskPksent = 0 →
      exec .sendPacket s = .next { polled with
        todo := [], next := .sendHead, wait := 1, trace := polled.trace ++ [.wait 1] }) ∧
    (s.nextLevel = .high →
      exec .sendPacket s = .next { started with
        todo := [], next := .sendHead, wait := 1, trace := started.trace ++ [.irq .high, .wait 1] })

/-- A send poll at its bound takes no sample: {READY}, one device-status read, both FIFOs cleared if it shows overflow,
TX_TIMEOUT, FSM IDLE (R204, R210). -/
def Obligations.SendPollTimesOut : Prop :=
  ∀ s : State, s.nextEvent = .controller .toWait → s.wait = 0 → s.todo = [] → s.next = .sendHead →
    s.params.txTimeout ≤ (s.tick - s.t0).toNat →
    step s = .next (State.ended { s.moved with
      grant := .toWait
      sel := false
      fsm := .idle
      modeValue := 0x01
      modeValid := true
      busAnomaly := s.busAnomaly || isAnomaly (s.answerAt 0)
      rx := [s.answerAt 1]
      answers := s.answers.skip 2
      trace := s.trace ++ switchModeTrace s.params 0x01 (s.answerAt 0) ++
        readTrace s.params (s.params.regs.deviceStatus.setWidth 8) [s.answerAt 1] ++
        (if s.answerAt 1 &&& s.params.maskOvfl ≠ 0 then clearTrace s.params (s.params.clrTx ||| s.params.clrRx)
         else []) } .txTimeout)

/-- A send poll whose line never asserts ends TX_TIMEOUT after exactly P_TX_TIMEOUT sleeps of one tick, in READY, when each
sleep is one tick of the schedule. Any one poll below its bound, the first or a later one: not seeing the packet-sent bit,
the line idle or asserted without it, it goes back to the bound test after a sleep of one tick; seeing it, it enters
{READY, TUNE} and without acknowledgment ends OK, FSM IDLE, with one goes on as the step from SENT does (R201, R204, R210,
R215). -/
def Obligations.SendNeverSeenTimesOutAtTheBound : Prop :=
  (∀ (s : State) (moves : List Event) (rest : List Level), s.wait = 0 → s.todo = [] → s.next = .sendHead →
    s.t0 = s.tick → s.params.txTimeout < 2 ^ 32 →
    s.events.script =
      (List.replicate s.params.txTimeout [Event.controller .toWait, Event.tick]).flatten ++ .controller .toWait :: moves →
    s.levels.script = List.replicate s.params.txTimeout Level.high ++ rest →
    ∃ t, Host.Core.run Sys2Proof.core (2 * s.params.txTimeout + 1) s = .next t ∧
      t.code = .txTimeout ∧ t.busy = false ∧ t.fsm = .idle ∧ t.modeValue = 0x01 ∧ t.modeValid = true ∧
      t.tick.toNat = (s.tick.toNat + s.params.txTimeout) % 2 ^ 32 ∧ t.events.script = moves ∧ t.levels.script = rest) ∧
  ∀ s : State, s.nextEvent = .controller .toWait → s.wait = 0 → s.todo = [] → s.next = .sendHead →
    (s.tick - s.t0).toNat < s.params.txTimeout →
    let seen : State := { s with
      sel := false
      s1 := s.answerAt 0
      rx := [s.answerAt 2]
      modeValue := 0x03
      modeValid := true
      busAnomaly := s.busAnomaly || isAnomaly (s.answerAt 2)
      answers := s.answers.skip 3
      levels := s.levels.advance
      trace := s.trace ++ [.irq .low] ++ statusTrace s.params (s.answerAt 0) (s.answerAt 1) ++
        switchModeTrace s.params 0x03 (s.answerAt 2) }
    (s.nextLevel = .low → s.answerAt 0 &&& s.params.maskPksent ≠ 0 →
      (s.arg0.getLsbD 8 = false → step s = .next (State.ended { seen.moved with grant := .toWait, fsm := .idle } .ok)) ∧
      (s.arg0.getLsbD 8 = true → step s = step { seen with next := .sendSent })) ∧
    (s.nextLevel = .high → step s = .next { s.moved with
      grant := .toWait, wait := 1, levels := s.levels.advance, trace := s.trace ++ [.irq .high, .wait 1] }) ∧
    (s.nextLevel = .low → s.answerAt 0 &&& s.params.maskPksent = 0 → step s = .next { s.moved with
      grant := .toWait
      sel := false
      wait := 1
      s1 := s.answerAt 0
      rx := [s.answerAt 1]
      answers := s.answers.skip 2
      levels := s.levels.advance
      trace := s.trace ++ [.irq .low] ++ statusTrace s.params (s.answerAt 0) (s.answerAt 1) ++ [.wait 1] })

/-- An acknowledged send after SENT arms reception, FSM AWAITING_ACK, and goes on as the step from the bound test does. With
ACKTO = 0 it ends NO_PACKET without a check, in {READY}, FSM IDLE. Else it makes the first check: with a valid packet the
packet is seen and fetched into DATABUF, RXLEN its length, and it ends PACKET, FSM IDLE; on an idle line it sleeps one
tick, FSM AWAITING_ACK, the bound test next (R200, R206 to R210). -/
def Obligations.AcknowledgedSendFetchesTheBytes : Prop :=
  ∀ s : State, s.nextEvent = .controller .toWait → s.wait = 0 → s.todo = [] → s.next = .sendSent →
    s.arg0.getLsbD 8 = true →
    let n := (s.answerAt 6).toNat
    let bytes := (List.range n).map (fun k => s.answerAt (7 + k))
    step s = step { s with
      sel := false
      fsm := .awaitingAck
      t0 := s.tick
      next := .waitHead .acknowledgment
      rx := [s.answerAt 2]
      modeValue := 0x05
      modeValid := true
      busAnomaly := s.busAnomaly || isAnomaly (s.answerAt 2)
      answers := s.answers.skip 3
      trace := s.trace ++ listenTrace s.params (s.answerAt 0) (s.answerAt 1) (s.answerAt 2) } ∧
    (s.arg1.toNat = 0 → step s = .next (State.ended { s.moved with
      grant := .toWait
      sel := false
      fsm := .idle
      t0 := s.tick
      rx := [s.answerAt 3]
      modeValue := 0x01
      modeValid := true
      busAnomaly := s.busAnomaly || isAnomaly (s.answerAt 2) || isAnomaly (s.answerAt 3)
      answers := s.answers.skip 4
      trace := s.trace ++ listenTrace s.params (s.answerAt 0) (s.answerAt 1) (s.answerAt 2) ++
        switchModeTrace s.params 0x01 (s.answerAt 3) ++ clearTrace s.params s.params.clrRx } .noPacket)) ∧
    (0 < s.arg1.toNat → s.nextLevel = .low → s.answerAt 3 &&& s.params.maskPkvalid ≠ 0 →
      step s = .next (State.ended { s.moved with
      grant := .toWait
      sel := false
      fsm := .idle
      t0 := s.tick
      s1 := s.answerAt 3
      rx := bytes
      databuf := bufWrite s.databuf 0 bytes
      rxlen := BitVec.ofNat 9 n
      modeValue := 0x03
      modeValid := true
      busAnomaly := s.busAnomaly || isAnomaly (s.answerAt 2) || isAnomaly (s.answerAt 5)
      answers := s.answers.skip (7 + n)
      levels := s.levels.advance
      trace := s.trace ++ listenTrace s.params (s.answerAt 0) (s.answerAt 1) (s.answerAt 2) ++ [.irq .low] ++
        statusTrace s.params (s.answerAt 3) (s.answerAt 4) ++ switchModeTrace s.params 0x03 (s.answerAt 5) ++
        readTrace s.params (s.params.regs.rxLen.setWidth 8) [s.answerAt 6] ++
        readTrace s.params (s.params.regs.fifo.setWidth 8) bytes ++ clearTrace s.params s.params.clrRx } .packet)) ∧
    (0 < s.arg1.toNat → s.nextLevel = .high → step s = .next { s.moved with
      grant := .toWait
      sel := false
      fsm := .awaitingAck
      t0 := s.tick
      next := .waitHead .acknowledgment
      wait := 1
      rx := [s.answerAt 2]
      modeValue := 0x05
      modeValid := true
      busAnomaly := s.busAnomaly || isAnomaly (s.answerAt 2)
      answers := s.answers.skip 3
      levels := s.levels.advance
      trace := s.trace ++ listenTrace s.params (s.answerAt 0) (s.answerAt 1) (s.answerAt 2) ++ [.irq .high, .wait 1] })

/-- WAIT_FOR_PACKET arms reception, FSM LISTENING, and goes on as the step from the bound test does. With TO = 0 it ends
NO_PACKET without a check, in {READY}, FSM IDLE. Else it makes the first check: with a valid packet it ends PACKET at
once, FSM IDLE, the chip in {READY, TUNE}; on an idle line it sleeps one tick, FSM LISTENING, the bound test next (R200,
R205 to R207, R211). -/
def Obligations.WaitForPacketCompletes : Prop :=
  ∀ s : State, s.grant = .toWait →
    exec .waitForPacket s = step { s with
      sel := false
      fsm := .listening
      t0 := s.tick
      todo := [], next := .waitHead .waitCommand, wait := 0
      events := ⟨.controller .toWait :: s.events.script, s.events.used⟩
      rx := [s.answerAt 2]
      modeValue := 0x05
      modeValid := true
      busAnomaly := s.busAnomaly || isAnomaly (s.answerAt 2)
      answers := s.answers.skip 3
      trace := s.trace ++ listenTrace s.params (s.answerAt 0) (s.answerAt 1) (s.answerAt 2) } ∧
    (s.arg0.toNat = 0 →
      exec .waitForPacket s = .next (State.ended { s with
        sel := false
        fsm := .idle
        t0 := s.tick
        rx := [s.answerAt 3]
        modeValue := 0x01
        modeValid := true
        busAnomaly := s.busAnomaly || isAnomaly (s.answerAt 2) || isAnomaly (s.answerAt 3)
        answers := s.answers.skip 4
        trace := s.trace ++ listenTrace s.params (s.answerAt 0) (s.answerAt 1) (s.answerAt 2) ++
          switchModeTrace s.params 0x01 (s.answerAt 3) ++ clearTrace s.params s.params.clrRx } .noPacket)) ∧
    (0 < s.arg0.toNat → s.nextLevel = .low → s.answerAt 3 &&& s.params.maskPkvalid ≠ 0 →
      exec .waitForPacket s = .next (State.ended { s with
        sel := false
        fsm := .idle
        t0 := s.tick
        s1 := s.answerAt 3
        rx := [s.answerAt 5]
        modeValue := 0x03
        modeValid := true
        busAnomaly := s.busAnomaly || isAnomaly (s.answerAt 2) || isAnomaly (s.answerAt 5)
        answers := s.answers.skip 6
        levels := s.levels.advance
        trace := s.trace ++ listenTrace s.params (s.answerAt 0) (s.answerAt 1) (s.answerAt 2) ++ [.irq .low] ++
          statusTrace s.params (s.answerAt 3) (s.answerAt 4) ++ switchModeTrace s.params 0x03 (s.answerAt 5) } .packet)) ∧
    (0 < s.arg0.toNat → s.nextLevel = .high →
      exec .waitForPacket s = .next { s with
        sel := false
        fsm := .listening
        t0 := s.tick
        todo := []
        next := .waitHead .waitCommand
        wait := 1
        rx := [s.answerAt 2]
        modeValue := 0x05
        modeValid := true
        busAnomaly := s.busAnomaly || isAnomaly (s.answerAt 2)
        answers := s.answers.skip 3
        levels := s.levels.advance
        trace := s.trace ++ listenTrace s.params (s.answerAt 0) (s.answerAt 1) (s.answerAt 2) ++
          [.irq .high, .wait 1] })

/-- A receive wait whose line never asserts ends NO_PACKET after exactly TO sleeps of one tick, in READY, FSM IDLE, when each
sleep is one tick of the schedule. Of WAIT_FOR_PACKET and of the acknowledgment wait alike, at the first check or a later
one: at the bound no sample is taken and the command ends NO_PACKET; below it an idle line, an asserted line with no bit,
and a CRC error with its recovery each lead back to the bound test after a sleep of one tick, FSM unchanged; a valid
packet ends the command PACKET, FSM IDLE, for the acknowledgment wait with the fetch into DATABUF, RXLEN its length (R200,
R206 to R211, R215). -/
def Obligations.WaitNeverServedTimesOutAtTheBound : Prop :=
  (∀ (s : State) (moves : List Event) (rest : List Level), s.wait = 0 → s.todo = [] → s.next = .waitHead .waitCommand →
    s.t0 = s.tick →
    s.events.script =
      (List.replicate s.arg0.toNat [Event.controller .toWait, Event.tick]).flatten ++ .controller .toWait :: moves →
    s.levels.script = List.replicate s.arg0.toNat Level.high ++ rest →
    ∃ t, Host.Core.run Sys2Proof.core (2 * s.arg0.toNat + 1) s = .next t ∧
      t.code = .noPacket ∧ t.busy = false ∧ t.fsm = .idle ∧ t.modeValue = 0x01 ∧ t.modeValid = true ∧
      t.tick.toNat = (s.tick.toNat + s.arg0.toNat) % 2 ^ 32 ∧ t.events.script = moves ∧ t.levels.script = rest) ∧
  ∀ (s : State) (who : Poller), s.nextEvent = .controller .toWait → s.wait = 0 → s.todo = [] →
    s.next = .waitHead who → who ≠ .once →
    let bound := if who = .waitCommand then s.arg0.toNat else s.arg1.toNat
    let n := (s.answerAt 3).toNat
    let bytes := (List.range n).map (fun k => s.answerAt (4 + k))
    let polled : State := { s.moved with
      grant := .toWait
      sel := false
      s1 := s.answerAt 0
      rx := [s.answerAt 1]
      answers := s.answers.skip 2
      levels := s.levels.advance
      trace := s.trace ++ [.irq .low] ++ statusTrace s.params (s.answerAt 0) (s.answerAt 1) }
    (bound ≤ (s.tick - s.t0).toNat → step s = .next (State.ended { s.moved with
      grant := .toWait
      sel := false
      fsm := .idle
      modeValue := 0x01
      modeValid := true
      busAnomaly := s.busAnomaly || isAnomaly (s.answerAt 0)
      rx := [s.answerAt 0]
      answers := s.answers.skip 1
      trace := s.trace ++ switchModeTrace s.params 0x01 (s.answerAt 0) ++ clearTrace s.params s.params.clrRx }
      .noPacket)) ∧
    ((s.tick - s.t0).toNat < bound →
      (s.nextLevel = .high → step s = .next { s.moved with
        grant := .toWait, wait := 1, levels := s.levels.advance, trace := s.trace ++ [.irq .high, .wait 1] }) ∧
      (s.nextLevel = .low → s.answerAt 0 &&& s.params.maskPkvalid = 0 → s.answerAt 0 &&& s.params.maskCrcerr = 0 →
        step s = .next { polled with wait := 1, trace := polled.trace ++ [.wait 1] }) ∧
      (s.nextLevel = .low → s.answerAt 0 &&& s.params.maskPkvalid = 0 → s.answerAt 0 &&& s.params.maskCrcerr ≠ 0 →
        step s = .next { polled with
          wait := 1
          modeValue := 0x05
          modeValid := true
          busAnomaly := s.busAnomaly || isAnomaly (s.answerAt 2) || isAnomaly (s.answerAt 3)
          rx := [s.answerAt 3]
          answers := s.answers.skip 4
          trace := polled.trace ++ switchModeTrace s.params 0x01 (s.answerAt 2) ++
            clearTrace s.params s.params.clrRx ++ switchModeTrace s.params 0x05 (s.answerAt 3) ++ [.wait 1] }) ∧
      (s.nextLevel = .low → s.answerAt 0 &&& s.params.maskPkvalid ≠ 0 →
        (who = .waitCommand → step s = .next (State.ended { polled with
          fsm := .idle
          modeValue := 0x03
          modeValid := true
          busAnomaly := s.busAnomaly || isAnomaly (s.answerAt 2)
          rx := [s.answerAt 2]
          answers := s.answers.skip 3
          trace := polled.trace ++ switchModeTrace s.params 0x03 (s.answerAt 2) } .packet)) ∧
        (who = .acknowledgment → step s = .next (State.ended { polled with
          fsm := .idle
          databuf := bufWrite s.databuf 0 bytes
          rxlen := BitVec.ofNat 9 n
          modeValue := 0x03
          modeValid := true
          busAnomaly := s.busAnomaly || isAnomaly (s.answerAt 2)
          rx := bytes
          answers := s.answers.skip (4 + n)
          trace := polled.trace ++ switchModeTrace s.params 0x03 (s.answerAt 2) ++
            readTrace s.params (s.params.regs.rxLen.setWidth 8) [s.answerAt 3] ++
            readTrace s.params (s.params.regs.fifo.setWidth 8) bytes ++ clearTrace s.params s.params.clrRx }
          .packet))))

/-- START_LISTENING clears the receive FIFO, enables the two interrupts, flushes the status registers, enters
{RECEIVE, READY} and ends OK with FSM LISTENING (R205, R212). -/
def Obligations.StartListeningCompletes : Prop :=
  ∀ s : State, s.grant = .toWait →
    exec .startListening s = .next (State.ended { s with
      sel := false
      fsm := .listening
      modeValue := 0x05
      modeValid := true
      busAnomaly := s.busAnomaly || isAnomaly (s.answerAt 2)
      rx := [s.answerAt 2]
      answers := s.answers.skip 3
      trace := s.trace ++ clearTrace s.params s.params.clrRx ++
        writeTrace (s.params.regs.intEnable1.setWidth 8) [s.params.ie1Rx] ++
        writeTrace (s.params.regs.intEnable2.setWidth 8) [s.params.ie2Rx] ++
        readTrace s.params (s.params.regs.intStatus1.setWidth 8) [s.answerAt 0] ++
        readTrace s.params (s.params.regs.intStatus2.setWidth 8) [s.answerAt 1] ++
        switchModeTrace s.params 0x05 (s.answerAt 2) } .ok)

/-- IS_PACKET_RECEIVED: on an idle line no bus event and NO_PACKET; on an asserted line the status reads, then the valid
packet path, else the CRC path, else nothing (R207, R213, R275). -/
def Obligations.IsPacketReceivedCompletes : Prop :=
  ∀ s : State, s.grant = .toWait →
    let sampled (l : Level) : State := { s with levels := s.levels.advance, trace := s.trace ++ [.irq l] }
    let polled : State := { sampled .low with
      sel := false
      s1 := s.answerAt 0
      rx := [s.answerAt 1]
      answers := s.answers.skip 2
      trace := (sampled .low).trace ++ statusTrace s.params (s.answerAt 0) (s.answerAt 1) }
    (s.nextLevel = .high → exec .isPacketReceived s = .next ((sampled .high).ended .noPacket)) ∧
    (s.nextLevel = .low → exec .isPacketReceived s = .next (
      if s.answerAt 0 &&& s.params.maskPkvalid ≠ 0 then State.ended { polled with
        fsm := .idle
        modeValue := 0x03
        modeValid := true
        busAnomaly := s.busAnomaly || isAnomaly (s.answerAt 2)
        rx := [s.answerAt 2]
        answers := s.answers.skip 3
        trace := polled.trace ++ switchModeTrace s.params 0x03 (s.answerAt 2) } .packet
      else if s.answerAt 0 &&& s.params.maskCrcerr ≠ 0 then State.ended { polled with
        modeValue := 0x05
        modeValid := true
        busAnomaly := s.busAnomaly || isAnomaly (s.answerAt 2) || isAnomaly (s.answerAt 3)
        rx := [s.answerAt 3]
        answers := s.answers.skip 4
        trace := polled.trace ++ switchModeTrace s.params 0x01 (s.answerAt 2) ++
          clearTrace s.params s.params.clrRx ++ switchModeTrace s.params 0x05 (s.answerAt 3) } .noPacket
      else polled.ended .noPacket))

/-- GET_PACKET_RECEIVED reads the length, that many FIFO bytes into DATABUF from index 0, clears the receive FIFO, sets
RXLEN and ends OK with FSM unchanged (R208, R214). -/
def Obligations.GetPacketReceivedCompletes : Prop :=
  ∀ s : State, s.grant = .toWait →
    let n := (s.answerAt 0).toNat
    let bytes := (List.range n).map (fun k => s.answerAt (1 + k))
    exec .getPacketReceived s = .next (State.ended { s with
      sel := false
      databuf := bufWrite s.databuf 0 bytes
      rxlen := BitVec.ofNat 9 n
      rx := bytes
      answers := s.answers.skip (1 + n)
      trace := s.trace ++ readTrace s.params (s.params.regs.rxLen.setWidth 8) [s.answerAt 0] ++
        readTrace s.params (s.params.regs.fifo.setWidth 8) bytes ++ clearTrace s.params s.params.clrRx } .ok)

/-! ### The bootstrap family -/

/-- BOOT writes the boot table, re-applies the configuration registers, enters {READY} and ends OK, or CALC_FAULT with
the baud writes alone skipped; the configuration registers and SDN stay, FSM is IDLE (R250, R256). -/
def Obligations.BootCompletes : Prop :=
  ∀ s : State, s.grant = .toWait →
    let b := baudValues s.params.ifTable s.cfgBaud.toNat
    exec .boot s = .next (State.ended { s with
      sel := false
      fsm := .idle
      baud := b
      modeValue := 0x01
      modeValid := true
      busAnomaly := s.busAnomaly || isAnomaly (s.answerAt 0)
      rx := [s.answerAt 0]
      answers := s.answers.skip 1
      trace := s.trace ++
        bootTrace s.params s.cfgFreq.toNat b s.cfgChannel s.cfgSignature (s.answerAt 0) }
      (if baudEncode s.params.ifTable s.cfgBaud.toNat = none then .calcFault else .ok))

/-- SOFTWARE_RESET writes the reset bit without a status read, FSM RESETTING, and goes on as the step from the first poll
does; when that poll shows the power-on-reset bit, Boot follows at once (R251, R252, R254, R256). -/
def Obligations.SoftwareResetCompletes : Prop :=
  ∀ s : State, s.grant = .toWait →
    let b := baudValues s.params.ifTable s.cfgBaud.toNat
    (0 < s.params.porSleep → exec .softwareReset s = step { s with
      sel := false
      fsm := .resetting
      polls := 0
      todo := [], next := .porHead, wait := 0
      events := ⟨.controller .toWait :: s.events.script, s.events.used⟩
      modeValue := s.params.stateReset
      modeValid := true
      trace := s.trace ++ writeTrace (s.params.regs.state.setWidth 8) [s.params.stateReset] }) ∧
    (s.answerAt 0 &&& s.params.maskPor ≠ 0 → exec .softwareReset s = .next (State.ended { s with
      sel := false
      fsm := .idle
      polls := 1
      baud := b
      modeValue := 0x01
      modeValid := true
      busAnomaly := s.busAnomaly || isAnomaly (s.answerAt 1)
      rx := [s.answerAt 1]
      answers := s.answers.skip 2
      trace := s.trace ++ writeTrace (s.params.regs.state.setWidth 8) [s.params.stateReset] ++
        readTrace s.params (s.params.regs.intStatus2.setWidth 8) [s.answerAt 0] ++
        bootTrace s.params s.cfgFreq.toNat b s.cfgChannel s.cfgSignature (s.answerAt 1) }
      (if baudEncode s.params.ifTable s.cfgBaud.toNat = none then .calcFault else .ok)))

/-- HARDWARE_RESET powers the chip off, forgets LAST_MODE and waits P_SDN_OFF ticks with FSM RESETTING; after that wait it
releases the pin and waits P_SDN_ON ticks (R253). -/
def Obligations.HardwareResetPowersOff : Prop :=
  (∀ s : State, s.grant = .toWait → 0 < s.params.sdnOff →
    exec .hardwareReset s = .next { s with
      fsm := .resetting
      sdn := true
      modeValue := 0
      modeValid := false
      todo := []
      next := .sdnRelease
      wait := s.params.sdnOff
      trace := s.trace ++ [.sdn true, .wait s.params.sdnOff] }) ∧
  ∀ s : State, s.nextEvent = .controller .toWait → s.wait = 0 → s.todo = [] → s.next = .sdnRelease → 0 < s.params.sdnOn →
    step s = .next { s.moved with
      grant := .toWait
      sdn := false
      next := .porStart
      wait := s.params.sdnOn
      trace := s.trace ++ [.sdn false, .wait s.params.sdnOn] }

/-- The whole HARDWARE_RESET: P_SDN_OFF ticks with the pin active, P_SDN_ON ticks after its release, one poll that shows
the bit, Boot, SDN released and FSM IDLE at the end (R251, R253, R254, R256). -/
def Obligations.HardwareResetRunsToBoot : Prop :=
  ∀ (s : State) (moves : List Event), decodeWord s.cmd = some .hardwareReset →
    s.wait = 0 → s.todo = [] → s.next = .decode → 0 < s.params.sdnOff → 0 < s.params.sdnOn →
    s.answerAt 0 &&& s.params.maskPor ≠ 0 →
    s.events.script = .controller .toWait :: (List.replicate s.params.sdnOff Event.tick ++
      .controller .toWait :: (List.replicate s.params.sdnOn Event.tick ++ .controller .toWait :: moves)) →
    ∃ t, Host.Core.run Sys2Proof.core (s.params.sdnOff + s.params.sdnOn + 3) s = .next t ∧
      t.sdn = false ∧ t.fsm = .idle ∧ t.busy = false ∧ t.modeValue = 0x01 ∧ t.modeValid = true ∧
      t.cfgFreq = s.cfgFreq ∧ t.cfgBaud = s.cfgBaud ∧ t.cfgChannel = s.cfgChannel ∧
      t.cfgSignature = s.cfgSignature ∧
      t.code = (if baudEncode s.params.ifTable s.cfgBaud.toNat = none then .calcFault else .ok) ∧
      t.tick.toNat = (s.tick.toNat + s.params.sdnOff + s.params.sdnOn) % 2 ^ 32 ∧
      t.trace = s.trace ++ [.sdn true, .wait s.params.sdnOff, .sdn false, .wait s.params.sdnOn] ++
        readTrace s.params (s.params.regs.intStatus2.setWidth 8) [s.answerAt 0] ++
        bootTrace s.params s.cfgFreq.toNat (baudValues s.params.ifTable s.cfgBaud.toNat) s.cfgChannel s.cfgSignature
          (s.answerAt 1)

/-- The power-on-reset poll begins with no polls made. Any poll, the first or a later one, that shows the bit is followed by
Boot and its result, FSM IDLE; one that does not, at the limit, ends POR_TIMEOUT without Boot; below it, it sleeps
P_POR_SLEEP (R251, R253, R254, R256). -/
def Obligations.PorPollStopsAtItsLimit : Prop :=
  (∀ s : State, s.nextEvent = .controller .toWait → s.wait = 0 → s.todo = [] → s.next = .porStart →
    0 < s.params.porSleep → step s = step { s with next := .porHead, polls := 0 }) ∧
  ∀ s : State, s.nextEvent = .controller .toWait → s.wait = 0 → s.todo = [] → s.next = .porHead →
    let b := baudValues s.params.ifTable s.cfgBaud.toNat
    let polled : State := { s.moved with
      grant := .toWait
      sel := false
      polls := s.polls + 1
      rx := [s.answerAt 0]
      answers := s.answers.skip 1
      trace := s.trace ++ readTrace s.params (s.params.regs.intStatus2.setWidth 8) [s.answerAt 0] }
    (s.answerAt 0 &&& s.params.maskPor ≠ 0 → step s = .next (State.ended { polled with
      fsm := .idle
      baud := b
      modeValue := 0x01
      modeValid := true
      busAnomaly := s.busAnomaly || isAnomaly (s.answerAt 1)
      rx := [s.answerAt 1]
      answers := s.answers.skip 2
      trace := polled.trace ++ bootTrace s.params s.cfgFreq.toNat b s.cfgChannel s.cfgSignature (s.answerAt 1) }
      (if baudEncode s.params.ifTable s.cfgBaud.toNat = none then .calcFault else .ok))) ∧
    (s.answerAt 0 &&& s.params.maskPor = 0 → ∀ n, s.params.porLimit = some n → n ≤ s.polls + 1 →
      step s = .next (State.ended { polled with fsm := .idle } .porTimeout)) ∧
    (s.answerAt 0 &&& s.params.maskPor = 0 → 0 < s.params.porSleep →
      (s.params.porLimit = none ∨ ∃ n, s.params.porLimit = some n ∧ s.polls + 1 < n) →
      step s = .next { polled with
        wait := s.params.porSleep
        trace := polled.trace ++ [.wait s.params.porSleep] })

/-! ### The whole machine -/

/-- The invariant holds after reset. -/
def Obligations.ResetMeetsTheInvariant : Prop := State.reset.Inv

/-- Every step of every agent keeps it: chip-select is active exactly inside a transaction and no command ends with it
active; BUSY, RESULT.CODE and the phase agree; CFG_FREQ stays in 240..930 and CFG_BAUD in 1..256; DATABUF keeps its
canonical form (R28, R29, R38, R39, R128). -/
def Obligations.EveryStepKeepsTheInvariant : Prop :=
  ∀ s t : State, s.Inv → step s = .next t → t.Inv

/-- In the move that begins it no instruction writes what belongs to the host or the platform, and none takes back a bus
event or the anomaly flag: CMD, ARG0, ARG1, CMD_OVERRUN and TICK (R22 to R24, R33, R36), and, as the model holds them in
State by its own choice, the parameters (log 7) and the word the host read last (log 22). -/
def Obligations.InstructionsKeepTheHostsState : Prop :=
  ∀ (i : Instr) (s t : State), exec i s = .next t →
    t.cmd = s.cmd ∧ t.arg0 = s.arg0 ∧ t.arg1 = s.arg1 ∧ t.cmdOverrun = s.cmdOverrun ∧ t.tick = s.tick ∧
    t.params = s.params ∧ t.hostData = s.hostData ∧ t.events = s.events ∧ s.trace <+: t.trace ∧
    (s.busAnomaly = true → t.busAnomaly = true)

/-- In the move that begins it a command changes no register it is not a writer of: the configuration registers, SDN and
RESULT.DATA have one writer each, DATABUF and RXLEN the commands that read from the chip, LAST_MODE and STATUS.FSM those
of R180 and R252 and of R200. And in a move from a branch inside a command, which is where the commands that wait go on,
the same registers change only from the positions that lead to their writes (R26 to R32, R34, R37, R40). -/
def Obligations.RegistersHaveTheirWriters : Prop :=
  (∀ (i : Instr) (s t : State), isCommand i = true → exec i s = .next t →
    (i ≠ .setFrequency → t.cfgFreq = s.cfgFreq) ∧ (i ≠ .setBaudRate → t.cfgBaud = s.cfgBaud) ∧
    (i ≠ .setChannel → t.cfgChannel = s.cfgChannel) ∧ (i ≠ .setSignature → t.cfgSignature = s.cfgSignature) ∧
    (i ≠ .hardwareReset → t.sdn = s.sdn) ∧ (i ≠ .readReg → t.data = s.data) ∧
    (i ∉ [.readReg, .readBurst, .getPacketReceived] → i ≠ .sendPacket ∨ s.arg0.getLsbD 8 = false →
      t.databuf = s.databuf ∧ t.rxlen = s.rxlen) ∧
    (i ∉ [.switchMode, .sendPacket, .waitForPacket, .startListening, .isPacketReceived, .boot, .softwareReset,
      .hardwareReset] → t.modeValue = s.modeValue ∧ t.modeValid = s.modeValid) ∧
    (i ∉ [.sendPacket, .waitForPacket, .startListening, .isPacketReceived, .boot, .softwareReset, .hardwareReset] →
      t.fsm = s.fsm)) ∧
  ∀ (s t : State) (g : Grant), s.nextEvent = .controller g → s.todo = [] → s.next ≠ .decode → step s = .next t →
    t.cfgFreq = s.cfgFreq ∧ t.cfgChannel = s.cfgChannel ∧ t.cfgSignature = s.cfgSignature ∧ t.data = s.data ∧
    (s.next ≠ .baudDone → t.cfgBaud = s.cfgBaud) ∧
    (s.next ∉ [.sdnOff, .sdnRelease] → t.sdn = s.sdn) ∧
    (s.next ∉ [.fetch false, .fetch true, .waitHead .acknowledgment, .rxSample .acknowledgment,
        .rxStatus .acknowledgment, .pollSleep .acknowledgment] →
      s.next ∉ [.sendHead, .sendSample, .sendStatus, .sendSent] ∨ s.arg0.getLsbD 8 = false →
      t.databuf = s.databuf ∧ t.rxlen = s.rxlen) ∧
    (s.next ∈ [.idle, .baudDone, .fetch false, .fetch true, .sendTimeout] →
      t.modeValue = s.modeValue ∧ t.modeValid = s.modeValid) ∧
    (s.next ∈ [.idle, .baudDone, .fetch false] → t.fsm = s.fsm)

/-- TICK changes by the tick generator and block reset alone, at every step of every agent (R33). -/
def Obligations.OnlyTheGeneratorTicks : Prop :=
  ∀ s t : State, step s = .next t → s.nextEvent ≠ .tick → s.nextEvent ≠ .blockReset → t.tick = s.tick

/-- A move of the controller to the next wait is a number of its single steps, for the move that begins a command and for
every other: the coarse schedule, the model's choice (log 2), adds no behaviour (R20, R69). -/
def Obligations.CoarseMovesAreFineSteps : Prop :=
  (∀ (s : State) (moves : List Event), s.events.script = .controller .toWait :: moves → ∃ (n : Nat) (t : State),
    step s = .next { t with grant := .toWait } ∧
    step { s with events := ⟨.controller (.steps n) :: moves, s.events.used⟩ } = .next { t with grant := .steps n }) ∧
  ∀ (i : Instr) (s : State), s.wait = 0 → ∃ (n : Nat) (t : State),
    exec i { s with grant := .toWait } = .next { t with grant := .toWait } ∧
    exec i { s with grant := .steps n } = .next { t with grant := .steps n }

/-- The bus cost of the procedures, windows and bytes, row by row: the single windows, SET_FREQUENCY, SET_SIGNATURE,
SET_BAUD_RATE, SWITCH_MODE and the clears, START_LISTENING, the four ways of IS_PACKET_RECEIVED, GET_PACKET_RECEIVED, the
parts of SEND_PACKET, and BOOT (R318). -/
def Obligations.BusCostsAreTheTable : Prop :=
  ∀ (p : Params) (a pattern mode : Byte) (d answers : List Byte) (len s1 s2 ds ds' ch : Byte) (sig : BitVec 16) (f : Nat)
    (b : BaudValues),
    let cost (t : List BusEvent) : Nat × Nat := (windowCount t, byteCount t)
    cost (writeTrace a d) = (1, d.length + 1) ∧ cost (readTrace p a answers) = (1, answers.length + 1) ∧
    cost (writeTrace a (freqEncode f)) = (1, 4) ∧ cost (signatureTrace p sig) = (2, 6) ∧ cost (baudTrace p b) = (4, 16) ∧
    cost (switchModeTrace p mode ds) = (2, 4) ∧ cost (clearTrace p pattern) = (2, 4) ∧
    cost (listenTrace p s1 s2 ds) = (8, 16) ∧
    cost [.irq .high] = (0, 0) ∧ cost (.irq .low :: statusTrace p s1 s2) = (2, 4) ∧
    cost (.irq .low :: statusTrace p s1 s2 ++ switchModeTrace p mode ds) = (4, 8) ∧
    cost (.irq .low :: statusTrace p s1 s2 ++ switchModeTrace p mode ds ++ clearTrace p pattern ++
      switchModeTrace p mode ds') = (8, 16) ∧
    cost (readTrace p a [len] ++ readTrace p a answers ++ clearTrace p pattern) = (4, answers.length + 7) ∧
    cost (sendStartTrace p len d s1 s2 ds) = (10, d.length + 19) ∧
    cost (switchModeTrace p mode ds ++ readTrace p a [ds']) = (3, 6) ∧
    cost (switchModeTrace p mode ds ++ readTrace p a [ds'] ++ clearTrace p pattern) = (5, 10) ∧
    (baudFaults b = false → cost (bootTrace p f b ch sig ds) = (p.bootTable.length + 10, 2 * p.bootTable.length + 32))

/-- What a command line means: its operands packed in ARG0 and ARG1, every other bit 0, and its opcode, for every command and
pseudo-command; its three stores, from an idle block, leave the command issued with them; and then the program loads
STATUS until a load shows BUSY = 0. What a `.buf` line means: word stores from offset 0x100 with the bytes in little-endian
order, the rest of a partly covered word 0, and no wait (R90, R95, R102, R103). That the decode of the word is still ahead, as a step of its
own, is the model's choice (log 24), and so is how a program runs beside the schedule's moves: a wait ends only by a load
of STATUS that it made itself, and a move the schedule names leaves what the program has to do alone (log 25). -/
def Obligations.CommandLineIssuesItsCommand : Prop :=
  (∀ (a v len : Byte) (n : BitVec 9) (m : BitVec 4) (sig : BitVec 16) (w : Word),
    (HostLine.writeReg a v).command = some (0#24 ++ a, 0#24 ++ v, 0x01) ∧
    (HostLine.readReg a).command = some (0#24 ++ a, 0, 0x02) ∧
    (HostLine.writeBurst a n).command = some (0#24 ++ a, 0#23 ++ n, 0x03) ∧
    (HostLine.readBurst a n).command = some (0#24 ++ a, 0#23 ++ n, 0x04) ∧
    (HostLine.setFrequency w).command = some (w, 0, 0x10) ∧
    (HostLine.setSignature sig).command = some (0#16 ++ sig, 0, 0x11) ∧
    (HostLine.setChannel a).command = some (0#24 ++ a, 0, 0x12) ∧
    (HostLine.setBaudRate w).command = some (w, 0, 0x13) ∧
    (HostLine.switchMode m).command = some (0#28 ++ m, 0, 0x20) ∧
    (HostLine.sendPacket len none).command = some (0#24 ++ len, 0, 0x30) ∧
    (HostLine.sendPacket len (some w)).command = some (0#23 ++ 1#1 ++ len, w, 0x30) ∧
    (HostLine.waitForPacket w).command = some (w, 0, 0x31) ∧
    HostLine.clearTxFifo.command = some (0, 0, 0x21) ∧ HostLine.clearRxFifo.command = some (0, 0, 0x22) ∧
    HostLine.clearFifo.command = some (0, 0, 0x23) ∧ HostLine.startListening.command = some (0, 0, 0x32) ∧
    HostLine.isPacketReceived.command = some (0, 0, 0x33) ∧ HostLine.getPacketReceived.command = some (0, 0, 0x34) ∧
    HostLine.boot.command = some (0, 0, 0x40) ∧ HostLine.softwareReset.command = some (0, 0, 0x41) ∧
    HostLine.hardwareReset.command = some (0, 0, 0x42) ∧
    HostLine.modeStandby.command = some (0x0, 0, 0x20) ∧ HostLine.modeReady.command = some (0x1, 0, 0x20) ∧
    HostLine.modeTune.command = some (0x3, 0, 0x20) ∧ HostLine.modeRx.command = some (0x5, 0, 0x20) ∧
    HostLine.modeTx.command = some (0x9, 0, 0x20)) ∧
  (∀ (s : State) (line : HostLine) (a0 a1 w : Word) (moves : List Event), line.command = some (a0, a1, w) →
    s.busy = false → s.events.script = (line.stores s.params.base).map Event.host ++ moves →
    Host.Core.run Sys2Proof.core 3 s = .next { s with
      arg0 := a0, arg1 := a1, cmd := w, busy := true, code := .pending, todo := [], next := .decode, wait := 0
      events := ⟨moves, s.events.used⟩ }) ∧
  (∀ (base : Nat) (line : HostLine), line.command ≠ none →
    line.actions base = (line.stores base).map .access ++ [.awaitIdle]) ∧
  (∀ (base : Nat) (bytes : List Byte),
    let stores := (HostLine.buf bytes).stores base
    (HostLine.buf bytes).actions base = stores.map .access ∧ stores.length = (bytes.length + 3) / 4 ∧
    ∀ j < stores.length, ∃ w, stores[j]? = some (.store (base + (0x100 + 4 * j)) 4 w) ∧
      ∀ k < 4, w.extractLsb' (8 * k) 8 = (bytes[4 * j + k]?).getD 0) ∧
  ∀ (c : Session) (rest : List HostAction), c.ahead = .awaitIdle :: rest →
    ((c.status = none ∨ ∃ w, c.status = some w ∧ w.getLsbD 0 = true) → c.hostMove = .next { c with
      machine := { c.machine with hostData := c.machine.statusWord }, status := some c.machine.statusWord }) ∧
    (∀ w, c.status = some w → w.getLsbD 0 = false →
      (rest ≠ [] → c.hostMove = Session.hostMove { c with ahead := rest, status := none }) ∧
      (rest = [] → c.hostMove = .next c)) ∧
    (∀ t, step c.machine = .next t → c.otherMove = .next { c with machine := t })
end

