-- ==== Sys2Proof/Laws/Bus.lean ====
section
/-! SUPPORT. What a bus transaction does, and with it every procedure made of transactions: one lemma per procedure. -/

namespace Sys2Proof.Machine

/-! ### Headers -/

theorem writeHeader_eq (a : Byte) : writeHeader a = a ||| 0x80 := by
  simp only [writeHeader]; revert a; decide

theorem writeHeader_msb (a : Byte) : (writeHeader a).msb = true := by revert a; decide

theorem readHeader_msb (a : Byte) : (readHeader a).msb = false := by revert a; decide

theorem writeHeader_writeHeader (a : Byte) : writeHeader (writeHeader a) = writeHeader a := by revert a; decide

theorem readHeader_readHeader (a : Byte) : readHeader (readHeader a) = readHeader a := by revert a; decide

theorem frameSteps_write (dummy a : Byte) (d : List Byte) :
    frameSteps dummy (writeHeader a) d = writeWindow a d := by
  simp [frameSteps, writeHeader_msb, writeWindow, writeHeader_writeHeader]

theorem frameSteps_read (dummy a : Byte) (d : List Byte) :
    frameSteps dummy (readHeader a) d = readWindow dummy a d.length := by
  simp [frameSteps, readHeader_msb, readWindow, readHeader_readHeader]

/-! ### Tapes -/

theorem Tape.skip_succ {α : Type} (t : Tape α) (n : Nat) : t.skip (n + 1) = (t.skip n).advance := by
  induction n generalizing t with
  | zero => rfl
  | succ n ih => exact ih t.advance

@[simp] theorem Tape.skip_zero {α : Type} (t : Tape α) : t.skip 0 = t := rfl

@[simp] theorem Tape.skip_skip {α : Type} (t : Tape α) (m n : Nat) : (t.skip m).skip n = t.skip (m + n) := by
  induction m generalizing t with
  | zero => simp
  | succ m ih => rw [Nat.succ_add]; exact ih t.advance

theorem Tape.advance_eq_skip {α : Type} (t : Tape α) : t.advance = t.skip 1 := rfl

/-! ### Micro-operations one after another -/

@[simp] theorem State.micros_nil (s : State) : s.micros [] = s := rfl

@[simp] theorem State.micros_cons (s : State) (op : Micro) (ops : List Micro) :
    s.micros (op :: ops) = (s.micro op).micros ops := rfl

@[simp] theorem State.micros_append (s : State) (a b : List Micro) : s.micros (a ++ b) = (s.micros a).micros b := by
  simp [State.micros, List.foldl_append]

@[simp] theorem State.perform_nil (s : State) : s.perform [] = s := rfl

@[simp] theorem State.perform_cons (s : State) (op : Micro) (ops : List Micro) :
    s.perform (op :: ops) = (s.wholeMicro op).perform ops := rfl

@[simp] theorem State.perform_append (s : State) (a b : List Micro) :
    s.perform (a ++ b) = (s.perform a).perform b := by
  simp [State.perform, List.foldl_append]

/-! ### Windows -/

theorem State.micros_send (s : State) (d : List Byte) :
    s.micros (d.map Micro.send) = { s with trace := s.trace ++ d.map BusEvent.sent } := by
  induction d generalizing s with
  | nil => simp
  | cons b d ih =>
    simp only [List.map_cons, State.micros_cons, State.micro, State.busSend, State.emit, ih]
    simp

theorem State.micros_writeWindow (s : State) (a : Byte) (d : List Byte) :
    s.micros (writeWindow a d) = { s with sel := false, trace := s.trace ++ writeTrace a d } := by
  simp [writeWindow, writeTrace, State.micro, State.busSelect, State.busSend, State.emit, State.micros_send]

theorem State.answersFor_succ (s : State) (n : Nat) :
    s.answersFor (n + 1) = s.nextAnswer :: ({ s with answers := s.answers.advance }).answersFor n := by
  simp only [State.answersFor, List.range_succ_eq_map, List.map_cons, List.map_map]
  rfl

/-- The answers ahead depend on the tape of answers alone. -/
theorem State.answersFor_eq (s : State) (n : Nat) :
    s.answersFor n = (List.range n).map (fun k => (s.answers.skip k).head Config.freeAnswer) := rfl

@[simp] theorem State.answersFor_length (s : State) (n : Nat) : (s.answersFor n).length = n := by
  simp [State.answersFor]

theorem State.micros_recv (s : State) (dummy : Byte) (n : Nat) :
    s.micros (List.replicate n (.recv dummy)) =
      { s with rx := s.rx ++ s.answersFor n
               answers := s.answers.skip n
               trace := s.trace ++ (s.answersFor n).map (BusEvent.exchanged dummy) } := by
  induction n generalizing s with
  | zero => simp [State.answersFor]
  | succ n ih =>
    rw [List.replicate_succ, State.micros_cons, ih, State.answersFor_succ]
    simp [State.micro, State.busRecv, State.answersFor, State.answerAt, Tape.skip]

theorem State.micros_readWindow (s : State) (a : Byte) (n : Nat) :
    s.micros (readWindow s.params.readDummy a n) =
      { s with sel := false
               rx := s.answersFor n
               answers := s.answers.skip n
               trace := s.trace ++ readTrace s.params a (s.answersFor n) } := by
  simp [readWindow, readTrace, State.micro, State.busSelect, State.busAsk, State.emit, State.micros_recv,
    State.answersFor, State.answerAt]

/-! ### Procedures -/

/-- `WriteBurst(a, d)` (R120). -/
theorem State.perform_writeBurst (s : State) (a : Byte) (d : List Byte) :
    s.perform (writeBurst a d) = { s with sel := false, trace := s.trace ++ writeTrace a d } := by
  simp [writeBurst, State.wholeMicro, frameSteps_write, State.micros_writeWindow]

/-- `WriteReg(a, v)` (R123). -/
theorem State.perform_writeReg (s : State) (a v : Byte) :
    s.perform (writeReg a v) = { s with sel := false, trace := s.trace ++ writeTrace a [v] } :=
  s.perform_writeBurst a [v]

/-- `ReadBurst(a, n)` (R121). -/
theorem State.perform_readBurst (s : State) (p : Params) (hp : s.params = p) (a : Byte) (n : Nat) :
    s.perform (readBurst p a n) =
      { s with sel := false
               rx := s.answersFor n
               answers := s.answers.skip n
               trace := s.trace ++ readTrace p a (s.answersFor n) } := by
  subst hp
  simp [readBurst, State.wholeMicro, frameSteps_read, State.micros_readWindow]

@[simp] theorem State.answersFor_one (s : State) : s.answersFor 1 = [s.answerAt 0] := rfl

/-- `ReadReg(a)` (R123). -/
theorem State.perform_readReg (s : State) (p : Params) (hp : s.params = p) (a : Byte) :
    s.perform (readReg p a) =
      { s with sel := false
               rx := [s.answerAt 0]
               answers := s.answers.skip 1
               trace := s.trace ++ readTrace p a [s.answerAt 0] } := by
  simp [readReg, State.perform_readBurst, hp]

/-- `SwitchMode(m)` (R180). -/
theorem State.perform_switchMode (s : State) (p : Params) (hp : s.params = p) (m : Byte) :
    s.perform (switchMode p m) =
      { s with sel := false
               modeValue := m
               modeValid := true
               busAnomaly := s.busAnomaly || isAnomaly (s.answerAt 0)
               rx := [s.answerAt 0]
               answers := s.answers.skip 1
               trace := s.trace ++ switchModeTrace p m (s.answerAt 0) } := by
  simp [switchMode, switchModeTrace, State.perform_writeReg, State.perform_readReg, hp, State.wholeMicro,
    State.micro, State.flagAnomaly, State.received, State.answerAt]

/-- A FIFO clear (R184). -/
theorem State.perform_clearWith (s : State) (p : Params) (pattern : Byte) :
    s.perform (clearWith p pattern) = { s with sel := false, trace := s.trace ++ clearTrace p pattern } := by
  simp [clearWith, clearTrace, State.perform_writeReg]

/-- The two enable writes (R203, R205). -/
theorem State.perform_enableInterrupts (s : State) (p : Params) (ie1 ie2 : Byte) :
    s.perform (enableInterrupts p ie1 ie2) = { s with sel := false, trace := s.trace ++ enableTrace p ie1 ie2 } := by
  simp [enableInterrupts, enableTrace, State.perform_writeReg]

/-- The flush of the two status registers (R203, R205). -/
theorem State.perform_flushStatus (s : State) (p : Params) (hp : s.params = p) :
    s.perform (flushStatus p) =
      { s with sel := false
               rx := [s.answerAt 1]
               answers := s.answers.skip 2
               trace := s.trace ++ statusTrace p (s.answerAt 0) (s.answerAt 1) } := by
  simp [flushStatus, statusTrace, State.perform_readReg, hp, State.answerAt]

/-- The two status reads of a poll (R204, R207). -/
theorem State.perform_pollStatus (s : State) (p : Params) (hp : s.params = p) :
    s.perform (pollStatus p) =
      { s with sel := false
               s1 := s.answerAt 0
               rx := [s.answerAt 1]
               answers := s.answers.skip 2
               trace := s.trace ++ statusTrace p (s.answerAt 0) (s.answerAt 1) } := by
  simp [pollStatus, statusTrace, State.perform_readReg, hp, State.wholeMicro, State.micro, State.received,
    State.answerAt]

/-- `StartListening(label)` (R205). -/
theorem State.perform_listen (s : State) (p : Params) (hp : s.params = p) (label : Fsm) :
    s.perform (listen p label) =
      { s with sel := false
               fsm := label
               modeValue := modeByte [.receive, .ready]
               modeValid := true
               busAnomaly := s.busAnomaly || isAnomaly (s.answerAt 2)
               rx := [s.answerAt 2]
               answers := s.answers.skip 3
               trace := s.trace ++ listenTrace p (s.answerAt 0) (s.answerAt 1) (s.answerAt 2) } := by
  simp [listen, listenTrace, clearRx, State.perform_clearWith, State.perform_enableInterrupts, State.wholeMicro,
    State.micro, State.perform_flushStatus, State.perform_switchMode, hp, State.answerAt]

/-- `SendStart(d)` (R203). -/
theorem State.perform_sendStart (s : State) (p : Params) (hp : s.params = p) (len : Byte) (d : List Byte) :
    s.perform (sendStart p len d) =
      { s with sel := false
               modeValue := modeByte [.transmit, .ready]
               modeValid := true
               busAnomaly := s.busAnomaly || isAnomaly (s.answerAt 2)
               rx := [s.answerAt 2]
               answers := s.answers.skip 3
               trace := s.trace ++ sendStartTrace p len d (s.answerAt 0) (s.answerAt 1) (s.answerAt 2) } := by
  simp [sendStart, sendStartTrace, clearTx, State.perform_clearWith, State.perform_enableInterrupts,
    State.perform_writeReg, State.perform_writeBurst, State.perform_flushStatus, State.perform_switchMode, hp,
    State.answerAt]

/-- The signature writes (R152). -/
theorem State.perform_writeSignature (s : State) (p : Params) (sig : BitVec 16) :
    s.perform (writeSignature p sig) = { s with sel := false, trace := s.trace ++ signatureTrace p sig } := by
  simp [writeSignature, signatureTrace, State.perform_writeBurst]

/-- The four baud writes (R166). -/
theorem State.perform_writeBaud (s : State) (p : Params) (b : BaudValues) :
    s.perform (writeBaud p b) = { s with sel := false, trace := s.trace ++ baudTrace p b } := by
  simp [writeBaud, baudTrace, State.perform_writeBurst, State.perform_writeReg]

/-- The boot table's writes (R256). With an empty table there is no window and chip-select keeps its level. -/
theorem State.perform_bootTable (s : State) (table : List (ChipAddr × Byte)) :
    s.perform (table.flatMap (fun row => writeReg (regByte row.1) row.2)) =
      { s with sel := s.sel && table.isEmpty
               trace := s.trace ++ table.flatMap (fun row => writeTrace (regByte row.1) [row.2]) } := by
  induction table generalizing s with
  | nil => simp
  | cons row table ih =>
    rw [List.flatMap_cons, State.perform_append, State.perform_writeReg, ih]
    simp

end Sys2Proof.Machine
end

