-- ==== Sys2Proof/Laws/Calculator.lean ====
section
/-! SUPPORT. The calculator's whole-number roundings are the exact ones of 00_scope.md R9. -/

namespace Sys2Proof.Machine

/-- `round(x) = floor(x + 1/2)` over the rationals. -/
theorem roundDiv_eq_floor (num den : Nat) (hden : 0 < den) :
    (roundDiv num den : ℤ) = ⌊(num : ℚ) / den + 1 / 2⌋ := by
  have h : (num : ℚ) / den + 1 / 2 = ((2 * num + den : ℕ) : ℚ) / ((2 * den : ℕ) : ℚ) := by
    push_cast; field_simp
  rw [h, roundDiv, Rat.floor_natCast_div_natCast]
  rfl

/-- `ceil(x)` over the rationals. -/
theorem ceilDiv_eq_ceil (num den : Nat) (hden : 0 < den) : (ceilDiv num den : ℤ) = ⌈(num : ℚ) / den⌉ := by
  symm
  rw [Int.ceil_eq_iff]
  have hd : (0 : ℚ) < den := by exact_mod_cast hden
  have h1 : den * ceilDiv num den ≤ num + den - 1 := Nat.mul_div_le _ _
  have h2 : num + den - 1 < den * (ceilDiv num den + 1) := by
    rw [Nat.mul_comm]; exact Nat.lt_mul_of_div_lt (Nat.lt_succ_self _) hden
  constructor
  · rw [lt_div_iff₀ hd]
    have : den * ceilDiv num den < num + den := by omega
    have hq : (den : ℚ) * (ceilDiv num den : ℚ) < num + den := by exact_mod_cast this
    push_cast
    nlinarith
  · rw [div_le_iff₀ hd]
    have : num ≤ den * ceilDiv num den := by
      rw [Nat.mul_add, Nat.mul_one] at h2; omega
    have hq : (num : ℚ) ≤ (den : ℚ) * (ceilDiv num den : ℚ) := by exact_mod_cast this
    push_cast
    linarith

theorem gapEntries_lookup (gaps : List (Nat × Byte)) : (IfTable.ofGaps gaps).entries = gapEntries 0 gaps := rfl

/-- Every ascending table has gaps: the free gaps of Config stand for every table R150 allows. -/
theorem exists_gaps (base : Nat) (entries : List (Nat × Byte)) (h : ascending entries = true)
    (hb : ∀ e ∈ entries.head?, base ≤ e.1) : ∃ gaps, gapEntries base gaps = entries := by
  induction entries generalizing base with
  | nil => exact ⟨[], rfl⟩
  | cons e rest ih =>
    obtain ⟨t, v⟩ := e
    have hbt : base ≤ t := hb (t, v) (by simp)
    obtain ⟨gaps, hg⟩ := ih t
      (by cases rest with
          | nil => rfl
          | cons e' rest' => simp only [ascending, Bool.and_eq_true] at h; exact h.2)
      (by cases rest with
          | nil => simp
          | cons e' rest' =>
            simp only [ascending, Bool.and_eq_true, decide_eq_true_eq] at h
            intro e he
            simp only [List.head?_cons, Option.mem_def, Option.some.injEq] at he
            rw [← he]; exact h.1)
    refine ⟨(t - base, v) :: gaps, ?_⟩
    have : base + (t - base) = t := by omega
    simp [gapEntries, this, hg]

/-- A table is the table of some gaps. -/
theorem IfTable.exists_ofGaps (t : IfTable) : ∃ gaps, IfTable.ofGaps gaps = t := by
  obtain ⟨gaps, hg⟩ := exists_gaps 0 t.entries t.sorted (fun _ _ => Nat.zero_le _)
  refine ⟨gaps, ?_⟩
  cases t
  simp only [IfTable.ofGaps, IfTable.mk.injEq]
  exact hg

/-- A rounded quotient is 0 exactly below one half (R164). -/
theorem roundDiv_eq_zero (num den : Nat) (hden : 0 < den) : roundDiv num den = 0 ↔ 2 * num < den := by
  rw [roundDiv, Nat.div_eq_zero_iff]
  omega

end Sys2Proof.Machine
end

