-- ==== Sys2Proof/Laws/Memory.lean ====
section
/-! SUPPORT. DATABUF: read after write, and every write keeps the canonical form. -/

namespace Sys2Proof.Machine

theorem bufGet_bufInsert (m : List Host.Cell) (i j : Nat) (v : Byte) :
    bufGet (bufInsert m i v) j = if j = i then some v else bufGet m j := by
  induction m with
  | nil => simp [bufInsert, bufGet]
  | cons c rest ih =>
    obtain ⟨k, u⟩ := c
    simp only [bufInsert]
    split
    · simp [bufGet]
    · split
      · subst i; simp only [bufGet]; split <;> simp_all
      · simp only [bufGet, ih]
        split
        · have : j ≠ i := by omega
          simp [this]
        · rfl

theorem bufGet_bufSet (m : List Host.Cell) (i j : Nat) (v : Byte) (hi : i < Config.databufSize) :
    bufGet (bufSet m i v) j = if j = i then some v else bufGet m j := by
  rw [bufSet, if_pos hi, bufGet_bufInsert]

/-- Every index of a list that begins above `i` and rises is above `i`. -/
theorem rising_cons_bufInsert (m : List Host.Cell) (c : Host.Cell) (i : Nat) (v : Byte) (hc : c.1 < i)
    (hm : rising (c :: m) = true) : rising (c :: bufInsert m i v) = true := by
  induction m generalizing c with
  | nil => simp [bufInsert, rising, hc]
  | cons d rest ih =>
    obtain ⟨k, u⟩ := d
    simp only [rising, Bool.and_eq_true, decide_eq_true_eq] at hm
    simp only [bufInsert]
    split
    · next h => simp [rising, hc, h, hm.2]
    · split
      · next h =>
        subst h
        simp only [rising, Bool.and_eq_true, decide_eq_true_eq, hm.1, true_and]
        cases rest with
        | nil => rfl
        | cons e rest => simpa [rising] using hm.2
      · next h1 h2 =>
        have hk : k < i := by omega
        simp only [rising, Bool.and_eq_true, decide_eq_true_eq, hm.1, true_and]
        exact ih (k, u) hk hm.2

theorem rising_bufInsert (m : List Host.Cell) (i : Nat) (v : Byte) (hm : rising m = true) :
    rising (bufInsert m i v) = true := by
  cases m with
  | nil => rfl
  | cons c rest =>
    obtain ⟨k, u⟩ := c
    simp only [bufInsert]
    split
    · next h => simp [rising, h, hm]
    · split
      · next h =>
        subst h
        cases rest with
        | nil => rfl
        | cons e rest => simpa [rising] using hm
      · next h1 h2 => exact rising_cons_bufInsert rest (k, u) i v (by simp only; omega) hm

theorem all_bufInsert (m : List Host.Cell) (i : Nat) (v : Byte) (hi : i < Config.databufSize)
    (hm : m.all (fun c => c.1 < Config.databufSize) = true) :
    (bufInsert m i v).all (fun c => c.1 < Config.databufSize) = true := by
  induction m with
  | nil => simp [bufInsert, hi]
  | cons c rest ih =>
    obtain ⟨k, u⟩ := c
    simp only [List.all_cons, Bool.and_eq_true, decide_eq_true_eq] at hm
    simp only [bufInsert]
    split
    · simp [hi, hm.1]; simpa using hm.2
    · split
      · simp [hi]; simpa using hm.2
      · simp only [List.all_cons, Bool.and_eq_true, decide_eq_true_eq]
        exact ⟨hm.1, ih hm.2⟩

/-- A byte write keeps the canonical form. -/
theorem Memory.wf_bufSet (m : List Host.Cell) (i : Nat) (v : Byte) (hm : Memory.wf m = true) :
    Memory.wf (bufSet m i v) = true := by
  simp only [Memory.wf, Bool.and_eq_true] at hm ⊢
  rw [bufSet]
  split
  · next hi => exact ⟨rising_bufInsert m i v hm.1, all_bufInsert m i v hi hm.2⟩
  · exact hm

/-- `MemWrite` keeps the canonical form. -/
theorem Memory.wf_bufWrite (m : List Host.Cell) (i : Nat) (d : List Byte) (hm : Memory.wf m = true) :
    Memory.wf (bufWrite m i d) = true := by
  induction d generalizing m i with
  | nil => exact hm
  | cons v rest ih => exact ih _ _ (Memory.wf_bufSet m i v hm)

/-- `MemWrite(i, n, d)` sets the bytes `i` to `i + n - 1` and leaves every other byte alone. -/
theorem bufGet_bufWrite (m : List Host.Cell) (i j : Nat) (d : List Byte) (hd : i + d.length ≤ Config.databufSize) :
    bufGet (bufWrite m i d) j = if i ≤ j ∧ j < i + d.length then d[j - i]? else bufGet m j := by
  induction d generalizing m i with
  | nil => simp [bufWrite]
  | cons v rest ih =>
    simp only [List.length_cons] at hd
    rw [bufWrite, ih _ _ (by omega), bufGet_bufSet _ _ _ _ (by omega)]
    simp only [List.length_cons]
    by_cases h1 : i + 1 ≤ j ∧ j < i + 1 + rest.length
    · rw [if_pos h1, if_pos (by omega)]
      have : j - i = (j - (i + 1)) + 1 := by omega
      rw [this, List.getElem?_cons_succ]
    · rw [if_neg h1]
      by_cases h2 : j = i
      · subst h2; simp
      · rw [if_neg h2, if_neg (by omega)]

/-- Reading changes nothing but the tape of open reads. -/
theorem State.bufRead_state (s : State) (i n : Nat) :
    ∃ k, (s.bufRead i n).2 = { s with fresh := s.fresh.skip k } := by
  induction n generalizing s i with
  | zero => exact ⟨0, rfl⟩
  | succ n ih =>
    simp only [State.bufRead]
    split
    · exact ih s (i + 1)
    · obtain ⟨k, hk⟩ := ih { s with fresh := s.fresh.advance } (i + 1)
      exact ⟨k + 1, by rw [hk]; rfl⟩

@[simp] theorem State.bufRead_length (s : State) (i n : Nat) : (s.bufRead i n).1.length = n := by
  induction n generalizing s i with
  | zero => rfl
  | succ n ih =>
    simp only [State.bufRead]
    split <;> simp [ih]

/-- Bytes that are all written read as what was written, and no open read happens. -/
theorem State.bufRead_written (s : State) (i : Nat) (d : List Byte)
    (h : ∀ k, k < d.length → bufGet s.databuf (i + k) = d[k]?) : s.bufRead i d.length = (d, s) := by
  induction d generalizing i with
  | nil => rfl
  | cons v rest ih =>
    have h0 := h 0 (by simp)
    simp only [Nat.add_zero, List.getElem?_cons_zero] at h0
    have hr := ih (i + 1) (fun k hk => by
      have := h (k + 1) (by simpa using hk)
      rw [List.getElem?_cons_succ] at this
      rw [← this]; congr 1; omega)
    simp only [List.length_cons, State.bufRead, h0, hr]

/-- Reading `n` bytes from `i`, all of it: a written byte is what was written, an unwritten one the next draw in index
order, and the tape moves on by the number of unwritten bytes (R10, R34). -/
theorem State.bufRead_eq (s : State) (i n : Nat) :
    let drawn (k : Nat) : Nat := (List.range k).countP fun j => (bufGet s.databuf (i + j)).isNone
    s.bufRead i n =
      ((List.range n).map fun k =>
          (bufGet s.databuf (i + k)).getD (((s.fresh.skip (drawn k)).head Config.freeWord).extractLsb' 0 8),
        { s with fresh := s.fresh.skip (drawn n) }) := by
  induction n generalizing s i with
  | zero => rfl
  | succ n ih =>
    have r : ∀ k, (List.range (k + 1)).countP (fun j => (bufGet s.databuf (i + j)).isNone) =
        (if (bufGet s.databuf i).isNone then 1 else 0) +
          (List.range k).countP fun j => (bufGet s.databuf (i + 1 + j)).isNone := by
      intro k
      rw [List.range_succ_eq_map, List.countP_cons, List.countP_map]
      simp only [Nat.add_zero, Function.comp_def, Nat.add_succ, Nat.succ_add, Nat.add_comm]
    simp only [State.bufRead]
    rw [r, List.range_succ_eq_map, List.map_cons, List.map_map]
    cases hb : bufGet s.databuf i with
    | some v =>
      simp only [hb, Option.isNone_some, Bool.false_eq_true, if_false, Nat.zero_add] at r
      simp [ih, r, Function.comp_def, Nat.add_right_comm i 1, ← Nat.add_assoc]
    | none =>
      simp only [hb, Option.isNone_none, if_true] at r
      simp [ih, r, Function.comp_def, Nat.add_right_comm i 1, ← Nat.add_assoc, State.nextFresh, Nat.add_comm 1,
        Tape.skip]

/-- Lane `k` of the word of four bytes is byte `k` (R62). -/
theorem wordOfBytes_lane (a b c d : Byte) (k : Nat) (hk : k < 4) :
    (wordOfBytes [a, b, c, d]).extractLsb' (8 * k) 8 = [a, b, c, d].getD k 0 := by
  rcases (by omega : k = 0 ∨ k = 1 ∨ k = 2 ∨ k = 3) with rfl | rfl | rfl | rfl
  all_goals
    apply BitVec.eq_of_toNat_eq
    simp only [wordOfBytes, BitVec.extractLsb'_toNat, BitVec.toNat_append, Nat.shiftRight_eq_div_pow]
    rw [← Nat.shiftLeft_add_eq_or_of_lt c.isLt, ← Nat.shiftLeft_add_eq_or_of_lt b.isLt,
      ← Nat.shiftLeft_add_eq_or_of_lt a.isLt]
    simp only [Nat.shiftLeft_eq, List.getD_cons_zero, List.getD_cons_succ]
    have := a.isLt
    have := b.isLt
    have := c.isLt
    have := d.isLt
    omega

end Sys2Proof.Machine
end

