-- ==== Sys2Proof/Laws/Run.lean ====
section
/-! SUPPORT. A controller move is a number of controller steps, however far it goes: what every step keeps, every move
keeps. -/

namespace Sys2Proof.Machine

/-- The operation is a frame, whose steps go in front of what is left. -/
def Micro.isFrame : Micro → Bool
  | .frame _ _ => true
  | _ => false

theorem State.setTodo_self (s : State) (l : List Micro) (h : s.todo = l) : ({ s with todo := l } : State) = s := by
  subst h; rfl

theorem State.micro_setTodo (s : State) (op : Micro) (h : op.isFrame = false) (rest : List Micro) :
    ({ s with todo := rest }).micro op = { s.micro op with todo := rest } := by
  cases op <;> first | rfl | simp [Micro.isFrame] at h

theorem State.micro_todo (s : State) (op : Micro) (h : op.isFrame = false) : (s.micro op).todo = s.todo := by
  cases op <;> first | rfl | simp [Micro.isFrame] at h

@[simp] theorem State.micro_wait (s : State) (op : Micro) : (s.micro op).wait = s.wait := by
  cases op <;> rfl

@[simp] theorem State.micro_params (s : State) (op : Micro) : (s.micro op).params = s.params := by
  cases op <;> rfl

theorem State.micros_wait (s : State) (ops : List Micro) : (s.micros ops).wait = s.wait := by
  induction ops generalizing s with
  | nil => rfl
  | cons op ops ih => rw [State.micros_cons, ih, State.micro_wait]

theorem State.micros_todo (ops : List Micro) (s : State) (h : ∀ op ∈ ops, op.isFrame = false) :
    (s.micros ops).todo = s.todo := by
  induction ops generalizing s with
  | nil => rfl
  | cons op ops ih =>
    rw [State.micros_cons, ih _ (fun o ho => h o (List.mem_cons_of_mem _ ho)),
      s.micro_todo op (h op (List.mem_cons_self ..))]

theorem frameSteps_noFrame (dummy header : Byte) (sent : List Byte) :
    ∀ op ∈ frameSteps dummy header sent, op.isFrame = false := by
  intro op hop
  simp only [frameSteps, writeWindow, readWindow] at hop
  split at hop
  · simp only [List.mem_cons, List.mem_append, List.mem_map, List.not_mem_nil, or_false] at hop
    rcases hop with rfl | rfl | ⟨b, -, rfl⟩ | rfl <;> rfl
  · simp only [List.mem_cons, List.mem_append, List.mem_replicate, List.not_mem_nil, or_false] at hop
    rcases hop with rfl | rfl | ⟨-, rfl⟩ | rfl <;> rfl

/-! ### Steps in a row -/

theorem State.ctlSteps_add (s : State) (m n : Nat) : s.ctlSteps (m + n) = (s.ctlSteps m).ctlSteps n := by
  induction m generalizing s with
  | zero => rw [Nat.zero_add]; rfl
  | succ m ih => rw [Nat.succ_add]; exact ih s.ctlStep

theorem State.ctlStep_cons (s : State) (hw : s.wait = 0) (op : Micro) (rest : List Micro) :
    ({ s with todo := op :: rest }).ctlStep = ({ s with todo := rest }).micro op := by
  simp [State.ctlStep, hw]

/-- Operations without a frame are one step each. -/
theorem State.ctlSteps_micros (s : State) (hw : s.wait = 0) (ops rest : List Micro)
    (h : ∀ op ∈ ops, op.isFrame = false) :
    ({ s with todo := ops ++ rest }).ctlSteps ops.length = { s.micros ops with todo := rest } := by
  induction ops generalizing s with
  | nil => rfl
  | cons op ops ih =>
    have hop := h op (List.mem_cons_self ..)
    rw [List.cons_append, List.length_cons]
    show (({ s with todo := op :: (ops ++ rest) } : State).ctlStep).ctlSteps ops.length = _
    rw [s.ctlStep_cons hw, s.micro_setTodo op hop]
    exact ih (s.micro op) (by simp [hw]) (fun o ho => h o (List.mem_cons_of_mem _ ho))

theorem State.wholeMicro_wait (s : State) (op : Micro) : (s.wholeMicro op).wait = s.wait := by
  cases op <;> first | rfl | exact s.micros_wait _

/-- An operation with its whole window is some number of steps. -/
theorem State.ctlSteps_wholeMicro (s : State) (hw : s.wait = 0) (op : Micro) (rest : List Micro) :
    ∃ k, ({ s with todo := op :: rest }).ctlSteps k = { s.wholeMicro op with todo := rest } := by
  by_cases hop : op.isFrame = false
  · refine ⟨1, ?_⟩
    show ({ s with todo := op :: rest } : State).ctlStep = _
    rw [s.ctlStep_cons hw, s.micro_setTodo op hop]
    cases op <;> first | rfl | simp [Micro.isFrame] at hop
  · obtain ⟨header, sent, rfl⟩ : ∃ header sent, op = .frame header sent := by
      cases op <;> simp [Micro.isFrame] at hop ⊢
    refine ⟨1 + (frameSteps s.params.readDummy header sent).length, ?_⟩
    rw [State.ctlSteps_add]
    show ((({ s with todo := .frame header sent :: rest } : State).ctlStep).ctlSteps _) = _
    rw [s.ctlStep_cons hw]
    exact s.ctlSteps_micros hw _ rest (frameSteps_noFrame _ _ _)

/-- A block's operations are some number of steps. -/
theorem State.ctlSteps_perform (s : State) (hw : s.wait = 0) (ops rest : List Micro) :
    ∃ k, ({ s with todo := ops ++ rest }).ctlSteps k = { s.perform ops with todo := rest } := by
  induction ops generalizing s with
  | nil => exact ⟨0, rfl⟩
  | cons op ops ih =>
    obtain ⟨k, hk⟩ := s.ctlSteps_wholeMicro hw op (ops ++ rest)
    obtain ⟨k', hk'⟩ := ih (s.wholeMicro op) (by rw [s.wholeMicro_wait, hw])
    exact ⟨k + k', by rw [List.cons_append, State.ctlSteps_add, hk, hk']; rfl⟩

theorem State.perform_wait (s : State) (ops : List Micro) : (s.perform ops).wait = s.wait := by
  induction ops generalizing s with
  | nil => rfl
  | cons op ops ih => rw [State.perform_cons, ih, State.wholeMicro_wait]

theorem State.wholeMicro_todo (s : State) (op : Micro) : (s.wholeMicro op).todo = s.todo := by
  cases op with
  | frame header sent => exact State.micros_todo _ s (frameSteps_noFrame _ _ _)
  | _ => rfl

theorem State.perform_todo (s : State) (ops : List Micro) : (s.perform ops).todo = s.todo := by
  induction ops generalizing s with
  | nil => rfl
  | cons op ops ih => rw [State.perform_cons, ih, State.wholeMicro_todo]

/-- A block is some number of steps, at least the branch after it. -/
theorem State.runBlock_eq_ctlSteps (s : State) (hw : s.wait = 0) : ∃ k, s.runBlock = s.ctlSteps (k + 1) := by
  obtain ⟨k, hk⟩ := ({ s with todo := [] } : State).ctlSteps_perform hw s.todo []
  have ht : (({ s with todo := [] } : State).perform s.todo).todo = [] := State.perform_todo _ _
  have hww : (({ s with todo := [] } : State).perform s.todo).wait = 0 := by rw [State.perform_wait]; exact hw
  refine ⟨k, ?_⟩
  rw [State.ctlSteps_add]
  have hs : ({ ({ s with todo := [] } : State) with todo := s.todo ++ [] } : State) = s :=
    s.setTodo_self _ (List.append_nil _).symm
  rw [hs] at hk
  rw [hk, State.setTodo_self _ _ ht]
  show s.runBlock = (({ s with todo := [] } : State).perform s.todo).ctlStep
  simp [State.ctlStep, hww, ht, State.runBlock]

theorem State.runBlocks_eq_ctlSteps (s : State) (n : Nat) : ∃ k, s.runBlocks n = s.ctlSteps k := by
  induction n generalizing s with
  | zero => exact ⟨0, rfl⟩
  | succ n ih =>
    by_cases hw : s.wait = 0
    · obtain ⟨k, hk⟩ := s.runBlock_eq_ctlSteps hw
      obtain ⟨k', hk'⟩ := ih s.runBlock
      exact ⟨k + 1 + k', by rw [State.runBlocks, if_pos hw, hk', hk, ← State.ctlSteps_add]⟩
    · exact ⟨0, by rw [State.runBlocks, if_neg hw]; rfl⟩

/-- A move is some number of steps. -/
theorem State.run_eq_ctlSteps (s : State) : ∃ k, s.run = s.ctlSteps k := by
  unfold State.run
  split
  · exact s.runBlocks_eq_ctlSteps _
  · exact ⟨_, rfl⟩

theorem State.ctlSteps_keeps (P : State → Prop) (h : ∀ s, P s → P s.ctlStep) (n : Nat) :
    ∀ s : State, P s → P (s.ctlSteps n) := by
  induction n with
  | zero => exact fun s hs => hs
  | succ n ih => exact fun s hs => ih _ (h s hs)

/-- What every controller step keeps, every move of the controller keeps. -/
theorem State.run_keeps (P : State → Prop) (h : ∀ s, P s → P s.ctlStep) (s : State) (hs : P s) : P s.run := by
  obtain ⟨k, hk⟩ := s.run_eq_ctlSteps
  rw [hk]
  exact State.ctlSteps_keeps P h k s hs

/-- What every controller step keeps holds after a transaction, if it holds with its steps in front. -/
theorem State.transact_keeps (P : State → Prop) (h : ∀ s, P s → P s.ctlStep) (s : State) (hw : s.wait = 0)
    (window : List Micro) (hf : ∀ op ∈ window, op.isFrame = false)
    (hs : P { s with todo := window ++ s.todo }) : P (s.transact window) := by
  unfold State.transact
  split
  · have hk := s.ctlSteps_micros hw window s.todo hf
    rw [State.setTodo_self _ _ (State.micros_todo window s hf)] at hk
    rw [← hk]
    exact State.ctlSteps_keeps P h _ _ hs
  · exact State.ctlSteps_keeps P h _ _ hs

/-! ### A move to the next wait, block by block -/

theorem State.runBlocks_blocked (s : State) (n : Nat) (hw : s.wait ≠ 0) : s.runBlocks n = s := by
  cases n with
  | zero => rfl
  | succ n => simp [State.runBlocks, hw]

theorem State.runBlocks_idle (s : State) (n : Nat) (ht : s.todo = []) (hn : s.next = .idle) :
    s.runBlocks n = s := by
  induction n with
  | zero => rfl
  | succ n ih =>
    rw [State.runBlocks]
    split
    · have hb : s.runBlock = s := by
        rw [State.runBlock, ht, State.perform_nil, s.setTodo_self _ ht, State.enter, hn]
      rw [hb, ih]
    · rfl

end Sys2Proof.Machine
end

