-- ==== Sys2Proof/Laws/Phases.lean ====
section
/-! SUPPORT. The branches of the procedures, one lemma per outcome, and the blocks of a move one at a time. -/

namespace Sys2Proof.Machine

/-! ### Blocks -/

theorem State.run_toWait (s : State) (h : s.grant = .toWait) : s.run = s.runBlocks blocksPerMove := by
  simp [State.run, h]

theorem State.runBlocks_succ (s : State) (n : Nat) (hw : s.wait = 0) :
    s.runBlocks (n + 1) = s.runBlock.runBlocks n := by
  simp [State.runBlocks, hw]

/-- With nothing left before the branch, a block is the branch. -/
theorem State.runBlock_enter (s : State) (ht : s.todo = []) : s.runBlock = s.enter := by
  rw [State.runBlock, ht, State.perform_nil, s.setTodo_self _ ht]

/-- A block that `goOn` set up. -/
theorem State.goOn_runBlocks (s : State) (ops : List Micro) (l : Label) (n : Nat) (hw : s.wait = 0) :
    (s.goOn ops l).runBlocks (n + 1) = ((s.goOn [] l).perform ops).enter.runBlocks n :=
  State.runBlocks_succ (s.goOn ops l) n hw

/-! ### How many blocks a move makes -/

/-- The controller's move is over: a wait blocks it, or it stands at IDLE_WAIT or before a decode. -/
def State.Settled (s : State) : Prop := s.wait ≠ 0 ∨ s.todo = [] ∧ (s.next = .idle ∨ s.next = .decode)

/-- Blocks from a position to where the move is over, if P_POR_SLEEP is not 0. -/
def Label.blocks : Label → Nat
  | .idle | .decode | .pollSleep _ => 1
  | .baudDone | .bootBaud | .sendTimeout | .fetch _ => 2
  | .rxStatus _ | .porTest => 3
  | .rxSample _ | .porHead => 4
  | .waitHead _ | .porStart => 5
  | .sendSent | .sdnOn => 6
  | .sendStatus | .sdnRelease => 7
  | .sendSample | .sdnOff => 8
  | .sendHead => 9

theorem State.runBlocks_settled (s : State) (n : Nat) (h : s.Settled) : s.runBlocks n = s := by
  rcases h with h | ⟨ht, hn | hn⟩
  · exact s.runBlocks_blocked n h
  · exact s.runBlocks_idle n ht hn
  · induction n with
    | zero => rfl
    | succ n ih =>
      rw [State.runBlocks]
      split
      · have hb : s.runBlock = s := by rw [s.runBlock_enter ht, State.enter, hn]
        rw [hb, ih]
      · rfl

theorem State.wholeMicro_next (s : State) (op : Micro) : (s.wholeMicro op).next = s.next ∨ (s.wholeMicro op).next = .idle := by
  have key : ∀ (ops : List Micro) (u : State), (u.micros ops).next = u.next ∨ (u.micros ops).next = .idle := by
    intro ops
    induction ops with
    | nil => exact fun u => .inl rfl
    | cons op ops ih =>
      intro u
      rw [State.micros_cons]
      rcases ih (u.micro op) with h | h
      · rw [h]; cases op <;> first | exact .inl rfl | exact .inr rfl
      · exact .inr h
  cases op with
  | frame header sent => exact key _ s
  | finish c => exact .inr rfl
  | _ => exact .inl rfl

theorem State.perform_next (ops : List Micro) (s : State) : (s.perform ops).next = s.next ∨ (s.perform ops).next = .idle := by
  induction ops generalizing s with
  | nil => exact .inl rfl
  | cons op ops ih =>
    rw [State.perform_cons]
    rcases ih (s.wholeMicro op) with h | h
    · rw [h]; exact s.wholeMicro_next op
    · exact .inr h

@[simp] theorem State.wholeMicro_params (s : State) (op : Micro) : (s.wholeMicro op).params = s.params := by
  have key : ∀ (ops : List Micro) (u : State), (u.micros ops).params = u.params := by
    intro ops
    induction ops with
    | nil => exact fun u => rfl
    | cons op ops ih => intro u; rw [State.micros_cons, ih, State.micro_params]
  cases op <;> first | exact key _ s | rfl

theorem State.perform_params (ops : List Micro) (s : State) : (s.perform ops).params = s.params := by
  induction ops generalizing s with
  | nil => rfl
  | cons op ops ih => rw [State.perform_cons, ih, State.wholeMicro_params]

/-- A position of the power-on-reset poll or before it. -/
def Label.leadsToPor : Label → Bool
  | .porHead | .porTest | .porStart | .sdnOff | .sdnRelease | .sdnOn => true
  | .idle | .decode | .baudDone | .bootBaud | .sendHead | .sendSample | .sendStatus | .sendSent | .sendTimeout => false
  | .waitHead _ | .rxSample _ | .rxStatus _ | .pollSleep _ | .fetch _ => false

/-- A power-on-reset poll does not go round in one move. -/
def State.Sleeps (s : State) : Prop := s.next.leadsToPor = true → s.params.porSleep ≠ 0

/-- `t` is nearer to where the move ends than a branch at `l` with these parameters. -/
def State.Nearer (l : Label) (p : Params) (t : State) : Prop :=
  t.Settled ∨ t.wait = 0 ∧ t.next.blocks < l.blocks ∧ t.params = p ∧ (t.next.leadsToPor = true → l.leadsToPor = true)

/-- A branch ends the move or goes nearer to its end. -/
theorem State.enter_nearer (s : State) (hw : s.wait = 0) (ht : s.todo = []) (hp : s.Sleeps) :
    s.enter.Nearer s.next s.params := by
  have go : ∀ (l : Label) (u : State) ops m, u.wait = 0 → u.params = s.params → m.blocks < l.blocks →
      (m.leadsToPor = true → l.leadsToPor = true) → (u.goOn ops m).Nearer l s.params :=
    fun l u ops m h1 h2 h3 h4 => .inr ⟨h1, h3, h2, h4⟩
  have wt : ∀ (l : Label) (u : State) n m, n ≠ 0 → (u.waitTicks n m).Nearer l s.params := fun l u n m h => .inl (.inl h)
  have wt0 : ∀ (l : Label) (u : State) n m, u.params = s.params → m.blocks < l.blocks →
      (m.leadsToPor = true → l.leadsToPor = true) → (u.waitTicks n m).Nearer l s.params := by
    intro l u n m h1 h2 h3
    by_cases h : n = 0
    · exact .inr ⟨h, h2, h1, h3⟩
    · exact wt l u n m h
  have nr : ∀ (l : Label) (u : State) ops who, u.wait = 0 → u.params = s.params → 1 < l.blocks →
      (u.notReceived ops who).Nearer l s.params := by
    intro l u ops who h1 h2 h3
    cases who <;> exact go l u _ _ h1 h2 h3 nofun
  unfold State.enter
  cases hn : s.next <;> simp only
  case idle => exact .inl (.inr ⟨ht, .inl hn⟩)
  case decode => exact .inl (.inr ⟨ht, .inr hn⟩)
  case baudDone => unfold State.atBaudDone; split <;> exact go _ s _ _ hw rfl (by decide) nofun
  case bootBaud => exact go _ s _ _ hw rfl (by decide) nofun
  case sendHead => unfold State.atSendHead; split <;> exact go _ s _ _ hw rfl (by decide) nofun
  case sendSample =>
    unfold State.atSendSample; split
    · exact go _ s.sampled _ _ hw rfl (by decide) nofun
    · exact wt _ _ _ _ (by decide)
  case sendStatus =>
    unfold State.atSendStatus; split
    · exact go _ s _ _ hw rfl (by decide) nofun
    · exact wt _ _ _ _ (by decide)
  case sendSent => unfold State.atSendSent; split <;> exact go _ s _ _ hw rfl (by decide) nofun
  case sendTimeout => exact go _ s _ _ hw rfl (by decide) nofun
  case waitHead who => unfold State.atWaitHead; split <;> exact go _ s _ _ hw rfl (by simp [Label.blocks]) nofun
  case rxSample who =>
    unfold State.atRxSample; split
    · exact go _ s.sampled _ _ hw rfl (by simp [Label.blocks]) nofun
    · exact nr _ s.sampled _ _ hw rfl (by simp [Label.blocks])
  case rxStatus who =>
    unfold State.atRxStatus; split
    · split <;> exact go _ s _ _ hw rfl (by simp [Label.blocks]) nofun
    · split <;> exact nr _ s _ _ hw rfl (by simp [Label.blocks])
  case pollSleep who => exact wt _ _ _ _ (by decide)
  case fetch ack => exact go _ s _ _ hw rfl (by simp [Label.blocks]) nofun
  case porHead => exact go _ s _ _ hw rfl (by decide) fun _ => rfl
  case porTest =>
    unfold State.atPorTest; split
    · exact go _ s _ _ hw rfl (by decide) fun _ => rfl
    · split
      · exact go _ s _ _ hw rfl (by decide) fun _ => rfl
      · exact wt _ _ _ _ (hp (by rw [hn]; rfl))
  case sdnOff => exact wt0 _ s _ _ rfl (by decide) fun _ => rfl
  case sdnRelease => exact go _ s _ _ hw rfl (by decide) fun _ => rfl
  case sdnOn => exact wt0 _ s _ _ rfl (by decide) fun _ => rfl
  case porStart => exact go _ s _ _ hw rfl (by decide) fun _ => rfl

/-- Enough blocks end the move. -/
theorem State.runBlocks_ends (n : Nat) (s : State) (hp : s.Sleeps) (hn : s.next.blocks ≤ n) :
    (s.runBlocks n).Settled := by
  induction n generalizing s with
  | zero =>
    cases h : s.next <;> rw [h] at hn <;> simp [Label.blocks] at hn
  | succ n ih =>
    by_cases hw : s.wait = 0
    · rw [State.runBlocks_succ s n hw, State.runBlock]
      have hq : (({ s with todo := [] } : State).perform s.todo).params = s.params := State.perform_params _ _
      have hu : (({ s with todo := [] } : State).perform s.todo).next.blocks ≤ n + 1 ∧
          (({ s with todo := [] } : State).perform s.todo).Sleeps := by
        unfold State.Sleeps
        rw [hq]
        rcases State.perform_next s.todo { s with todo := [] } with h | h <;> rw [h]
        · exact ⟨hn, hp⟩
        · exact ⟨Nat.le_add_left 1 n, nofun⟩
      rcases State.enter_nearer (({ s with todo := [] } : State).perform s.todo)
        (by rw [State.perform_wait]; exact hw) (State.perform_todo _ _) hu.2 with h | ⟨h1, h2, h3, h4⟩
      · rw [State.runBlocks_settled _ n h]; exact h
      · exact ih _ (fun g => by rw [h3]; exact hu.2 (h4 g)) (by omega)
    · exact .inl (by rw [s.runBlocks_blocked _ hw]; exact hw)

theorem State.runBlocks_add (s : State) (m n : Nat) : s.runBlocks (m + n) = (s.runBlocks m).runBlocks n := by
  induction m generalizing s with
  | zero => rw [Nat.zero_add]; rfl
  | succ m ih =>
    by_cases hw : s.wait = 0
    · rw [Nat.succ_add, State.runBlocks_succ s _ hw, State.runBlocks_succ s _ hw, ih]
    · rw [s.runBlocks_blocked _ hw, s.runBlocks_blocked _ hw, s.runBlocks_blocked _ hw]

/-- More blocks than enough make the same move: where a command goes on, it does not matter how many blocks its move has
made before. -/
theorem State.runBlocks_enough (s : State) (m n : Nat) (hp : s.Sleeps) (hm : s.next.blocks ≤ m) (hn : s.next.blocks ≤ n) :
    s.runBlocks m = s.runBlocks n := by
  have all : ∀ k, s.next.blocks ≤ k → s.runBlocks k = s.runBlocks s.next.blocks := by
    intro k hk
    obtain ⟨d, rfl⟩ := Nat.exists_eq_add_of_le hk
    rw [State.runBlocks_add, State.runBlocks_settled _ d (State.runBlocks_ends _ s hp (Nat.le_refl _))]
  rw [all m hm, all n hn]

/-- Two moves meet: where `k` blocks of one come to the branch that the other begins at, both end alike. -/
theorem State.runBlocks_meet (s t : State) (k : Nat) (l : Label) (hl : t.next = l) (hw : t.wait = 0) (ht : t.todo = [])
    (h : s.runBlocks k = t.enter) (hs : t.Sleeps) (h0 : 0 < k) (hk : k + l.blocks ≤ blocksPerMove + 1) :
    s.runBlocks blocksPerMove = t.runBlocks blocksPerMove := by
  subst hl
  have p : 0 < t.next.blocks := by cases t.next <;> simp [Label.blocks]
  have e : t.runBlocks 1 = t.enter := by
    rw [State.runBlocks_succ t 0 hw, State.runBlock_enter t ht]; rfl
  obtain ⟨d, hd⟩ : ∃ d, blocksPerMove = k + d := ⟨blocksPerMove - k, by omega⟩
  rw [hd, State.runBlocks_add, h, ← e, ← State.runBlocks_add, ← hd]
  exact State.runBlocks_enough t _ _ hs (by omega) (by omega)

/-! ### SendPoll (44_packet.md R204) -/

theorem State.atSendHead_bound (s : State) (h : s.params.txTimeout ≤ s.elapsed) :
    s.atSendHead = s.goOn (switchMode s.params (modeByte [.ready]) ++
      readReg s.params (regByte s.params.regs.deviceStatus)) .sendTimeout := if_pos h

theorem State.atSendHead_below (s : State) (h : s.elapsed < s.params.txTimeout) :
    s.atSendHead = s.goOn [] .sendSample := if_neg (Nat.not_le.mpr h)

theorem State.atSendSample_low (s : State) (h : s.nextLevel = .low) :
    s.atSendSample = s.sampled.goOn (pollStatus s.params) .sendStatus := by
  unfold State.atSendSample; rw [h]

theorem State.atSendSample_high (s : State) (h : s.nextLevel = .high) :
    s.atSendSample = s.sampled.waitTicks 1 .sendHead := by
  unfold State.atSendSample; rw [h]

theorem State.atSendStatus_sent (s : State) (h : s.s1 &&& s.params.maskPksent ≠ 0) :
    s.atSendStatus = s.goOn (switchMode s.params (modeByte [.ready, .tune])) .sendSent := if_pos h

theorem State.atSendStatus_notSent (s : State) (h : s.s1 &&& s.params.maskPksent = 0) :
    s.atSendStatus = s.waitTicks 1 .sendHead := if_neg (by simpa using h)

theorem State.atSendSent_ack (s : State) (h : s.arg0.getLsbD 8 = true) :
    s.atSendSent = s.goOn ([.setFsm .awaitingAck] ++ listen s.params .awaitingAck ++ [.setT0])
      (.waitHead .acknowledgment) := if_pos h

theorem State.atSendSent_noAck (s : State) (h : s.arg0.getLsbD 8 = false) :
    s.atSendSent = s.goOn [.setFsm .idle, .finish .ok] .idle := if_neg (by simpa [State.opAck] using h)

/-! ### WaitProc and the receive check (44_packet.md R206, R207) -/

theorem State.atWaitHead_bound (s : State) (who : Poller) (h : s.waitBound who ≤ s.elapsed) :
    s.atWaitHead who = s.goOn (switchMode s.params (modeByte [.ready]) ++ clearRx s.params ++
      [.setFsm .idle, .finish .noPacket]) .idle := if_pos h

theorem State.atWaitHead_below (s : State) (who : Poller) (h : s.elapsed < s.waitBound who) :
    s.atWaitHead who = s.goOn [] (.rxSample who) := if_neg (Nat.not_le.mpr h)

theorem State.atRxSample_low (s : State) (who : Poller) (h : s.nextLevel = .low) :
    s.atRxSample who = s.sampled.goOn (pollStatus s.params) (.rxStatus who) := by
  unfold State.atRxSample; rw [h]

theorem State.atRxSample_high (s : State) (who : Poller) (h : s.nextLevel = .high) :
    s.atRxSample who = s.sampled.notReceived [] who := by
  unfold State.atRxSample; rw [h]

theorem State.atRxStatus_crc (s : State) (who : Poller) (h1 : s.s1 &&& s.params.maskPkvalid = 0)
    (h2 : s.s1 &&& s.params.maskCrcerr ≠ 0) :
    s.atRxStatus who = s.notReceived (switchMode s.params (modeByte [.ready]) ++ clearRx s.params ++
      switchMode s.params (modeByte [.receive, .ready])) who := by
  unfold State.atRxStatus; rw [if_neg (by simpa using h1), if_pos h2]

theorem State.atRxStatus_nothing (s : State) (who : Poller) (h1 : s.s1 &&& s.params.maskPkvalid = 0)
    (h2 : s.s1 &&& s.params.maskCrcerr = 0) : s.atRxStatus who = s.notReceived [] who := by
  unfold State.atRxStatus; rw [if_neg (by simpa using h1), if_neg (by simpa using h2)]

/-! ### PorPoll (45_bootstrap.md R254) -/

theorem State.atPorTest_shown (s : State) (h : s.received &&& s.params.maskPor ≠ 0) :
    s.atPorTest = s.goOn s.bootSteps .bootBaud := if_pos h

theorem State.atPorTest_limit (s : State) (h : s.received &&& s.params.maskPor = 0) (he : s.porExhausted = true) :
    s.atPorTest = s.goOn [.setFsm .idle, .finish .porTimeout] .idle := by
  unfold State.atPorTest; rw [if_neg (by simpa using h), if_pos he]

theorem State.atPorTest_again (s : State) (h : s.received &&& s.params.maskPor = 0) (he : s.porExhausted = false) :
    s.atPorTest = s.waitTicks s.params.porSleep .porHead := by
  unfold State.atPorTest; rw [if_neg (by simpa using h), if_neg (by simp [he])]

/-! ### Boot (45_bootstrap.md R256) -/

/-- `Boot()` up to the calculation. -/
theorem State.perform_bootFirst (s : State) (p : Params) (hp : s.params = p) (freq baud : Nat) :
    s.perform (bootFirst p freq baud) =
      { s with sel := false
               baud := baudValues p.ifTable baud
               trace := s.trace ++ (p.bootTable.flatMap (fun row => writeTrace (regByte row.1) [row.2]) ++
                 writeTrace (regByte p.regs.freqband) (freqEncode freq)) } := by
  subst hp
  simp [bootFirst, State.perform_bootTable, writeFrequency, State.perform_writeBurst, State.wholeMicro,
    State.micro]

/-- `Boot()` after the calculation. -/
theorem State.perform_bootRest (s : State) (p : Params) (hp : s.params = p) (b : BaudValues) (ch : Byte)
    (sig : BitVec 16) :
    s.perform (bootRest p b ch sig) =
      { s with sel := false
               modeValue := modeByte [.ready]
               modeValid := true
               busAnomaly := s.busAnomaly || isAnomaly (s.answerAt 0)
               rx := [s.answerAt 0]
               answers := s.answers.skip 1
               trace := s.trace ++ ((if baudFaults b then [] else baudTrace p b) ++
                 writeTrace (regByte p.regs.channel) [ch] ++ signatureTrace p sig ++
                 switchModeTrace p (modeByte [.ready]) (s.answerAt 0)) } := by
  by_cases hf : baudFaults b = true
  all_goals
    simp [bootRest, hf, State.perform_writeBaud, writeChannel, State.perform_writeReg, State.perform_writeSignature,
      State.perform_switchMode, hp, State.answerAt]

/-! ### Every branch -/

/-- What every branch keeps: a relation that setting the steps ahead, a wait and a sample keep. -/
theorem State.enter_keeps (P : State → Prop) (go : ∀ (u : State) ops l, P u → P (u.goOn ops l))
    (wt : ∀ (u : State) n l, P u → P (u.waitTicks n l)) (sm : ∀ u : State, P u → P u.sampled) (s : State) (r : P s) :
    P s.enter := by
  have nr : ∀ (u : State) ops who, P u → P (u.notReceived ops who) := by
    intro u ops who h; cases who <;> exact go u _ _ h
  unfold State.enter
  split
  all_goals first | exact r | exact go _ _ _ r | exact wt _ _ _ r | skip
  · unfold State.atBaudDone; split <;> exact go _ _ _ r
  · unfold State.atSendHead; split <;> exact go _ _ _ r
  · unfold State.atSendSample; split
    · exact go _ _ _ (sm _ r)
    · exact wt _ _ _ (sm _ r)
  · unfold State.atSendStatus; split
    · exact go _ _ _ r
    · exact wt _ _ _ r
  · unfold State.atSendSent; split <;> exact go _ _ _ r
  · unfold State.atWaitHead; split <;> exact go _ _ _ r
  · unfold State.atRxSample; split
    · exact go _ _ _ (sm _ r)
    · exact nr _ _ _ (sm _ r)
  · unfold State.atRxStatus; split
    · split <;> exact go _ _ _ r
    · split <;> exact nr _ _ _ r
  · unfold State.atPorTest; split
    · exact go _ _ _ r
    · split
      · exact go _ _ _ r
      · exact wt _ _ _ r

end Sys2Proof.Machine
end

