-- ==== Sys2Proof/Laws/Grant.lean ====
section
/-! SUPPORT. No step of the controller looks at how far its move goes. -/

namespace Sys2Proof.Machine

/-- `s` in a move of another length. -/
def State.withGrant (s : State) (g : Grant) : State := { s with grant := g }

@[simp] theorem State.withGrant_params (s : State) (g : Grant) : (s.withGrant g).params = s.params := rfl
@[simp] theorem State.withGrant_arg0 (s : State) (g : Grant) : (s.withGrant g).arg0 = s.arg0 := rfl
@[simp] theorem State.withGrant_arg1 (s : State) (g : Grant) : (s.withGrant g).arg1 = s.arg1 := rfl
@[simp] theorem State.withGrant_opAddr (s : State) (g : Grant) : (s.withGrant g).opAddr = s.opAddr := rfl
@[simp] theorem State.withGrant_opValue (s : State) (g : Grant) : (s.withGrant g).opValue = s.opValue := rfl
@[simp] theorem State.withGrant_opCount (s : State) (g : Grant) : (s.withGrant g).opCount = s.opCount := rfl
@[simp] theorem State.withGrant_badCount (s : State) (g : Grant) : (s.withGrant g).badCount = s.badCount := rfl
@[simp] theorem State.withGrant_opFreq (s : State) (g : Grant) : (s.withGrant g).opFreq = s.opFreq := rfl
@[simp] theorem State.withGrant_freqInRange (s : State) (g : Grant) : (s.withGrant g).freqInRange = s.freqInRange := rfl
@[simp] theorem State.withGrant_opSignature (s : State) (g : Grant) : (s.withGrant g).opSignature = s.opSignature := rfl
@[simp] theorem State.withGrant_opChannel (s : State) (g : Grant) : (s.withGrant g).opChannel = s.opChannel := rfl
@[simp] theorem State.withGrant_opBaud (s : State) (g : Grant) : (s.withGrant g).opBaud = s.opBaud := rfl
@[simp] theorem State.withGrant_baudInRange (s : State) (g : Grant) : (s.withGrant g).baudInRange = s.baudInRange := rfl
@[simp] theorem State.withGrant_opMode (s : State) (g : Grant) : (s.withGrant g).opMode = s.opMode := rfl
@[simp] theorem State.withGrant_opLen (s : State) (g : Grant) : (s.withGrant g).opLen = s.opLen := rfl
@[simp] theorem State.withGrant_opAck (s : State) (g : Grant) : (s.withGrant g).opAck = s.opAck := rfl
@[simp] theorem State.withGrant_opAckTimeout (s : State) (g : Grant) : (s.withGrant g).opAckTimeout = s.opAckTimeout := rfl
@[simp] theorem State.withGrant_opTimeout (s : State) (g : Grant) : (s.withGrant g).opTimeout = s.opTimeout := rfl
@[simp] theorem State.withGrant_bootSteps (s : State) (g : Grant) : (s.withGrant g).bootSteps = s.bootSteps := rfl
@[simp] theorem State.withGrant_todo (s : State) (g : Grant) : (s.withGrant g).todo = s.todo := rfl
@[simp] theorem State.withGrant_next (s : State) (g : Grant) : (s.withGrant g).next = s.next := rfl
@[simp] theorem State.withGrant_wait (s : State) (g : Grant) : (s.withGrant g).wait = s.wait := rfl

theorem State.micro_withGrant (s : State) (g : Grant) (op : Micro) :
    (s.withGrant g).micro op = (s.micro op).withGrant g := by
  cases op <;> rfl

theorem State.micros_withGrant (s : State) (g : Grant) (ops : List Micro) :
    (s.withGrant g).micros ops = (s.micros ops).withGrant g := by
  induction ops generalizing s with
  | nil => rfl
  | cons op ops ih => rw [State.micros_cons, State.micros_cons, State.micro_withGrant, ih]

theorem State.atBaudDone_withGrant (s : State) (g : Grant) :
    (s.withGrant g).atBaudDone = s.atBaudDone.withGrant g := by
  cases h : baudFaults s.baud <;> simp [State.atBaudDone, State.withGrant, State.goOn, h]

theorem State.atSendHead_withGrant (s : State) (g : Grant) :
    (s.withGrant g).atSendHead = s.atSendHead.withGrant g := by
  by_cases h : s.params.txTimeout ≤ s.elapsed
  · rw [s.atSendHead_bound h, (s.withGrant g).atSendHead_bound h]; rfl
  · rw [s.atSendHead_below (by omega), (s.withGrant g).atSendHead_below (Nat.not_le.mp h)]; rfl

theorem State.atSendSample_withGrant (s : State) (g : Grant) :
    (s.withGrant g).atSendSample = s.atSendSample.withGrant g := by
  cases h : s.nextLevel
  · rw [s.atSendSample_low h, (s.withGrant g).atSendSample_low h]; rfl
  · rw [s.atSendSample_high h, (s.withGrant g).atSendSample_high h]; rfl

theorem State.atSendStatus_withGrant (s : State) (g : Grant) :
    (s.withGrant g).atSendStatus = s.atSendStatus.withGrant g := by
  by_cases h : s.s1 &&& s.params.maskPksent = 0
  · rw [s.atSendStatus_notSent h, (s.withGrant g).atSendStatus_notSent h]; rfl
  · rw [s.atSendStatus_sent h, (s.withGrant g).atSendStatus_sent h]; rfl

theorem State.atSendSent_withGrant (s : State) (g : Grant) :
    (s.withGrant g).atSendSent = s.atSendSent.withGrant g := by
  cases h : s.arg0.getLsbD 8
  · rw [s.atSendSent_noAck h, (s.withGrant g).atSendSent_noAck h]; rfl
  · rw [s.atSendSent_ack h, (s.withGrant g).atSendSent_ack h]; rfl

theorem State.waitBound_withGrant (s : State) (g : Grant) (who : Poller) :
    (s.withGrant g).waitBound who = s.waitBound who := by
  cases who <;> rfl

theorem State.atWaitHead_withGrant (s : State) (g : Grant) (who : Poller) :
    (s.withGrant g).atWaitHead who = (s.atWaitHead who).withGrant g := by
  have hb := s.waitBound_withGrant g who
  by_cases h : s.waitBound who ≤ s.elapsed
  · rw [s.atWaitHead_bound who h, (s.withGrant g).atWaitHead_bound who (hb ▸ h)]; rfl
  · rw [s.atWaitHead_below who (Nat.not_le.mp h), (s.withGrant g).atWaitHead_below who (hb ▸ Nat.not_le.mp h)]; rfl

theorem State.notReceived_withGrant (s : State) (g : Grant) (ops : List Micro) (who : Poller) :
    (s.withGrant g).notReceived ops who = (s.notReceived ops who).withGrant g := by
  cases who <;> rfl

theorem State.sampled_withGrant (s : State) (g : Grant) : (s.withGrant g).sampled = s.sampled.withGrant g := rfl

theorem State.atRxSample_withGrant (s : State) (g : Grant) (who : Poller) :
    (s.withGrant g).atRxSample who = (s.atRxSample who).withGrant g := by
  cases h : s.nextLevel
  · rw [s.atRxSample_low who h, (s.withGrant g).atRxSample_low who h]; rfl
  · rw [s.atRxSample_high who h, (s.withGrant g).atRxSample_high who h, State.sampled_withGrant,
      State.notReceived_withGrant]

theorem State.atRxStatus_withGrant (s : State) (g : Grant) (who : Poller) :
    (s.withGrant g).atRxStatus who = (s.atRxStatus who).withGrant g := by
  by_cases h1 : s.s1 &&& s.params.maskPkvalid = 0
  · by_cases h2 : s.s1 &&& s.params.maskCrcerr = 0
    · rw [s.atRxStatus_nothing who h1 h2, (s.withGrant g).atRxStatus_nothing who h1 h2, State.notReceived_withGrant]
    · rw [s.atRxStatus_crc who h1 h2, (s.withGrant g).atRxStatus_crc who h1 h2, State.notReceived_withGrant]; rfl
  · have h1' : (s.withGrant g).s1 &&& (s.withGrant g).params.maskPkvalid ≠ 0 := h1
    unfold State.atRxStatus
    rw [if_pos h1, if_pos h1']
    cases who <;> rfl

theorem State.atPorTest_withGrant (s : State) (g : Grant) : (s.withGrant g).atPorTest = s.atPorTest.withGrant g := by
  by_cases h : s.received &&& s.params.maskPor = 0
  · cases he : s.porExhausted
    · rw [s.atPorTest_again h he, (s.withGrant g).atPorTest_again h he]; rfl
    · rw [s.atPorTest_limit h he, (s.withGrant g).atPorTest_limit h he]; rfl
  · rw [s.atPorTest_shown h, (s.withGrant g).atPorTest_shown h]; rfl

theorem State.enter_withGrant (s : State) (g : Grant) : (s.withGrant g).enter = s.enter.withGrant g := by
  have hn : (s.withGrant g).next = s.next := rfl
  unfold State.enter
  rw [hn]
  cases s.next with
  | baudDone => exact s.atBaudDone_withGrant g
  | sendHead => exact s.atSendHead_withGrant g
  | sendSample => exact s.atSendSample_withGrant g
  | sendStatus => exact s.atSendStatus_withGrant g
  | sendSent => exact s.atSendSent_withGrant g
  | waitHead who => exact s.atWaitHead_withGrant g who
  | rxSample who => exact s.atRxSample_withGrant g who
  | rxStatus who => exact s.atRxStatus_withGrant g who
  | porTest => exact s.atPorTest_withGrant g
  | _ => rfl

theorem State.ctlStep_withGrant (s : State) (g : Grant) : (s.withGrant g).ctlStep = s.ctlStep.withGrant g := by
  by_cases hw : s.wait = 0
  · have hw' : (s.withGrant g).wait = 0 := hw
    have ht' : (s.withGrant g).todo = s.todo := rfl
    unfold State.ctlStep
    rw [if_pos hw, if_pos hw', ht']
    cases s.todo with
    | nil => exact s.enter_withGrant g
    | cons op rest => exact ({ s with todo := rest } : State).micro_withGrant g op
  · have hw' : ¬ (s.withGrant g).wait = 0 := hw
    unfold State.ctlStep
    rw [if_neg hw, if_neg hw']

theorem State.ctlSteps_withGrant (n : Nat) (s : State) (g : Grant) :
    (s.withGrant g).ctlSteps n = (s.ctlSteps n).withGrant g := by
  induction n generalizing s with
  | zero => rfl
  | succ n ih =>
    show (s.withGrant g).ctlStep.ctlSteps n = (s.ctlStep.ctlSteps n).withGrant g
    rw [State.ctlStep_withGrant, ih]

theorem State.bufRead_withGrant (s : State) (g : Grant) (i n : Nat) :
    (s.withGrant g).bufRead i n = ((s.bufRead i n).1, (s.bufRead i n).2.withGrant g) := by
  induction n generalizing s i with
  | zero => rfl
  | succ n ih =>
    have hd : (s.withGrant g).databuf = s.databuf := rfl
    simp only [State.bufRead, hd]
    cases bufGet s.databuf i with
    | some v => simp only [ih]
    | none =>
      have h := ih { s with fresh := s.fresh.advance } (i + 1)
      simp only [State.withGrant] at h ⊢
      rw [h]; rfl

end Sys2Proof.Machine
end

