-- ==== Sys2Proof/Laws/Operands.lean ====
section
/-! SUPPORT. What the range tests of the operands and of the host's accesses say of the stored words. -/

namespace Sys2Proof.Machine

theorem State.freqInRange_iff (s : State) : s.freqInRange = true ↔ 240 ≤ s.arg0.toNat ∧ s.arg0.toNat ≤ 930 := by
  unfold State.freqInRange State.opFreq; simp only [Bool.and_eq_true, decide_eq_true_eq]

theorem State.baudInRange_iff (s : State) : s.baudInRange = true ↔ 1 ≤ s.arg0.toNat ∧ s.arg0.toNat ≤ 256 := by
  unfold State.baudInRange State.opBaud; simp only [Bool.and_eq_true, decide_eq_true_eq]

theorem State.badCount_iff (s : State) : s.badCount = true ↔ 256 < s.opCount := by
  unfold State.badCount; simp only [decide_eq_true_eq]

theorem State.opMode_eq (s : State) : s.opMode = BitVec.ofNat 8 (s.arg0.toNat % 16) := by
  apply BitVec.eq_of_toNat_eq
  simp [State.opMode, BitVec.extractLsb'_toNat]

theorem reachesAperture_iff (p : Params) (addr size : Nat) :
    reachesAperture p addr size = true ↔ p.base < addr + size ∧ addr < p.base + 0x200 := by
  unfold reachesAperture apertureSize; simp only [Bool.and_eq_true, decide_eq_true_eq]

theorem accessibleAt_iff (p : Params) (addr size : Nat) :
    accessibleAt p addr size = true ↔ p.base ≤ addr ∧ size = 4 ∧ (addr - p.base) % 4 = 0 := by
  unfold accessibleAt hostAccessWf; simp only [Bool.and_eq_true, decide_eq_true_eq, beq_iff_eq]

theorem State.hostStore_buffer (s : State) (offset : Nat) (w : Word) (h : 0x100 ≤ offset) :
    s.hostStore offset w = s.guarded { s with databuf := bufWrite s.databuf (offset - 0x100) (bytesOfWord w) } := by
  unfold State.hostStore
  split <;> first | omega | simp [h]

theorem State.hostStore_readOnly (s : State) (offset : Nat) (w : Word) (h1 : 0x10 ≤ offset) (h2 : offset < 0x100) :
    s.hostStore offset w = s := by
  unfold State.hostStore
  split <;> first | omega | (rw [if_neg (by omega)])

theorem State.hostLoad_buffer (s : State) (offset : Nat) (h : 0x100 ≤ offset) :
    s.hostLoad offset = s.hostReadsBuf (offset - 0x100) := by
  unfold State.hostLoad
  split <;> first | omega | simp [h]

theorem State.hostLoad_reserved (s : State) (offset : Nat) (h1 : 0x30 ≤ offset) (h2 : offset < 0x100) :
    s.hostLoad offset = s.hostReads 0 := by
  unfold State.hostLoad
  split <;> first | omega | (rw [if_neg (by omega)])

/-- An aligned store of a word in the aperture is the store at its offset. -/
theorem State.hostMove_store (s : State) (offset : Nat) (w : Word) (h : offset < 0x200) (h4 : offset % 4 = 0) :
    s.hostMove (.store (s.params.base + offset) 4 w) = .next (s.hostStore offset w) := by
  simp only [State.hostMove]
  rw [if_pos ((reachesAperture_iff ..).mpr (by omega)), if_pos ((accessibleAt_iff ..).mpr (by omega)),
    Nat.add_sub_cancel_left]

/-- An aligned load of a word in the aperture is the load at its offset. -/
theorem State.hostMove_load (s : State) (offset : Nat) (h : offset < 0x200) (h4 : offset % 4 = 0) :
    s.hostMove (.load (s.params.base + offset) 4) = .next (s.hostLoad offset) := by
  simp only [State.hostMove]
  rw [if_pos ((reachesAperture_iff ..).mpr (by omega)), if_pos ((accessibleAt_iff ..).mpr (by omega)),
    Nat.add_sub_cancel_left]

end Sys2Proof.Machine
end

