-- ==== Sys2Proof/Laws/Step.lean ====
section
/-! SUPPORT. What a step is, by the agent that moves. -/

namespace Sys2Proof.Machine

theorem step_host (s : State) (a : HostAccess) (h : s.nextEvent = .host a) : step s = s.moved.hostMove a := by
  simp [step, State.turn, h, State.move, State.moved]

theorem step_tick (s : State) (h : s.nextEvent = .tick) : step s = .next s.moved.tickOnce := by
  simp [step, State.turn, h, State.move, State.moved]

theorem step_blockReset (s : State) (h : s.nextEvent = .blockReset) : step s = .next s.moved.blockReset := by
  simp [step, State.turn, h, State.move, State.moved]

/-- Blocked in a WaitTicks. -/
theorem step_blocked (s : State) (g : Grant) (h : s.nextEvent = .controller g) (hw : s.wait ≠ 0) :
    step s = .next { s.moved with grant := g } := by
  simp [step, State.turn, h, State.move, State.controllerMove, State.moved, hw]

/-- A decode. -/
theorem step_decode (s : State) (g : Grant) (h : s.nextEvent = .controller g) (hw : s.wait = 0) (ht : s.todo = [])
    (hn : s.next = .decode) :
    step s = match decodeWord s.cmd with
      | some i => exec i { s.moved with grant := g }
      | none => .next (({ s.moved with grant := g } : State).startCommand [.finish .illegalCmd] .idle) := by
  cases hd : decodeWord s.cmd <;>
    simp [step, State.turn, h, State.move, State.controllerMove, hw, ht, hn, hd, State.moved]

/-- A frame next. -/
theorem step_frame (s : State) (g : Grant) (header : Byte) (sent : List Byte) (rest : List Micro)
    (h : s.nextEvent = .controller g) (hw : s.wait = 0) (ht : s.todo = .frame header sent :: rest) :
    step s = exec (decodeFrame header sent) { s.moved with grant := g, todo := rest } := by
  simp [step, State.turn, h, State.move, State.controllerMove, hw, ht, State.moved]

/-- The instruction a frame's header decodes to makes the frame's window. -/
theorem exec_decodeFrame (s : State) (header : Byte) (sent : List Byte) :
    exec (decodeFrame header sent) s = .next (s.transact (frameSteps s.params.readDummy header sent)) := by
  have w7 : ∀ a : Byte, a.msb = true → writeHeader (regByte (a.extractLsb' 0 7)) = writeHeader a := by
    intro a; revert a; decide
  have r7 : ∀ a : Byte, a.msb = false → readHeader (regByte (a.extractLsb' 0 7)) = readHeader a := by
    intro a; revert a; decide
  cases hm : header.msb
  · simp [decodeFrame, hm, exec, execBusRead, frameSteps, readWindow, r7]
  · simp [decodeFrame, hm, exec, execBusWrite, frameSteps, writeWindow, w7]

/-- At a branch, with nothing left before it. -/
theorem step_branch (s : State) (g : Grant) (h : s.nextEvent = .controller g) (hw : s.wait = 0) (ht : s.todo = [])
    (hn : s.next ≠ .decode) : step s = .next ({ s.moved with grant := g } : State).run := by
  simp only [step, State.turn, h, State.move, State.controllerMove, hw, ht, if_true]
  cases hl : s.next <;> simp_all [State.moved]

/-- In a block, before an operation that is not a frame. -/
theorem step_operation (s : State) (g : Grant) (op : Micro) (rest : List Micro) (h : s.nextEvent = .controller g)
    (hw : s.wait = 0) (ht : s.todo = op :: rest) (hop : op.isFrame = false) :
    step s = .next ({ s.moved with grant := g } : State).run := by
  simp only [step, State.turn, h, State.move, State.controllerMove, hw, ht, if_true]
  cases op <;> simp_all [State.moved, Micro.isFrame]

/-- At a branch, in a move to the next wait. -/
theorem step_branch_toWait (s : State) (h : s.nextEvent = .controller .toWait) (hw : s.wait = 0) (ht : s.todo = [])
    (hn : s.next ≠ .decode) :
    step s = .next (({ s.moved with grant := .toWait } : State).enter.runBlocks 15) := by
  rw [step_branch s _ h hw ht hn, State.run_toWait _ rfl]
  have e := State.runBlocks_succ ({ s.moved with grant := .toWait } : State) 15 hw
  rw [State.runBlock_enter ({ s.moved with grant := .toWait } : State) ht] at e
  exact congrArg _ e

/-- At a branch, in a move to the next wait, by the number of blocks. -/
theorem step_branch_blocks (s : State) (h : s.nextEvent = .controller .toWait) (hw : s.wait = 0) (ht : s.todo = [])
    (hn : s.next ≠ .decode) :
    step s = .next (({ s.moved with grant := .toWait } : State).runBlocks blocksPerMove) := by
  rw [step_branch s _ h hw ht hn]; rfl

/-- A command issued in a move to the next wait ends where the step from a position on its way ends, when the blocks left
from there fit in the move. -/
theorem State.startCommand_meets (s t : State) (ops : List Micro) (next l : Label) (k : Nat) (hs : s.grant = .toWait)
    (hg : t.grant = .toWait) (hw : t.wait = 0) (ht : t.todo = []) (hl : t.next = l) (hn : l ≠ .decode)
    (h : ({ s with todo := ops, next := next, wait := 0 } : State).runBlocks k = t.enter) (sleeps : t.Sleeps)
    (h0 : 0 < k) (hk : k + l.blocks ≤ blocksPerMove + 1) :
    (Host.Outcome.next (s.startCommand ops next) : Host.Outcome State Fault Refusal) =
      step { t with events := ⟨.controller .toWait :: t.events.script, t.events.used⟩ } := by
  rw [step_branch_blocks { t with events := ⟨.controller .toWait :: t.events.script, t.events.used⟩ } rfl hw ht (hl ▸ hn)]
  have e : ({ ({ t with events := ⟨.controller .toWait :: t.events.script, t.events.used⟩ } : State).moved with
      grant := .toWait } : State) = t := by rw [← hg]; rfl
  rw [e, ← State.runBlocks_meet _ t k l hl hw ht h sleeps h0 hk, State.startCommand, State.run_toWait _ (by exact hs)]

/-- Everything a step can be. -/
theorem step_cases (s : State) :
    (s.nextEvent = .tick ∧ step s = .next s.moved.tickOnce) ∨
    (s.nextEvent = .blockReset ∧ step s = .next s.moved.blockReset) ∨
    (∃ a, s.nextEvent = .host a ∧ step s = s.moved.hostMove a) ∨
    ∃ g, s.nextEvent = .controller g ∧
      ((s.wait ≠ 0 ∧ step s = .next { s.moved with grant := g }) ∨
       (∃ header sent rest, s.wait = 0 ∧ s.todo = .frame header sent :: rest ∧
          step s = exec (decodeFrame header sent) { s.moved with grant := g, todo := rest }) ∨
       (∃ i, s.wait = 0 ∧ s.todo = [] ∧ s.next = .decode ∧ decodeWord s.cmd = some i ∧
          step s = exec i { s.moved with grant := g }) ∨
       (s.wait = 0 ∧ s.todo = [] ∧ s.next = .decode ∧ decodeWord s.cmd = none ∧
          step s = .next (({ s.moved with grant := g } : State).startCommand [.finish .illegalCmd] .idle)) ∨
       (s.wait = 0 ∧ step s = .next ({ s.moved with grant := g } : State).run)) := by
  cases h : s.nextEvent with
  | tick => exact .inl ⟨rfl, step_tick s h⟩
  | blockReset => exact .inr (.inl ⟨rfl, step_blockReset s h⟩)
  | host a => exact .inr (.inr (.inl ⟨a, rfl, step_host s a h⟩))
  | controller g =>
    refine .inr (.inr (.inr ⟨g, rfl, ?_⟩))
    by_cases hw : s.wait = 0
    · right
      cases ht : s.todo with
      | nil =>
        by_cases hn : s.next = .decode
        · have hs := step_decode s g h hw ht hn
          cases hd : decodeWord s.cmd with
          | none => rw [hd] at hs; exact .inr (.inr (.inl ⟨hw, rfl, hn, rfl, hs⟩))
          | some i => rw [hd] at hs; exact .inr (.inl ⟨i, hw, rfl, hn, rfl, hs⟩)
        · exact .inr (.inr (.inr ⟨hw, step_branch s g h hw ht hn⟩))
      | cons op rest =>
        cases hf : op.isFrame with
        | false => exact .inr (.inr (.inr ⟨hw, step_operation s g op rest h hw ht hf⟩))
        | true =>
          obtain ⟨header, sent, rfl⟩ : ∃ header sent, op = .frame header sent := by
            cases op <;> simp [Micro.isFrame] at hf ⊢
          exact .inl ⟨header, sent, rest, hw, rfl, step_frame s g header sent rest h hw ht⟩
    · exact .inl ⟨hw, step_blocked s g h hw⟩

end Sys2Proof.Machine
end

