-- ==== Sys2Proof/Laws/Invariant.lean ====
section
/-! SUPPORT. The invariant of Safety.lean, kept by each piece of a step: a micro-operation, a branch, a controller step, a
command, a frame, a host access. -/

namespace Sys2Proof.Machine

/-! ### Lists of operations -/
theorem portBalanced_cons (sel : Bool) (op : Micro) (rest) (h : portBalanced sel (op :: rest) = true) :
   (∃ a, op = .select a ∧ a ≠ sel ∧ portBalanced a rest = true) ∨
       ((∀ a, op ≠ .select a) ∧ op.isTransfer = sel ∧ portBalanced sel rest = true) := by
  cases op
  case select a => left; simp [portBalanced] at h; exact ⟨a, rfl, h.1, h.2⟩
  all_goals (right; simp [portBalanced] at h; exact ⟨by simp, by simpa using h.1, by simpa using h.2⟩)

theorem State.micro_sel (s : State) (op : Micro) (h : ∀ a, op ≠ .select a) : (s.micro op).sel = s.sel := by
  cases op <;> first | rfl | exact absurd rfl (h _)

theorem portBalanced_cons_ne (sel : Bool) (op : Micro) (rest) (h : ∀ a, op ≠ .select a) : portBalanced sel
    (op :: rest) = (op.isTransfer == sel && portBalanced sel rest) := by
  cases op <;> first | rfl | exact absurd rfl (h _)

theorem portBalanced_transfers (ops rest : List Micro) (h : ∀ op ∈ ops, op.isTransfer = true) : portBalanced true
    (ops ++ rest) = portBalanced true rest := by
  induction ops with
  | nil => rfl
  | cons op ops ih =>
    have h0 := h op (by simp)
    have : ∀ a, op ≠ .select a := by intro a ha; subst ha; simp [Micro.isTransfer] at h0
    rw [List.cons_append, portBalanced_cons_ne _ _ _ this, h0, ih (fun o ho => h o (by simp [ho]))]; simp

theorem portBalanced_frame (d h : Byte) (sent rest) (hr : portBalanced false rest = true) : portBalanced false
    (frameSteps d h sent ++ rest) = true := by
  simp only [frameSteps, writeWindow, readWindow]
  split
  all_goals
    simp only [List.cons_append, List.append_assoc, List.nil_append, portBalanced, Micro.isTransfer]
    rw [portBalanced_transfers _ _ (by intro op hop; simp at hop; obtain ⟨a, -, rfl⟩ := hop; rfl)]
    simp [portBalanced, hr]

/-- Operations that begin and end with chip-select inactive, do not end the command and write legal configuration
    values
only. -/
def okOps (ops : List Micro) : Bool := portBalanced false ops && goesOn ops && ops.all Micro.cfgOk

theorem portBalanced_append (ops rest : List Micro) : ∀ sel, portBalanced sel ops = true → portBalanced false rest
    = true → portBalanced sel (ops ++ rest) = true := by
  induction ops with
  | nil => intro sel h1 h2; simp [portBalanced] at h1; subst h1; exact h2
  | cons op ops ih =>
    intro sel h1 h2
    rw [List.cons_append]
    rcases portBalanced_cons _ _ _ h1 with ⟨a, rfl, ha, hb⟩ | ⟨hs, ha, hb⟩
    · simp [portBalanced, ha]; exact ih _ hb h2
    · rw [portBalanced_cons_ne _ _ _ hs, ha]; simp; exact ih _ hb h2

theorem okOps_append (a b) (ha : okOps a = true) (hb : okOps b = true) : okOps (a ++ b) = true := by
  simp only [okOps, Bool.and_eq_true, goesOn] at *
  refine ⟨⟨portBalanced_append _ _ _ ha.1.1 hb.1.1, ?_⟩, ?_⟩
  · rw [List.all_append, ha.1.2, hb.1.2]; rfl
  · rw [List.all_append, ha.2, hb.2]; rfl

theorem okOps_writeBurst (a d) : okOps (writeBurst a d) = true := rfl
theorem okOps_writeReg (a d) : okOps (writeReg a d) = true := rfl
theorem okOps_writeBaud (p l) : okOps (writeBaud p l) = true := rfl
theorem okOps_bootTable (t : List (ChipAddr × Byte)) : okOps (t.flatMap
    (fun row => writeReg (regByte row.1) row.2)) = true := by
  induction t with
  | nil => rfl
  | cons a t ih => rw [List.flatMap_cons]; exact okOps_append _ _ (okOps_writeReg _ _) ih
theorem okOps_bootFirst (p f b) : okOps (bootFirst p f b) = true := by
  unfold bootFirst
  exact okOps_append _ _ (okOps_append _ _ (okOps_bootTable _) rfl) rfl
theorem okOps_bootRest (p b c s) : okOps (bootRest p b c s) = true := by
  unfold bootRest
  split <;> rfl

/-- Such operations with a `finish` after them end a command. -/
theorem endsCommand_finish (ops : List Micro) (c : ResultCode) (h : okOps ops = true) (hc : c ≠ .pending) :
    portBalanced false (ops ++ [Micro.finish c]) = true ∧ endsCommand (ops ++ [Micro.finish c]) = true ∧
        (ops ++ [Micro.finish c]).all Micro.cfgOk = true := by
  simp only [okOps, Bool.and_eq_true] at h
  refine ⟨portBalanced_append _ _ _ h.1.1 rfl, ?_, ?_⟩
  · have hg := h.1.2
    clear h
    induction ops with
    | nil => simp [endsCommand, Micro.isFinish, hc]
    | cons op ops ih =>
      simp only [goesOn, List.all_cons, Bool.and_eq_true] at hg
      have hne : ops ++ [Micro.finish c] ≠ [] := by simp
      rw [List.cons_append]
      cases h : ops ++ [Micro.finish c] with
      | nil => exact absurd h hne
      | cons x xs =>
        simp only [endsCommand, hg.1, Bool.true_and]
        rw [← h]; exact ih hg.2
  · rw [List.all_append, h.2]; rfl

/-! ### Branches -/

/-- What the invariant says at a branch of a running command. -/
def State.Running (s : State) : Prop := s.busy = true ∧ s.code = .pending ∧ s.sel = false ∧ freqOk s.cfgFreq = true
    ∧ baudOk s.cfgBaud = true ∧ Memory.wf s.databuf = true ∧ s.wait = 0

theorem State.Running.goOn (s : State) (ops) (l : Label) (hb : s.Running) (h : okOps ops = true) (hl : l ≠ .idle)
    (hd : l ≠ .decode) (hbd : l = .baudDone → baudOk s.arg0 = true) : State.Inv (s.goOn ops l) := by
  obtain ⟨b1,b2,b3,b4,b5,b6,b7⟩ := hb
  simp only [okOps, Bool.and_eq_true] at h
  refine ⟨?_, ?_, ?_, b6⟩
  · simp [State.goOn, b3, h.1.1]
  · simp [State.phaseOk, State.goOn, b1, b2, hl, hd, h.1.2, b7]
  · simp only [State.cfgOk, State.goOn, b4, b5, h.2, Bool.true_and, Bool.and_true]
    by_cases hq : l = .baudDone
    · simp [hbd hq]
    · simp [hq]

theorem State.Running.goOn_finish (s : State) (ops) (c) (hb : s.Running) (h : okOps ops = true) (hc : c ≠ .pending)
    : State.Inv (s.goOn (ops ++ [.finish c]) .idle) := by
  obtain ⟨b1,b2,b3,b4,b5,b6,b7⟩ := hb
  obtain ⟨e1,e2,e3⟩ := endsCommand_finish ops c h hc
  refine ⟨?_, ?_, ?_, b6⟩
  · simp [State.goOn, b3, e1]
  · simp [State.phaseOk, State.goOn, b1, b2, e2, b7]
  · simp only [State.cfgOk, State.goOn, b4, b5, e3]; rfl

theorem State.Running.waitTicks (s : State) (n) (l : Label) (hb : s.Running) (hl : l ≠ .idle) (hd : l ≠ .decode)
    (hbd : l ≠ .baudDone) : State.Inv (s.waitTicks n l) := by
  obtain ⟨b1,b2,b3,b4,b5,b6,b7⟩ := hb
  refine ⟨?_, ?_, ?_, b6⟩
  · simp [State.waitTicks, b3, portBalanced]
  · simp [State.phaseOk, State.waitTicks, b1, b2, hl, hd, goesOn]
  · simp [State.cfgOk, State.waitTicks, b4, b5, hbd]

theorem State.Running.sampled (s : State) (hb : s.Running) : s.sampled.Running := hb

theorem State.Running.notReceived (s : State) (ops who) (hb : s.Running) (h : okOps ops = true) : State.Inv
    (s.notReceived ops who) := by
  cases who
  · exact State.Running.goOn_finish _ _ _ hb h (by decide)
  · exact State.Running.goOn _ _ _ hb h (by simp) (by simp) (by simp)
  · exact State.Running.goOn _ _ _ hb h (by simp) (by simp) (by simp)


theorem State.running_of_inv (s : State) (hs : s.Inv) (ht : s.todo = []) (hw : s.wait = 0) (hn : s.next ≠ .idle) :
    s.Running := by
  have hp := hs.2.1
  have hbusy : s.busy = true := by
    by_contra hb
    simp [State.phaseOk, hb, hn] at hp
  simp only [State.phaseOk, hbusy, if_true, Bool.and_eq_true, beq_iff_eq] at hp
  have hsel : s.sel = false := by
    have h := hs.1
    rw [ht] at h
    simpa [portBalanced] using h
  have hc := hs.2.2.1
  simp only [State.cfgOk, Bool.and_eq_true] at hc
  exact ⟨hbusy, hp.1, hsel, hc.1.1.1, hc.1.1.2, hs.2.2.2, hw⟩

theorem State.enter_inv (s : State) (hs : s.Inv) (ht : s.todo = []) (hw : s.wait = 0) : s.enter.Inv := by
  by_cases hi : s.next = .idle
  · unfold State.enter; rw [hi]; exact hs
  have hB := s.running_of_inv hs ht hw hi
  have hc := hs.2.2.1
  simp only [State.cfgOk, Bool.and_eq_true] at hc
  have hbd : s.next = .baudDone → baudOk s.arg0 = true := by
    intro h; have := hc.2; simpa [h] using this
  have two : ∀ (ops : List Micro) (f : Fsm) (c : ResultCode), okOps ops = true → c ≠ .pending → State.Inv
      (s.goOn (ops ++ [.setFsm f, .finish c]) .idle) := by
    intro ops f c h hc
    have := State.Running.goOn_finish s (ops ++ [.setFsm f]) c hB (okOps_append _ _ h rfl) hc
    simpa using this
  unfold State.enter
  split
  · exact hs
  · exact hs
  · rename_i hl
    unfold State.atBaudDone
    split
    · exact State.Running.goOn_finish s [] _ hB rfl (by decide)
    · have hok : okOps [.setCfgBaud s.arg0] = true := by
        simp [okOps, portBalanced, goesOn, Micro.isTransfer, Micro.isFinish, Micro.cfgOk, hbd hl]
      have := State.Running.goOn_finish s (writeBaud s.params s.baud ++ [.setCfgBaud s.arg0]) .ok hB
          (okOps_append _ _ (okOps_writeBaud _ _) hok) (by decide)
      simpa using this
  · have := two (bootRest s.params s.baud s.cfgChannel s.cfgSignature) .idle (bootResult s.baud)
      (okOps_bootRest _ _ _ _) (by unfold bootResult; split <;> decide)
    exact this
  · unfold State.atSendHead
    split
    · exact State.Running.goOn _ _ _ hB rfl (by simp) (by simp) (by simp)
    · exact State.Running.goOn _ _ _ hB rfl (by simp) (by simp) (by simp)
  · unfold State.atSendSample
    split
    · exact State.Running.goOn _ _ _ (State.Running.sampled s hB) rfl (by simp) (by simp) (by simp)
    · exact State.Running.waitTicks _ _ _ (State.Running.sampled s hB) (by simp) (by simp) (by simp)
  · unfold State.atSendStatus
    split
    · exact State.Running.goOn _ _ _ hB rfl (by simp) (by simp) (by simp)
    · exact State.Running.waitTicks _ _ _ hB (by simp) (by simp) (by simp)
  · unfold State.atSendSent
    split
    · exact State.Running.goOn _ _ _ hB rfl (by simp) (by simp) (by simp)
    · exact two [] _ _ rfl (by decide)
  · unfold State.atSendTimeout
    refine two _ _ _ ?_ (by decide)
    split <;> rfl
  · unfold State.atWaitHead
    split
    · exact two _ _ _ rfl (by decide)
    · exact State.Running.goOn _ _ _ hB rfl (by simp) (by simp) (by simp)
  · unfold State.atRxSample
    split
    · exact State.Running.goOn _ _ _ (State.Running.sampled s hB) rfl (by simp) (by simp) (by simp)
    · exact State.Running.notReceived _ _ _ (State.Running.sampled s hB) rfl
  · unfold State.atRxStatus
    split
    · split
      · exact two _ _ _ rfl (by decide)
      · exact two _ _ _ rfl (by decide)
      · exact State.Running.goOn _ _ _ hB rfl (by simp) (by simp) (by simp)
    · split
      · exact State.Running.notReceived _ _ _ hB rfl
      · exact State.Running.notReceived _ _ _ hB rfl
  · exact State.Running.waitTicks _ _ _ hB (by simp) (by simp) (by simp)
  · unfold State.atFetch
    split
    · have := State.Running.goOn_finish s (readBurst s.params (regByte s.params.regs.fifo) s.received.toNat ++
        clearRx s.params ++ [.storeRx] ++ [.setFsm .idle]) .packet hB rfl (by decide)
      simpa using this
    · have := State.Running.goOn_finish s (readBurst s.params (regByte s.params.regs.fifo) s.received.toNat ++
        clearRx s.params ++ [.storeRx]) .ok hB rfl (by decide)
      simpa using this
  · exact State.Running.goOn _ _ _ hB rfl (by simp) (by simp) (by simp)
  · unfold State.atPorTest
    split
    · exact State.Running.goOn _ _ _ hB (okOps_bootFirst _ _ _) (by simp) (by simp) (by simp)
    · split
      · exact two [] _ _ rfl (by decide)
      · exact State.Running.waitTicks _ _ _ hB (by simp) (by simp) (by simp)
  · exact State.Running.waitTicks _ _ _ hB (by simp) (by simp) (by simp)
  · exact State.Running.goOn _ _ _ hB rfl (by simp) (by simp) (by simp)
  · exact State.Running.waitTicks _ _ _ hB (by simp) (by simp) (by simp)
  · exact State.Running.goOn _ _ _ hB rfl (by simp) (by simp) (by simp)


theorem endsCommand_cons (op : Micro) (rest : List Micro) (h : endsCommand (op :: rest) = true) :
   (∃ c, op = .finish c ∧ c ≠ .pending ∧ rest = []) ∨ (op.isFinish = false ∧ endsCommand rest = true) := by
  cases rest with
  | nil =>
    left; simp [endsCommand] at h
    cases op <;> simp [Micro.isFinish] at h
    exact ⟨_, rfl, h, rfl⟩
  | cons a r => right; simpa [endsCommand] using h

theorem goesOn_frame (d h : Byte) (sent) : goesOn (frameSteps d h sent) = true := by
  simp only [frameSteps, writeWindow, readWindow, goesOn]
  split <;> simp [Micro.isFinish]
theorem cfgOk_frame (d h : Byte) (sent) : (frameSteps d h sent).all Micro.cfgOk = true := by
  simp only [frameSteps, writeWindow, readWindow]
  split <;> simp [Micro.cfgOk]

theorem endsCommand_append (a b : List Micro) (ha : goesOn a = true) (hb : endsCommand b = true) : endsCommand
    (a ++ b) = true := by
  induction a with
  | nil => exact hb
  | cons op a ih =>
    simp only [goesOn, List.all_cons, Bool.and_eq_true] at ha
    have := ih ha.2
    rw [List.cons_append]
    cases h : a ++ b with
    | nil => rw [h] at this; simp [endsCommand] at this
    | cons x xs => simp only [endsCommand]; rw [ha.1, ← h, this]; rfl

/-- With an operation left, the command runs and is not blocked. -/
theorem State.phaseOk_cons (s : State) (op rest) (ht : s.todo = op :: rest) (h : s.phaseOk = true) :
   s.busy = true ∧ s.code = .pending ∧ s.wait = 0 ∧ ((s.next = .idle ∧ endsCommand (op :: rest) = true) ∨
       (s.next ≠ .idle ∧ s.next ≠ .decode ∧ goesOn (op :: rest) = true)) := by
  simp only [State.phaseOk, ht] at h
  split at h
  · rename_i hb
    simp only [Bool.and_eq_true, beq_iff_eq] at h
    refine ⟨hb, h.1, ?_⟩
    have h2 := h.2
    split at h2
    · rename_i hn
      simp at h2
      exact ⟨h2.1, .inl ⟨hn, h2.2⟩⟩
    · split at h2
      · simp at h2
      · rename_i hn hd
        simp at h2
        exact ⟨h2.2, .inr ⟨hn, hd, h2.1⟩⟩
  · simp at h

theorem State.phaseOk_intro (s : State) (hb : s.busy = true) (hc : s.code = .pending) (hw : s.wait = 0)
    (h : (s.next = .idle ∧ endsCommand s.todo = true) ∨ (s.next ≠ .idle ∧ s.next ≠ .decode ∧ goesOn s.todo = true))
    : s.phaseOk = true := by
  rcases h with ⟨hn, he⟩ | ⟨hn, hd, hg⟩
  · simp [State.phaseOk, hb, hc, hw, hn, he]
  · simp [State.phaseOk, hb, hc, hw, hn, hd, hg]

theorem State.cfgOk_intro (s : State) (h1 : freqOk s.cfgFreq = true) (h2 : baudOk s.cfgBaud = true)
    (h3 : s.todo.all Micro.cfgOk = true) (h4 : s.next = .baudDone → baudOk s.arg0 = true) : s.cfgOk = true := by
  simp only [State.cfgOk, h1, h2, h3, Bool.true_and]
  by_cases h : s.next = .baudDone <;> simp [h]; exact h4 h

theorem State.cfgOk_elim (s : State) (h : s.cfgOk = true) : freqOk s.cfgFreq = true ∧ baudOk s.cfgBaud = true ∧
    s.todo.all Micro.cfgOk = true ∧ (s.next = .baudDone → baudOk s.arg0 = true) := by
  simp only [State.cfgOk, Bool.and_eq_true] at h
  refine ⟨h.1.1.1, h.1.1.2, h.1.2, ?_⟩
  intro hn; have := h.2; simpa [hn] using this

theorem State.frame_inv (s : State) (hs : s.Inv) (header sent rest) (ht : s.todo = .frame header sent :: rest) :
    State.Inv { s with todo := frameSteps s.params.readDummy header sent ++ rest } := by
  obtain ⟨hb, hc, hw, hcase⟩ := State.phaseOk_cons s _ _ ht hs.2.1
  obtain ⟨c1,c2,c3,c4⟩ := State.cfgOk_elim s hs.2.2.1
  have hp := hs.1
  rw [ht] at hp c3
  simp only [portBalanced, Micro.isTransfer, Bool.and_eq_true] at hp
  have hsel : s.sel = false := by simpa using hp.1
  refine ⟨?_, State.phaseOk_intro _ hb hc hw ?_, State.cfgOk_intro _ c1 c2 ?_ c4, hs.2.2.2⟩
  · rw [hsel] at hp ⊢
    exact portBalanced_frame _ _ _ _ hp.2
  · rcases hcase with ⟨h1, h2⟩ | ⟨h1, h2, h3⟩
    · left; refine ⟨h1, endsCommand_append _ _ (goesOn_frame _ _ _) ?_⟩
      rcases endsCommand_cons _ _ h2 with ⟨c, hf, -⟩ | ⟨-, h⟩
      · cases hf
      · exact h
    · right; refine ⟨h1, h2, ?_⟩
      simp only [goesOn, List.all_append, List.all_cons, Bool.and_eq_true] at h3 ⊢
      exact ⟨goesOn_frame _ _ _, h3.2⟩
  · simp only [List.all_append, List.all_cons, Bool.and_eq_true] at c3 ⊢
    exact ⟨cfgOk_frame _ _ _, c3.2⟩

theorem State.micro_inv (s : State) (hs : s.Inv) (op rest) (ht : s.todo = op :: rest) : State.Inv
    (({ s with todo := rest } : State).micro op) := by
  by_cases hf : op.isFrame = true
  · cases op <;> simp [Micro.isFrame] at hf
    exact State.frame_inv s hs _ _ rest ht
  obtain ⟨hb, hc, hw, hcase⟩ := State.phaseOk_cons s _ _ ht hs.2.1
  obtain ⟨c1,c2,c3,c4⟩ := State.cfgOk_elim s hs.2.2.1
  have hp := hs.1
  rw [ht] at hp c3
  simp only [List.all_cons, Bool.and_eq_true] at c3
  by_cases hfin : ∃ c, op = .finish c
  · obtain ⟨c, rfl⟩ := hfin
    have : c ≠ .pending ∧ rest = [] := by
      rcases hcase with ⟨h1, h2⟩ | ⟨h1, h2, h3⟩
      · rcases endsCommand_cons _ _ h2 with ⟨c', hf, h3, h4⟩ | ⟨h, -⟩
        · injection hf with hf; subst hf; exact ⟨h3, h4⟩
        · simp [Micro.isFinish] at h
      · simp [goesOn, Micro.isFinish] at h3
    obtain ⟨hcp, rfl⟩ := this
    simp only [portBalanced, Micro.isTransfer, Bool.and_eq_true] at hp
    refine ⟨?_, ?_, ?_, hs.2.2.2⟩
    · simp [State.micro, State.finish, portBalanced]; simpa using hp.2
    · simp [State.micro, State.finish, State.phaseOk, hcp, hw]
    · exact State.cfgOk_intro _ c1 c2 rfl (by simp [State.micro, State.finish])
  have hnf : op.isFinish = false := by cases op <;> first | rfl | exact absurd ⟨_, rfl⟩ hfin
  have hrest : (s.next = .idle ∧ endsCommand rest = true) ∨ (s.next ≠ .idle ∧ s.next ≠ .decode ∧ goesOn rest =
      true) := by
    rcases hcase with ⟨h1, h2⟩ | ⟨h1, h2, h3⟩
    · rcases endsCommand_cons _ _ h2 with ⟨c, hq, -⟩ | ⟨-, h⟩
      · exact absurd ⟨c, hq⟩ hfin
      · exact .inl ⟨h1, h⟩
    · simp only [goesOn, List.all_cons, Bool.and_eq_true] at h3
      exact .inr ⟨h1, h2, h3.2⟩
  have hport : portBalanced ((({ s with todo := rest } : State).micro op).sel) rest = true := by
    rcases portBalanced_cons _ _ _ hp with ⟨a, rfl, ha, hb⟩ | ⟨hsl, ha, hb⟩
    · exact hb
    · rw [State.micro_sel _ _ hsl]; exact hb
  have htodo : (({ s with todo := rest } : State).micro op).todo = rest := State.micro_todo _ _ (by simpa using hf)
  have hphase : (({ s with todo := rest } : State).micro op).busy = s.busy ∧
      (({ s with todo := rest } : State).micro op).code = s.code ∧
      (({ s with todo := rest } : State).micro op).next = s.next := by
    cases op <;> first | exact ⟨rfl, rfl, rfl⟩ | exact absurd ⟨_, rfl⟩ hfin
  obtain ⟨p1, p2, p3⟩ := hphase
  refine ⟨by rw [htodo]; exact hport, State.phaseOk_intro _ (p1.trans hb) (p2.trans hc) (by simpa using hw) ?_,
      State.cfgOk_intro _ ?_ ?_ ?_ ?_, ?_⟩
  · rw [p3, htodo]; exact hrest
  · cases op <;> first | exact c1 | (exact c3.1)
  · cases op <;> first | exact c2 | (exact c3.1)
  · rw [htodo]; exact c3.2
  · rw [p3]; intro h; have := c4 h
    have e : (({ s with todo := rest } : State).micro op).arg0 = s.arg0 := by cases op <;> rfl
    rw [e]; exact this
  · cases op <;> first | exact hs.2.2.2 | exact Memory.wf_bufWrite _ _ _ hs.2.2.2

theorem State.ctlStep_inv (s : State) (hs : s.Inv) : s.ctlStep.Inv := by
  unfold State.ctlStep
  split
  · rename_i hw
    split
    · rename_i op rest ht
      exact State.micro_inv s hs op rest ht
    · rename_i ht
      exact State.enter_inv s hs ht hw
  · exact hs

theorem State.run_inv (s : State) (hs : s.Inv) : s.run.Inv := State.run_keeps State.Inv State.ctlStep_inv s hs

theorem State.startCommand_goOn (s : State) (ops l) (hw : s.wait = 0) : s.startCommand ops l = (s.goOn ops l).run
    := by
  unfold State.startCommand State.goOn; rw [← hw]

theorem State.startCommand_inv (s : State) (ops) (l : Label) (hb : s.Running) (h : okOps ops = true)
    (hl : l ≠ .idle) (hd : l ≠ .decode) (hbd : l = .baudDone → baudOk s.arg0 = true) : State.Inv
    (s.startCommand ops l) := by
  rw [State.startCommand_goOn _ _ _ hb.2.2.2.2.2.2]
  exact State.run_inv _ (State.Running.goOn s ops l hb h hl hd hbd)
theorem State.startCommand_finish_inv (s : State) (ops all : List Micro) (c : ResultCode)
    (hall : all = ops ++ [.finish c]) (hb : s.Running) (h : okOps ops = true) (hc : c ≠ .pending) :
    State.Inv (s.startCommand all .idle) := by
  subst hall
  rw [State.startCommand_goOn _ _ _ hb.2.2.2.2.2.2]
  exact State.run_inv _ (State.Running.goOn_finish s ops c hb h hc)

theorem State.Running.bufRead (s : State) (hb : s.Running) (i n) : State.Running (s.bufRead i n).2 := by
  obtain ⟨k, hk⟩ := s.bufRead_state i n
  rw [hk]; exact hb

/-! ### Commands -/

theorem execWriteReg_inv (s t : State) (hb : s.Running) (h : execWriteReg s = .next t) : t.Inv := by
  unfold execWriteReg at h
  injection h with h
  subst h
  exact State.startCommand_finish_inv s (writeReg s.opAddr s.opValue) _ .ok (by simp) hb rfl (by simp)

theorem execReadReg_inv (s t : State) (hb : s.Running) (h : execReadReg s = .next t) : t.Inv := by
  unfold execReadReg at h
  injection h with h
  subst h
  exact State.startCommand_finish_inv s (readReg s.params s.opAddr ++ [.setData, .storeRx]) _ .ok (by simp) hb rfl
      (by simp)

theorem execWriteBurst_inv (s t : State) (hb : s.Running) (h : execWriteBurst s = .next t) : t.Inv := by
  unfold execWriteBurst at h
  injection h with h
  subst h
  split
  · exact State.startCommand_finish_inv s [] _ .badArg (by simp) hb rfl (by simp)
  · exact State.startCommand_finish_inv _ (writeBurst s.opAddr (s.bufRead 0 s.opCount).1) _ .ok (by simp)
      (State.Running.bufRead s hb _ _) rfl (by simp)

theorem execReadBurst_inv (s t : State) (hb : s.Running) (h : execReadBurst s = .next t) : t.Inv := by
  unfold execReadBurst at h
  injection h with h
  subst h
  split
  · exact State.startCommand_finish_inv s [] _ .badArg (by simp) hb rfl (by simp)
  · exact State.startCommand_finish_inv s (readBurst s.params s.opAddr s.opCount ++ [.storeRx]) _ .ok (by simp) hb
      rfl (by simp)

theorem execSetFrequency_inv (s t : State) (hb : s.Running) (h : execSetFrequency s = .next t) : t.Inv := by
  unfold execSetFrequency at h
  injection h with h
  subst h
  split
  · rename_i hf
    have hf' : freqOk s.arg0 = true := by
      have := s.freqInRange_iff.mp hf
      unfold freqOk; simp only [Bool.and_eq_true, decide_eq_true_eq]; exact this
    refine State.startCommand_finish_inv s (writeFrequency s.params s.opFreq ++ [.setCfgFreq s.arg0]) _ .ok
        (by simp) hb (okOps_append _ _ rfl ?_) (by simp)
    simp [okOps, portBalanced, goesOn, Micro.isTransfer, Micro.isFinish, Micro.cfgOk, hf']
  · exact State.startCommand_finish_inv s [] _ .ignored (by simp) hb rfl (by simp)

theorem execSetSignature_inv (s t : State) (hb : s.Running) (h : execSetSignature s = .next t) : t.Inv := by
  unfold execSetSignature at h
  injection h with h
  subst h
  exact State.startCommand_finish_inv s (writeSignature s.params s.opSignature ++ [.setCfgSignature s.opSignature])
      _ .ok (by simp) hb rfl (by simp)

theorem execSetChannel_inv (s t : State) (hb : s.Running) (h : execSetChannel s = .next t) : t.Inv := by
  unfold execSetChannel at h
  injection h with h
  subst h
  exact State.startCommand_finish_inv s (writeChannel s.params s.opChannel ++ [.setCfgChannel s.opChannel]) _ .ok
      (by simp) hb rfl (by simp)

theorem execSetBaudRate_inv (s t : State) (hb : s.Running) (h : execSetBaudRate s = .next t) : t.Inv := by
  unfold execSetBaudRate at h
  injection h with h
  subst h
  split
  · rename_i hf
    have hf' : baudOk s.arg0 = true := by
      have := s.baudInRange_iff.mp hf
      unfold baudOk; simp only [Bool.and_eq_true, decide_eq_true_eq]; exact this
    exact State.startCommand_inv s _ .baudDone hb rfl (by simp) (by simp) (fun _ => hf')
  · exact State.startCommand_finish_inv s [] _ .ignored (by simp) hb rfl (by simp)

theorem execSwitchMode_inv (s t : State) (hb : s.Running) (h : execSwitchMode s = .next t) : t.Inv := by
  unfold execSwitchMode at h
  injection h with h
  subst h
  exact State.startCommand_finish_inv s (switchMode s.params s.opMode) _ .ok (by simp) hb rfl (by simp)

theorem execClearTxFifo_inv (s t : State) (hb : s.Running) (h : execClearTxFifo s = .next t) : t.Inv := by
  unfold execClearTxFifo at h
  injection h with h
  subst h
  exact State.startCommand_finish_inv s (clearTx s.params) _ .ok (by simp) hb rfl (by simp)

theorem execClearRxFifo_inv (s t : State) (hb : s.Running) (h : execClearRxFifo s = .next t) : t.Inv := by
  unfold execClearRxFifo at h
  injection h with h
  subst h
  exact State.startCommand_finish_inv s (clearRx s.params) _ .ok (by simp) hb rfl (by simp)

theorem execClearFifo_inv (s t : State) (hb : s.Running) (h : execClearFifo s = .next t) : t.Inv := by
  unfold execClearFifo at h
  injection h with h
  subst h
  exact State.startCommand_finish_inv s (clearBoth s.params) _ .ok (by simp) hb rfl (by simp)

theorem execSendPacket_inv (s t : State) (hb : s.Running) (h : execSendPacket s = .next t) : t.Inv := by
  unfold execSendPacket at h
  injection h with h
  subst h
  exact State.startCommand_inv _ _ .sendHead (State.Running.bufRead s hb _ _) rfl (by simp) (by simp) (by simp)

theorem execWaitForPacket_inv (s t : State) (hb : s.Running) (h : execWaitForPacket s = .next t) : t.Inv := by
  unfold execWaitForPacket at h
  injection h with h
  subst h
  exact State.startCommand_inv s _ (.waitHead .waitCommand) hb rfl (by simp) (by simp) (by simp)

theorem execStartListening_inv (s t : State) (hb : s.Running) (h : execStartListening s = .next t) : t.Inv := by
  unfold execStartListening at h
  injection h with h
  subst h
  exact State.startCommand_finish_inv s (listen s.params .listening) _ .ok (by simp) hb rfl (by simp)

theorem execIsPacketReceived_inv (s t : State) (hb : s.Running) (h : execIsPacketReceived s = .next t) : t.Inv := by
  unfold execIsPacketReceived at h
  injection h with h
  subst h
  exact State.startCommand_inv s _ (.rxSample .once) hb rfl (by simp) (by simp) (by simp)

theorem execGetPacketReceived_inv (s t : State) (hb : s.Running) (h : execGetPacketReceived s = .next t) : t.Inv := by
  unfold execGetPacketReceived at h
  injection h with h
  subst h
  exact State.startCommand_inv s _ (.fetch false) hb rfl (by simp) (by simp) (by simp)

theorem execBoot_inv (s t : State) (hb : s.Running) (h : execBoot s = .next t) : t.Inv := by
  unfold execBoot at h
  injection h with h
  subst h
  exact State.startCommand_inv s _ .bootBaud hb (okOps_append _ _ rfl (okOps_bootFirst _ _ _)) (by simp) (by simp)
      (by simp)

theorem execSoftwareReset_inv (s t : State) (hb : s.Running) (h : execSoftwareReset s = .next t) : t.Inv := by
  unfold execSoftwareReset at h
  injection h with h
  subst h
  exact State.startCommand_inv s _ .porHead hb rfl (by simp) (by simp) (by simp)

theorem execHardwareReset_inv (s t : State) (hb : s.Running) (h : execHardwareReset s = .next t) : t.Inv := by
  unfold execHardwareReset at h
  injection h with h
  subst h
  exact State.startCommand_inv s _ .sdnOff hb rfl (by simp) (by simp) (by simp)

/-- A command that begins keeps the invariant. -/
theorem exec_inv (i : Instr) (s t : State) (hi : isCommand i = true) (hb : s.Running) (h : exec i s = .next t) :
    t.Inv := by
  cases i with
  | writeReg => exact execWriteReg_inv s t hb h
  | readReg => exact execReadReg_inv s t hb h
  | writeBurst => exact execWriteBurst_inv s t hb h
  | readBurst => exact execReadBurst_inv s t hb h
  | setFrequency => exact execSetFrequency_inv s t hb h
  | setSignature => exact execSetSignature_inv s t hb h
  | setChannel => exact execSetChannel_inv s t hb h
  | setBaudRate => exact execSetBaudRate_inv s t hb h
  | switchMode => exact execSwitchMode_inv s t hb h
  | clearTxFifo => exact execClearTxFifo_inv s t hb h
  | clearRxFifo => exact execClearRxFifo_inv s t hb h
  | clearFifo => exact execClearFifo_inv s t hb h
  | sendPacket => exact execSendPacket_inv s t hb h
  | waitForPacket => exact execWaitForPacket_inv s t hb h
  | startListening => exact execStartListening_inv s t hb h
  | isPacketReceived => exact execIsPacketReceived_inv s t hb h
  | getPacketReceived => exact execGetPacketReceived_inv s t hb h
  | boot => exact execBoot_inv s t hb h
  | softwareReset => exact execSoftwareReset_inv s t hb h
  | hardwareReset => exact execHardwareReset_inv s t hb h
  | busWrite _ _ => simp [isCommand] at hi
  | busRead _ _ => simp [isCommand] at hi

/-- A bus frame that is next keeps it. -/
theorem exec_frame_inv (s : State) (hs : s.Inv) (header sent rest) (ht : s.todo = .frame header sent :: rest)
    (t : State) (h : exec (decodeFrame header sent) { s with todo := rest } = .next t) : t.Inv := by
  obtain ⟨-, -, hw, -⟩ := State.phaseOk_cons s _ _ ht hs.2.1
  rw [exec_decodeFrame, Host.Outcome.next.injEq] at h
  subst h
  exact State.transact_keeps State.Inv State.ctlStep_inv ({ s with todo := rest } : State) hw _
    (frameSteps_noFrame _ _ _) (State.frame_inv s hs header sent rest ht)

theorem State.inv_of_eq (s t : State) (hs : s.Inv) (h1 : t.busy = s.busy) (h2 : t.code = s.code)
    (h3 : t.sel = s.sel) (h4 : t.todo = s.todo) (h5 : t.next = s.next) (h6 : t.wait = s.wait)
    (h7 : t.cfgFreq = s.cfgFreq) (h8 : t.cfgBaud = s.cfgBaud) (h9 : t.arg0 = s.arg0)
    (h10 : Memory.wf t.databuf = true) : t.Inv := by
  refine ⟨?_, ?_, ?_, h10⟩
  · rw [h3, h4]; exact hs.1
  · have := hs.2.1; simp only [State.phaseOk] at *; rw [h1,h2,h4,h5,h6]; exact this
  · have := hs.2.2.1; simp only [State.cfgOk] at *; rw [h4,h5,h7,h8,h9]; exact this

theorem State.idle_of_inv (s : State) (hs : s.Inv) (hb : s.busy = false) : s.next = .idle ∧ s.todo = [] ∧ s.wait =
    0 ∧ s.sel = false ∧ s.code ≠ .pending := by
  have := hs.2.1
  simp [State.phaseOk, hb] at this
  have hp := hs.1
  rw [this.1.2] at hp
  simp [portBalanced] at hp
  exact ⟨this.1.1.2, this.1.2, this.2, hp, this.1.1.1⟩

theorem State.issue_inv (s : State) (hs : s.Inv) (hb : s.busy = false) (w) : State.Inv (s.issue w) := by
  obtain ⟨i1,i2,i3,i4,i5⟩ := State.idle_of_inv s hs hb
  obtain ⟨c1,c2,c3,c4⟩ := State.cfgOk_elim s hs.2.2.1
  refine ⟨by simp [State.issue, i4, portBalanced], by simp [State.issue, State.phaseOk], State.cfgOk_intro _ c1 c2
      rfl (by simp [State.issue]), hs.2.2.2⟩

theorem State.guarded_inv (s t : State) (hs : s.Inv) (h : s.busy = false → t.Inv) : State.Inv (s.guarded t) := by
  unfold State.guarded
  split
  · exact State.inv_of_eq s _ hs rfl rfl rfl rfl rfl rfl rfl rfl rfl hs.2.2.2
  · rename_i hb; exact h (by simpa using hb)

theorem State.hostReadsOpen_inv (s : State) (hs : s.Inv) (m w : Word) : (s.hostReadsOpen m w).Inv :=
  State.inv_of_eq s _ hs rfl rfl rfl rfl rfl rfl rfl rfl rfl hs.2.2.2

theorem State.hostReads_inv (s : State) (hs : s.Inv) (w : Word) : (s.hostReads w).Inv :=
  State.inv_of_eq s _ hs rfl rfl rfl rfl rfl rfl rfl rfl rfl hs.2.2.2

theorem State.hostReadsResult_inv (s : State) (hs : s.Inv) (w m : Word) : (s.hostReadsResult w m).Inv := by
  unfold State.hostReadsResult
  split
  · exact s.hostReadsOpen_inv hs _ _
  · exact s.hostReads_inv hs _

theorem State.hostReadsBuf_inv (s : State) (hs : s.Inv) (i : Nat) : (s.hostReadsBuf i).Inv := by
  unfold State.hostReadsBuf
  split
  · exact s.hostReadsOpen_inv hs _ _
  · refine State.hostReads_inv _ ?_ _
    obtain ⟨k, hk⟩ := s.bufRead_state i 4
    rw [hk]
    exact State.inv_of_eq s _ hs rfl rfl rfl rfl rfl rfl rfl rfl rfl hs.2.2.2

theorem State.hostLoad_inv (s : State) (hs : s.Inv) (offset : Nat) : (s.hostLoad offset).Inv := by
  unfold State.hostLoad
  split
  all_goals first | exact s.hostReads_inv hs _ | exact s.hostReadsResult_inv hs _ _ | skip
  · split
    · exact s.hostReadsOpen_inv hs _ _
    · exact s.hostReads_inv hs _
  · split
    · exact s.hostReadsBuf_inv hs _
    · exact s.hostReads_inv hs _

theorem State.bufStore_inv (s : State) (hs : s.Inv) (i : Nat) (d : List Byte) :
    State.Inv { s with databuf := bufWrite s.databuf i d } :=
  State.inv_of_eq s _ hs rfl rfl rfl rfl rfl rfl rfl rfl rfl (Memory.wf_bufWrite s.databuf i d hs.2.2.2)

theorem State.hostStore_inv (s : State) (hs : s.Inv) (offset : Nat) (w : Word) : (s.hostStore offset w).Inv := by
  unfold State.hostStore
  split
  · exact State.guarded_inv s _ hs (fun hb => State.issue_inv s hs hb w)
  · refine State.guarded_inv s _ hs (fun hb => ?_)
    obtain ⟨h1, -, -, -, -⟩ := State.idle_of_inv s hs hb
    obtain ⟨c1, c2, c3, -⟩ := State.cfgOk_elim s hs.2.2.1
    exact ⟨hs.1, hs.2.1, State.cfgOk_intro _ c1 c2 c3 (by simp [h1]), hs.2.2.2⟩
  · exact State.guarded_inv s _ hs (fun _ => State.inv_of_eq s _ hs rfl rfl rfl rfl rfl rfl rfl rfl rfl hs.2.2.2)
  · exact State.inv_of_eq s _ hs rfl rfl rfl rfl rfl rfl rfl rfl rfl hs.2.2.2
  · split
    · exact State.guarded_inv s _ hs (fun _ => s.bufStore_inv hs _ _)
    · exact hs

/-- A host access that the block answers keeps it. -/
theorem State.hostMove_inv (s t : State) (hs : s.Inv) (a : HostAccess) (h : s.hostMove a = .next t) : t.Inv := by
  cases a with
  | load addr size =>
    simp only [State.hostMove] at h
    split at h
    · split at h
      · injection h with h; subst h; exact s.hostLoad_inv hs _
      · cases h
    · injection h with h; subst h; exact s.hostReadsOpen_inv hs _ _
  | store addr size w =>
    simp only [State.hostMove] at h
    split at h
    · split at h
      · injection h with h; subst h; exact s.hostStore_inv hs _ w
      · cases h
    · injection h with h; subst h; exact hs

/-- A tick keeps it. -/
theorem State.tickOnce_inv (s : State) (hs : s.Inv) : s.tickOnce.Inv := by
  obtain ⟨c1, c2, c3, c4⟩ := State.cfgOk_elim s hs.2.2.1
  refine ⟨hs.1, ?_, State.cfgOk_intro _ c1 c2 c3 c4, hs.2.2.2⟩
  have h := hs.2.1
  cases hb : s.busy
  · simp only [State.phaseOk, State.tickOnce, hb, Bool.false_eq_true, if_false, Bool.and_eq_true, beq_iff_eq] at h ⊢
    exact ⟨h.1, by omega⟩
  · by_cases hi : s.next = .idle
    · simp only [State.phaseOk, State.tickOnce, hb, hi, if_true, Bool.and_eq_true, beq_iff_eq] at h ⊢
      exact ⟨h.1, by omega, h.2.2⟩
    · by_cases hd : s.next = .decode
      · simp [State.phaseOk, State.tickOnce, hb, hd] at h ⊢
        exact ⟨h.1, by omega, h.2.2⟩
      · simp [State.phaseOk, State.tickOnce, hb, hi, hd] at h ⊢
        exact ⟨h.1, h.2.1, h.2.2.imp (by omega) id⟩

end Sys2Proof.Machine
end

