-- ==== Sys2Proof/Laws/Schedule.lean ====
section
/-! SUPPORT. Runs of several steps over a schedule whose moves are listed. -/

namespace Sys2Proof.Machine

theorem run_succ (k : Nat) (s t : State) (h : step s = .next t) :
    Host.Core.run Sys2Proof.core (k + 1) s = Host.Core.run Sys2Proof.core k t := by
  have h' : Sys2Proof.core.step s = .next t := h
  simp only [Host.Core.run, h']

theorem State.nextEvent_of (s : State) (e : Event) (rest : List Event) (h : s.events.script = e :: rest) :
    s.nextEvent = e := by
  simp [State.nextEvent, Tape.head, h]

theorem State.moved_script (s : State) (e : Event) (rest : List Event) (h : s.events.script = e :: rest) :
    s.moved.events.script = rest := by
  simp [State.moved, Tape.advance, h]

theorem State.nextLevel_of (s : State) (l : Level) (rest : List Level) (h : s.levels.script = l :: rest) :
    s.nextLevel = l := by
  simp [State.nextLevel, Tape.head, h]

/-- The ticks of a whole WaitTicks. -/
theorem run_ticks (n : Nat) (s : State) (rest : List Event) (h : s.events.script = List.replicate n .tick ++ rest)
    (hw : s.wait = n) :
    ∃ t : State, (∀ k, Host.Core.run Sys2Proof.core (n + k) s = Host.Core.run Sys2Proof.core k t) ∧
      t = { s with tick := s.tick + BitVec.ofNat 32 n, wait := 0, events := ⟨rest, s.events.used⟩ } := by
  induction n generalizing s with
  | zero =>
    refine ⟨s, by simp, ?_⟩
    simp only [List.replicate_zero, List.nil_append] at h
    cases s; simp_all
    rename_i events _ _ _ _ _; cases events; simp_all
  | succ n ih =>
    rw [List.replicate_succ, List.cons_append] at h
    obtain ⟨t, ht1, ht2⟩ := ih s.moved.tickOnce (s.moved_script _ _ h) (by simp [State.tickOnce, State.moved, hw])
    refine ⟨t, fun k => ?_, ?_⟩
    · rw [show n + 1 + k = (n + k) + 1 by omega, run_succ _ _ _ (step_tick s (s.nextEvent_of _ _ h)), ht1]
    · rw [ht2]
      simp only [State.tickOnce, State.moved, Tape.advance, h, BitVec.ofNat_add, BitVec.add_assoc]
      rw [BitVec.add_comm (BitVec.ofNat 32 n)]
      rfl

end Sys2Proof.Machine
end

