-- ==== Sys2Proof/Machine/Fairness.lean ====
section
/-! DEFINITION. Fair schedules (70_reset_and_hazards.md R312) and what a run keeps for its loops to end (R315, log 26).
A schedule is the moves a state's tape gives, the listed ones and then the free ones. That every command ends under
fairness is proved in Laws/Fairness.lean. -/

namespace Sys2Proof.Machine

/-- The move that the schedule gives after `k` more. -/
def State.eventAt (s : State) (k : Nat) : Event := (s.events.skip k).head Config.freeEvent

/-- The move is one of the controller that takes its next step. A move of no step at all is none (log 2). -/
def controls : Event → Bool
  | .controller .toWait => true
  | .controller (.steps n) => n != 0
  | .tick => false
  | .host _ => false
  | .blockReset => false

/-- The controller has a step it can take: it is neither blocked in a WaitTicks nor at IDLE_WAIT (R312 (b)). -/
def State.canStep (s : State) : Bool := s.wait == 0 && (s.todo != [] || s.next != .idle)

/-- `s.Later t`: some steps on from `s`, at `t`, the command that runs in `s` still runs. -/
inductive State.Later (s : State) : State → Prop
  | here : s.Later s
  | step {t u : State} : s.Later t → step t = .next u → u.busy = true → s.Later u

/-- The schedule is fair to the command that runs in `s` (R312): wherever it still runs (a) a later tick always comes, and
(b) while the controller has a step it can take, it eventually takes it. The chip (c) and the host (d) are under no
fairness: nothing is said of them. -/
structure State.Fair (s : State) : Prop where
  ticks : ∀ t, s.Later t → ∃ k, t.eventAt k = .tick
  moves : ∀ t, s.Later t → t.canStep = true → ∃ k, controls (t.eventAt k) = true

/-- Nothing from outside cuts the run short: no block reset, which abandons the command (R300, R314), and no host access
of a form that R63 refuses. -/
def State.Undisturbed (s : State) : Prop :=
  ∀ t, s.Later t → t.nextEvent ≠ .blockReset ∧ ∀ a, t.nextEvent = .host a → ∃ u, t.moved.hostMove a = .next u

/-- A position of the loop of SendPoll (44_packet.md R204). -/
def Label.inSendLoop : Label → Bool
  | .sendHead | .sendSample | .sendStatus => true
  | .idle | .decode | .baudDone | .bootBaud | .sendSent | .sendTimeout | .waitHead _ | .rxSample _ | .rxStatus _ => false
  | .pollSleep _ | .fetch _ | .porHead | .porTest | .sdnOff | .sdnRelease | .sdnOn | .porStart => false

/-- A position of the loop of WaitProc (R206). The one check of IS_PACKET_RECEIVED is in no loop. -/
def Label.inWaitLoop : Label → Bool
  | .waitHead who | .rxSample who | .rxStatus who | .pollSleep who => who != .once
  | .idle | .decode | .baudDone | .bootBaud | .sendHead | .sendSample | .sendStatus | .sendSent | .sendTimeout => false
  | .fetch _ | .porHead | .porTest | .sdnOff | .sdnRelease | .sdnOn | .porStart => false

/-- A poll loop has begun: `t0` is set. -/
def State.inPoll (s : State) : Bool := (s.next.inSendLoop || s.next.inWaitLoop) && !s.todo.contains .setT0

/-- No loop waits 2^32 ticks (R315): while a poll loop runs, TICK does not come round to `t0` again. -/
def State.Paced (s : State) : Prop :=
  ∀ t, s.Later t → t.inPoll = true → t.nextEvent = .tick → t.elapsed + 1 < 2 ^ 32

/-- The power-on-reset poll lies ahead or runs, and no read of it has shown the bit (45_bootstrap.md R251 to R254). -/
def State.awaitsPor (s : State) : Bool :=
  match s.next with
  | .sdnOff | .sdnRelease | .sdnOn | .porStart | .porHead => true
  | .porTest => s.todo != [] || s.wait != 0 || s.received &&& s.params.maskPor == 0
  | .decode => decodeWord s.cmd == some .softwareReset || decodeWord s.cmd == some .hardwareReset
  | .idle | .baudDone | .bootBaud | .sendHead | .sendSample | .sendStatus | .sendSent | .sendTimeout => false
  | .waitHead _ | .rxSample _ | .rxStatus _ | .pollSleep _ | .fetch _ => false

/-- The command of `s` is not one that may poll forever (R308): the poll has a limit, or none lies ahead. -/
def State.endsAnyway (s : State) : Bool := s.params.porLimit != none || !s.awaitsPor

end Sys2Proof.Machine
end

