-- ==== Sys2Proof/Laws/Fairness.lean ====
section
/-! SUPPORT. Every command ends under fairness (70_reset_and_hazards.md R312): each step the controller takes, and each
tick of a wait, lowers one measure of what is left. -/

namespace Sys2Proof.Machine

/-! ### The measure -/

/-- The order on measures: the first component that differs decides. -/
def Lower (a b : Nat × Nat × Nat × Nat × Nat) : Prop :=
  a.1 < b.1 ∨ a.1 = b.1 ∧ (a.2.1 < b.2.1 ∨ a.2.1 = b.2.1 ∧ (a.2.2.1 < b.2.2.1 ∨ a.2.2.1 = b.2.2.1 ∧
    (a.2.2.2.1 < b.2.2.2.1 ∨ a.2.2.2.1 = b.2.2.2.1 ∧ a.2.2.2.2 < b.2.2.2.2)))

theorem lower_wf : WellFounded Lower := by
  refine Subrelation.wf (r := Prod.Lex (· < ·) (Prod.Lex (· < ·) (Prod.Lex (· < ·) (Prod.Lex (· < ·) (· < ·))))) ?_
    (WellFounded.prod_lex Nat.lt_wfRel.wf (WellFounded.prod_lex Nat.lt_wfRel.wf (WellFounded.prod_lex Nat.lt_wfRel.wf
      (WellFounded.prod_lex Nat.lt_wfRel.wf Nat.lt_wfRel.wf))))
  rintro ⟨a1, a2, a3, a4, a5⟩ ⟨b1, b2, b3, b4, b5⟩ h
  simp only [Lower] at h
  simp only [Prod.lex_def]
  exact h

theorem Lower.trans {a b c : Nat × Nat × Nat × Nat × Nat} (h : Lower a b) (g : Lower b c) : Lower a c := by
  simp only [Lower] at *; omega

/-- How far a command is from its end, by its position and whether `t0` and `polls` are still to be set. -/
def stageOf (setsT0 clears : Bool) : Label → Nat
  | .idle => 0
  | .baudDone | .bootBaud | .sendTimeout | .fetch _ => 1
  | .waitHead .once | .rxSample .once | .rxStatus .once | .pollSleep .once => 1
  | .porHead | .porTest => if clears then 3 else 2
  | .porStart => 4
  | .sdnOn => 5
  | .sdnRelease => 6
  | .sdnOff => 7
  | .waitHead _ | .rxSample _ | .rxStatus _ | .pollSleep _ => if setsT0 then 9 else 8
  | .sendSent => 10
  | .sendHead | .sendSample | .sendStatus => if setsT0 then 12 else 11
  | .decode => 13

/-- What is left of a loop: increments of TICK up to the wrap, or reads of the power-on-reset poll up to its limit. -/
def budgetOf (setsT0 clears : Bool) (elapsed : Nat) (limit : Option Nat) (polls : Nat) : Label → Nat
  | .sendHead | .sendSample | .sendStatus => if setsT0 then 0 else 2 ^ 32 - elapsed
  | .waitHead who | .rxSample who | .rxStatus who | .pollSleep who =>
    if setsT0 || who == .once then 0 else 2 ^ 32 - elapsed
  | .porHead => if clears then 0 else match limit with
    | none => 0
    | some n => 2 * (n - polls) + 1
  | .porTest => if clears then 0 else match limit with
    | none => 0
    | some n => if polls < n then 2 * (n - polls) + 2 else 0
  | .idle | .decode | .baudDone | .bootBaud | .sendSent | .sendTimeout | .fetch _ => 0
  | .sdnOff | .sdnRelease | .sdnOn | .porStart => 0

/-- The place inside a round of a loop. -/
def placeOf : Label → Nat
  | .sendHead => 3
  | .sendSample => 2
  | .sendStatus => 1
  | .waitHead _ => 4
  | .rxSample _ => 3
  | .rxStatus _ => 2
  | .pollSleep who => if who = .once then 5 else 1
  | .idle | .decode | .baudDone | .bootBaud | .sendSent | .sendTimeout | .fetch _ => 0
  | .porHead | .porTest | .sdnOff | .sdnRelease | .sdnOn | .porStart => 0

/-- The micro-operations left, a frame counting for its steps and itself. -/
def weight : List Micro → Nat
  | [] => 0
  | .frame _ sent :: rest => sent.length + 5 + weight rest
  | _ :: rest => 1 + weight rest

def State.setsT0 (s : State) : Bool := s.todo.contains .setT0

def State.clears (s : State) : Bool := s.todo.contains .clearPolls

/-- The polls made once the steps ahead are taken. -/
def State.pollsAhead (s : State) : Nat := s.polls + s.todo.count .countPoll

/-- The measure from what it depends on. -/
def leftOf (setsT0 clears : Bool) (elapsed : Nat) (limit : Option Nat) (polls : Nat) (l : Label) (steps wait : Nat) :
    Nat × Nat × Nat × Nat × Nat :=
  (stageOf setsT0 clears l, budgetOf setsT0 clears elapsed limit polls l,
    if ((l.inSendLoop || l.inWaitLoop) && !setsT0) && wait != 0 then 0 else placeOf l, steps, wait)

/-- What is left of the command that runs. -/
def State.left (s : State) : Nat × Nat × Nat × Nat × Nat :=
  leftOf s.setsT0 s.clears s.elapsed s.params.porLimit s.pollsAhead s.next (weight s.todo) s.wait

theorem leftOf_weight (a b : Bool) (e : Nat) (lim : Option Nat) (p : Nat) (l : Label) (m n w : Nat) (h : m < n) :
    Lower (leftOf a b e lim p l m w) (leftOf a b e lim p l n w) :=
  .inr ⟨rfl, .inr ⟨rfl, .inr ⟨rfl, .inl h⟩⟩⟩

/-- `t0` is set. -/
theorem leftOf_setT0 (a b : Bool) (e f : Nat) (lim : Option Nat) (p : Nat) (l : Label) (m n w : Nat) (h : m < n) :
    Lower (leftOf a b e lim p l m w) (leftOf true b f lim p l n w) := by
  cases l with
  | waitHead who | rxSample who | rxStatus who | pollSleep who =>
    cases who <;> cases a <;> simp [Lower, leftOf, stageOf, budgetOf, Label.inSendLoop, Label.inWaitLoop, h]
  | _ => cases a <;> simp [Lower, leftOf, stageOf, budgetOf, Label.inSendLoop, Label.inWaitLoop, h]

/-- `polls` is cleared. -/
theorem leftOf_clears (a b : Bool) (e : Nat) (lim : Option Nat) (p q : Nat) (l : Label) (m n w : Nat) (h : m < n) :
    Lower (leftOf a b e lim p l m w) (leftOf a true e lim q l n w) := by
  cases l with
  | waitHead who | rxSample who | rxStatus who | pollSleep who =>
    cases who <;> cases b <;> simp [Lower, leftOf, stageOf, budgetOf, h]
  | _ => cases b <;> simp [Lower, leftOf, stageOf, budgetOf, h]

/-! ### Ticks -/

theorem State.elapsed_lt (s : State) : s.elapsed < 2 ^ 32 := (s.tick - s.t0).isLt

theorem State.elapsed_tickOnce (s : State) (h : s.elapsed + 1 < 2 ^ 32) : s.tickOnce.elapsed = s.elapsed + 1 := by
  have e : s.tickOnce.tick - s.tickOnce.t0 = (s.tick - s.t0) + 1 := by
    show s.tick + 1 - s.t0 = _
    rw [BitVec.sub_eq_add_neg, BitVec.sub_eq_add_neg, BitVec.add_assoc, BitVec.add_comm 1, ← BitVec.add_assoc]
  simp only [State.elapsed] at *
  rw [e, BitVec.toNat_add]
  exact Nat.mod_eq_of_lt h

theorem budgetOf_notPoll (s : State) (h : s.inPoll = false) (e e' : Nat) :
    budgetOf s.setsT0 s.clears e s.params.porLimit s.pollsAhead s.next =
      budgetOf s.setsT0 s.clears e' s.params.porLimit s.pollsAhead s.next := by
  simp only [State.inPoll, State.setsT0] at *
  cases hn : s.next <;> simp_all [budgetOf, Label.inSendLoop, Label.inWaitLoop]
  all_goals rename_i who; cases who <;> simp_all

theorem budgetOf_poll (s : State) (h : s.inPoll = true) (e : Nat) :
    budgetOf s.setsT0 s.clears e s.params.porLimit s.pollsAhead s.next = 2 ^ 32 - e := by
  simp only [State.inPoll, State.setsT0] at *
  cases hn : s.next <;> simp_all [budgetOf, Label.inSendLoop, Label.inWaitLoop]

/-- A tick lowers the measure of a command that waits, and never raises it. -/
theorem State.left_tickOnce (s : State) (h : s.inPoll = true → s.elapsed + 1 < 2 ^ 32) :
    Lower s.tickOnce.left s.left ∨ s.wait = 0 ∧ s.tickOnce.left = s.left := by
  by_cases hp : s.inPoll = true
  · left
    have e := s.elapsed_tickOnce (h hp)
    have l := h hp
    right
    refine ⟨rfl, .inl ?_⟩
    show budgetOf _ _ s.tickOnce.elapsed _ _ _ < _
    rw [show budgetOf s.tickOnce.setsT0 s.tickOnce.clears s.tickOnce.elapsed s.tickOnce.params.porLimit
      s.tickOnce.pollsAhead s.tickOnce.next = _ from budgetOf_poll s hp s.tickOnce.elapsed]
    show _ < budgetOf _ _ s.elapsed _ _ _
    rw [budgetOf_poll s hp, e]
    omega
  · have hp' : s.inPoll = false := by simpa using hp
    have hb := budgetOf_notPoll s hp' s.tickOnce.elapsed s.elapsed
    have hl : s.tickOnce.left = (s.left.1, s.left.2.1, s.left.2.2.1, s.left.2.2.2.1, s.wait - 1) := by
      have hq : ((s.next.inSendLoop || s.next.inWaitLoop) && !s.setsT0) = false := hp'
      show leftOf s.setsT0 s.clears s.tickOnce.elapsed s.params.porLimit s.pollsAhead s.next (weight s.todo) _ = _
      simp only [leftOf, State.left, hq, Bool.false_and, Bool.false_eq_true, if_false, hb]
      rfl
    have hs : s.left.2.2.2.2 = s.wait := rfl
    by_cases hw : s.wait = 0
    · right; refine ⟨hw, ?_⟩
      rw [hl, show s.wait - 1 = s.left.2.2.2.2 by rw [hs, hw]]
    · left
      rw [hl]
      exact .inr ⟨rfl, .inr ⟨rfl, .inr ⟨rfl, .inr ⟨rfl, by show s.wait - 1 < s.wait; omega⟩⟩⟩⟩

/-! ### Micro-operations -/

theorem weight_append (a b : List Micro) : weight (a ++ b) = weight a + weight b := by
  induction a with
  | nil => simp [weight]
  | cons op a ih => cases op <;> simp [weight, ih] <;> omega

theorem frameSteps_plain (dummy header : Byte) (sent : List Byte) :
    (frameSteps dummy header sent).contains .setT0 = false ∧ (frameSteps dummy header sent).contains .clearPolls = false ∧
      (frameSteps dummy header sent).count .countPoll = 0 ∧ weight (frameSteps dummy header sent) = sent.length + 3 := by
  have hs : ∀ l : List Byte, weight (l.map Micro.send) = l.length := by
    intro l; induction l with
    | nil => rfl
    | cons b l ih => simp [weight, ih]; omega
  have hr : ∀ n, weight (List.replicate n (Micro.recv dummy)) = n := by
    intro n; induction n with
    | zero => rfl
    | succ n ih => simp [List.replicate_succ, weight, ih]; omega
  simp only [frameSteps, writeWindow, readWindow]
  split
  · simp [weight, weight_append, hs, List.count_eq_zero]; omega
  · simp [weight, weight_append, hr, List.count_eq_zero]; omega

/-- A micro-operation that does not end the command lowers the measure. -/
theorem State.left_micro (s : State) (op : Micro) (rest : List Micro) (ht : s.todo = op :: rest)
    (hf : op.isFinish = false) : Lower (({ s with todo := rest } : State).micro op).left s.left := by
  have hw : ∀ r : List Micro, op.isFrame = false → weight r < weight (op :: r) := by
    intro r _; cases op <;> simp [weight]
  have key : ∀ u : State, u.params = s.params → u.next = s.next → u.wait = s.wait → weight u.todo < weight s.todo →
      u.setsT0 = s.setsT0 → u.clears = s.clears → u.elapsed = s.elapsed → u.pollsAhead = s.pollsAhead →
      Lower u.left s.left := by
    intro u h1 h2 h3 h4 h5 h6 h7 h8
    unfold State.left
    rw [h1, h2, h3, h5, h6, h7, h8]
    exact leftOf_weight _ _ _ _ _ _ _ _ _ h4
  cases op with
  | frame header sent =>
    obtain ⟨f1, f2, f3, f4⟩ := frameSteps_plain s.params.readDummy header sent
    refine key _ rfl rfl rfl ?_ ?_ ?_ rfl ?_
    · rw [ht]
      show weight (frameSteps _ _ _ ++ rest) < sent.length + 5 + weight rest
      rw [weight_append, f4]; omega
    · rw [State.setsT0, State.setsT0, ht]
      show (frameSteps _ _ _ ++ rest).contains .setT0 = _
      rw [List.contains_append, f1]
      simp
    · rw [State.clears, State.clears, ht]
      show (frameSteps _ _ _ ++ rest).contains .clearPolls = _
      rw [List.contains_append, f2]
      simp
    · rw [State.pollsAhead, State.pollsAhead, ht]
      show s.polls + (frameSteps _ _ _ ++ rest).count .countPoll = _
      rw [List.count_append, f3]
      simp
  | setT0 =>
    have e : s.setsT0 = true := by simp [State.setsT0, ht]
    have e2 : (({ s with todo := rest } : State).micro .setT0).clears = s.clears := by
      simp [State.clears, ht, State.micro]
    have e3 : (({ s with todo := rest } : State).micro .setT0).pollsAhead = s.pollsAhead := by
      simp [State.pollsAhead, ht, State.micro]
    unfold State.left
    rw [e, e2, e3, ht]
    exact leftOf_setT0 _ _ _ _ _ _ _ _ _ _ (hw rest rfl)
  | clearPolls =>
    have e : s.clears = true := by simp [State.clears, ht]
    have e2 : (({ s with todo := rest } : State).micro .clearPolls).setsT0 = s.setsT0 := by
      simp [State.setsT0, ht, State.micro]
    unfold State.left
    rw [e, e2, ht]
    exact leftOf_clears _ _ _ _ _ _ _ _ _ _ (hw rest rfl)
  | finish c => simp [Micro.isFinish] at hf
  | countPoll =>
    refine key _ rfl rfl rfl (ht ▸ hw rest rfl) ?_ ?_ rfl ?_ <;>
      simp [State.setsT0, State.clears, State.pollsAhead, State.micro, ht]
    omega
  | _ =>
    refine key _ rfl rfl rfl (ht ▸ hw rest rfl) ?_ ?_ rfl ?_ <;>
      simp [State.setsT0, State.clears, State.pollsAhead, State.micro, State.busSelect, State.busSend, State.busAsk,
        State.busRecv, State.setSdn, State.flagAnomaly, State.emit, ht]

/-! ### Branches -/

/-- What a controller step leaves to do: less than before, and still a command that ends. -/
def State.Shrinks (s t : State) : Prop := Lower t.left s.left ∧ t.endsAnyway = true ∧ t.next ≠ .decode

theorem State.left_of_done (s : State) (ht : s.todo = []) (hw : s.wait = 0) :
    s.left = leftOf false false s.elapsed s.params.porLimit s.polls s.next 0 0 := by
  simp [State.left, State.setsT0, State.clears, State.pollsAhead, ht, hw, weight]

theorem State.endsAnyway_of_limit (s t : State) (h : s.endsAnyway = true) (ha : s.awaitsPor = true)
    (hp : t.params = s.params) : t.endsAnyway = true := by
  simp [State.endsAnyway, ha] at h
  simp [State.endsAnyway, hp, h]

theorem State.endsAnyway_of_not (t : State) (h : t.awaitsPor = false) : t.endsAnyway = true := by
  simp [State.endsAnyway, h]

/-- A branch that goes on to an earlier stage. -/
theorem State.shrinks_goOn (s u : State) (ops : List Micro) (l : Label) (ht : s.todo = []) (hw : s.wait = 0)
    (hd : l ≠ .decode) (h : ∀ a b, stageOf a b l < stageOf false false s.next)
    (he : (u.goOn ops l).endsAnyway = true) : s.Shrinks (u.goOn ops l) :=
  ⟨by rw [s.left_of_done ht hw]; exact .inl (h _ _), he, hd⟩

/-- A branch to a wait in the same or an earlier stage. -/
theorem State.shrinks_waitTicks (s u : State) (n : Nat) (l : Label) (ht : s.todo = []) (hw : s.wait = 0)
    (hd : l ≠ .decode) (he : (u.waitTicks n l).endsAnyway = true)
    (h : Lower (leftOf false false u.elapsed u.params.porLimit u.polls l 0 n)
      (leftOf false false s.elapsed s.params.porLimit s.polls s.next 0 0)) : s.Shrinks (u.waitTicks n l) :=
  ⟨by rw [s.left_of_done ht hw]; exact h, he, hd⟩

/-- The two status reads of a poll lie in the same round. -/
theorem State.shrinks_pollStatus (s u : State) (l : Label) (ht : s.todo = []) (hw : s.wait = 0) (hu : u.wait = 0)
    (hd : l ≠ .decode) (he : (u.goOn (pollStatus u.params) l).endsAnyway = true)
    (h : ∀ n, Lower (leftOf false false u.elapsed u.params.porLimit u.polls l n 0)
      (leftOf false false s.elapsed s.params.porLimit s.polls s.next 0 0)) :
    s.Shrinks (u.goOn (pollStatus u.params) l) := by
  refine ⟨?_, he, hd⟩
  rw [s.left_of_done ht hw, ← hu]
  have := h (weight (pollStatus u.params))
  rw [← hu] at this
  exact this

/-- A branch after the receive check found nothing. -/
theorem State.shrinks_notReceived (s u : State) (ops : List Micro) (who : Poller) (ht : s.todo = []) (hw : s.wait = 0)
    (hu : u.wait = 0) (hn : s.next = .rxSample who ∨ s.next = .rxStatus who) (ho : ops.contains .setT0 = false)
    (hc : ops.contains .clearPolls = false) (hk : ops.count .countPoll = 0) (he : u.elapsed = s.elapsed) :
    s.Shrinks (u.notReceived ops who) := by
  have hl : (u.goOn ops (.pollSleep who)).left =
      leftOf false false s.elapsed u.params.porLimit u.polls (.pollSleep who) (weight ops) 0 := by
    show leftOf (ops.contains .setT0) (ops.contains .clearPolls) u.elapsed _ (u.polls + ops.count .countPoll) _ _ u.wait = _
    rw [ho, hc, hk, he, hu]; rfl
  cases who with
  | once =>
    refine s.shrinks_goOn u _ _ ht hw (by simp) ?_ (State.endsAnyway_of_not _ rfl)
    rcases hn with hn | hn <;> rw [hn] <;> simp [stageOf]
  | _ =>
    refine ⟨?_, State.endsAnyway_of_not _ rfl, by simp [State.notReceived, State.goOn]⟩
    show Lower (u.goOn ops (.pollSleep _)).left _
    rw [hl, s.left_of_done ht hw]
    rcases hn with hn | hn <;> rw [hn] <;>
      simp [Lower, leftOf, stageOf, budgetOf, placeOf, Label.inSendLoop, Label.inWaitLoop]

/-- Every branch of a command lowers the measure. -/
theorem State.shrinks_enter (s : State) (ht : s.todo = []) (hw : s.wait = 0) (hi : s.next ≠ .idle)
    (hd : s.next ≠ .decode) (hp : s.endsAnyway = true) : s.Shrinks s.enter := by
  have go : ∀ (ops : List Micro) (l : Label), l ≠ .decode → (∀ a b, stageOf a b l < stageOf false false s.next) →
      (s.goOn ops l).endsAnyway = true → s.Shrinks (s.goOn ops l) := fun ops l => s.shrinks_goOn s ops l ht hw
  have no : ∀ t : State, t.awaitsPor = false → t.endsAnyway = true := fun t => t.endsAnyway_of_not
  unfold State.enter
  split
  · contradiction
  · contradiction
  · rename_i hn
    unfold State.atBaudDone
    split <;> exact go _ _ (by simp) (by simp [hn, stageOf]) (no _ rfl)
  · rename_i hn
    exact go _ _ (by simp) (by simp [hn, stageOf]) (no _ rfl)
  · rename_i hn
    unfold State.atSendHead
    split
    · exact go _ _ (by simp) (by simp [hn, stageOf]) (no _ rfl)
    · refine ⟨?_, no _ rfl, by simp [State.goOn]⟩
      rw [s.left_of_done ht hw, hn, State.left_of_done (s.goOn [] .sendSample) rfl hw]
      simp [Lower, leftOf, stageOf, budgetOf, placeOf, State.goOn, State.elapsed]
  · rename_i hn
    unfold State.atSendSample
    split
    · refine s.shrinks_pollStatus s.sampled .sendStatus ht hw hw (by simp) (no _ rfl) (fun n => ?_)
      rw [hn]
      simp [Lower, leftOf, stageOf, budgetOf, placeOf, State.sampled, State.elapsed]
    · refine s.shrinks_waitTicks s.sampled 1 _ ht hw (by simp) (no _ rfl) ?_
      rw [hn]
      simp [Lower, leftOf, stageOf, budgetOf, placeOf, State.sampled, State.elapsed, Label.inSendLoop]
  · rename_i hn
    unfold State.atSendStatus
    split
    · exact go _ _ (by simp) (by simp [hn, stageOf]) (no _ rfl)
    · refine s.shrinks_waitTicks s 1 _ ht hw (by simp) (no _ rfl) ?_
      rw [hn]
      simp [Lower, leftOf, stageOf, budgetOf, placeOf, Label.inSendLoop]
  · rename_i hn
    unfold State.atSendSent
    split
    · exact go _ _ (by simp) (by intro a b; cases a <;> simp [hn, stageOf]) (no _ rfl)
    · exact go _ _ (by simp) (by simp [hn, stageOf]) (no _ rfl)
  · rename_i hn
    exact go _ _ (by simp) (by simp [hn, stageOf]) (no _ rfl)
  · rename_i who hn
    unfold State.atWaitHead
    split
    · exact go _ _ (by simp) (by cases who <;> simp [hn, stageOf]) (no _ rfl)
    · refine ⟨?_, no _ rfl, by simp [State.goOn]⟩
      rw [s.left_of_done ht hw, hn, State.left_of_done (s.goOn [] (.rxSample who)) rfl hw]
      cases who <;> simp [Lower, leftOf, stageOf, budgetOf, placeOf, State.goOn, State.elapsed]
  · rename_i who hn
    unfold State.atRxSample
    split
    · refine s.shrinks_pollStatus s.sampled (.rxStatus who) ht hw hw (by simp) (no _ rfl) (fun n => ?_)
      rw [hn]
      cases who <;> simp [Lower, leftOf, stageOf, budgetOf, placeOf, State.sampled, State.elapsed]
    · exact s.shrinks_notReceived s.sampled [] who ht hw hw (.inl hn) rfl rfl rfl rfl
  · rename_i who hn
    unfold State.atRxStatus
    split
    · split <;> rename_i hn <;> exact go _ _ (by simp) (by simp [hn, stageOf]) (no _ rfl)
    · split
      · exact s.shrinks_notReceived s _ who ht hw hw (.inr hn) rfl rfl rfl rfl
      · exact s.shrinks_notReceived s [] who ht hw hw (.inr hn) rfl rfl rfl rfl
  · rename_i who hn
    refine s.shrinks_waitTicks s 1 _ ht hw (by simp) (no _ rfl) ?_
    rw [hn]
    cases who <;> simp [Lower, leftOf, stageOf, budgetOf, placeOf, Label.inSendLoop, Label.inWaitLoop]
  · rename_i ack hn
    exact go _ _ (by simp) (by simp [hn, stageOf]) (no _ rfl)
  · rename_i hn
    have hpor : s.awaitsPor = true := by simp [State.awaitsPor, hn]
    have hl : s.params.porLimit ≠ none := by simpa [State.endsAnyway, hpor] using hp
    refine ⟨?_, s.endsAnyway_of_limit _ hp hpor rfl, by simp [State.atPorHead, State.goOn]⟩
    rw [s.left_of_done ht hw, hn]
    show Lower (leftOf false false s.elapsed s.params.porLimit (s.polls + 1) .porTest _ s.wait) _
    obtain ⟨n, hn⟩ := Option.ne_none_iff_exists'.mp hl
    rw [hn]
    simp only [Lower, leftOf, stageOf, budgetOf, Bool.false_eq_true, if_false]
    split
    · simp; omega
    · simp
  · rename_i hn
    unfold State.atPorTest
    split
    · exact go _ _ (by simp) (by simp [hn, stageOf]) (no _ rfl)
    · rename_i hshown
      have hpor : s.awaitsPor = true := by
        simp only [ne_eq, not_not] at hshown
        simp [State.awaitsPor, hn, hshown]
      have hl : s.params.porLimit ≠ none := by simpa [State.endsAnyway, hpor] using hp
      split
      · exact go _ _ (by simp) (by simp [hn, stageOf]) (no _ rfl)
      · rename_i hx
        refine s.shrinks_waitTicks s _ _ ht hw (by simp) (s.endsAnyway_of_limit _ hp hpor rfl) ?_
        obtain ⟨n, hn'⟩ := Option.ne_none_iff_exists'.mp hl
        have hlt : s.polls < n := by simpa [State.porExhausted, hn'] using hx
        rw [hn, hn']
        simp [Lower, leftOf, stageOf, budgetOf, hlt]
  all_goals
    rename_i hn
    have hpor : s.awaitsPor = true := by simp [State.awaitsPor, hn]
  · refine s.shrinks_waitTicks s _ _ ht hw (by simp) (s.endsAnyway_of_limit _ hp hpor rfl) (.inl ?_)
    rw [hn]; simp [leftOf, stageOf]
  · exact go _ _ (by simp) (by simp [hn, stageOf]) (s.endsAnyway_of_limit _ hp hpor rfl)
  · refine s.shrinks_waitTicks s _ _ ht hw (by simp) (s.endsAnyway_of_limit _ hp hpor rfl) (.inl ?_)
    rw [hn]; simp [leftOf, stageOf]
  · exact go _ _ (by simp) (by intro a b; cases b <;> simp [hn, stageOf]) (s.endsAnyway_of_limit _ hp hpor rfl)

/-! ### The controller's steps -/

/-- A command runs, past its decode, and it is not one that may poll forever. -/
def State.Alive (s : State) : Prop := s.Inv ∧ s.busy = true ∧ s.endsAnyway = true ∧ s.next ≠ .decode

/-- A step of the controller ends the command or lowers the measure. -/
theorem State.Alive.ctlStep (s : State) (h : s.Alive) (hw : s.wait = 0) :
    s.ctlStep.busy = false ∨ s.ctlStep.Alive ∧ Lower s.ctlStep.left s.left := by
  obtain ⟨h1, h2, h3, h4⟩ := h
  have hinv := s.ctlStep_inv h1
  cases ht : s.todo with
  | nil =>
    have e : s.ctlStep = s.enter := by unfold State.ctlStep; rw [if_pos hw, ht]
    rw [e] at hinv ⊢
    have hi : s.next ≠ .idle := by
      intro hi
      have := h1.2.1
      simp [State.phaseOk, h2, hi, ht, endsCommand] at this
    obtain ⟨g1, g2, g3⟩ := s.shrinks_enter ht hw hi h4 h3
    have hb : s.enter.busy = true :=
      State.enter_keeps (fun u => u.busy = true) (fun _ _ _ h => h) (fun _ _ _ h => h) (fun _ h => h) s h2
    exact .inr ⟨⟨hinv, hb, g2, g3⟩, g1⟩
  | cons op rest =>
    have e : s.ctlStep = ({ s with todo := rest } : State).micro op := by unfold State.ctlStep; rw [if_pos hw, ht]
    rw [e] at hinv ⊢
    by_cases hf : op.isFinish = true
    · left
      cases op <;> simp [Micro.isFinish] at hf
      rfl
    · have hf' : op.isFinish = false := by simpa using hf
      right
      have hn : (({ s with todo := rest } : State).micro op).next = s.next := by
        cases op <;> first | rfl | simp [Micro.isFinish] at hf'
      have hb : (({ s with todo := rest } : State).micro op).busy = s.busy := by
        cases op <;> first | rfl | simp [Micro.isFinish] at hf'
      refine ⟨⟨hinv, hb.trans h2, ?_, by rw [hn]; exact h4⟩, s.left_micro op rest ht hf'⟩
      by_cases ha : s.awaitsPor = true
      · exact s.endsAnyway_of_limit _ h3 ha (State.micro_params _ _)
      · refine State.endsAnyway_of_not _ ?_
        simp only [State.awaitsPor] at ha ⊢
        rw [hn]
        cases hl : s.next <;> simp_all

/-- With no command running the controller stays where it is. -/
theorem State.ctlStep_idle (s : State) (hs : s.Inv) (hb : s.busy = false) : s.ctlStep = s := by
  obtain ⟨h1, h2, h3, -, -⟩ := s.idle_of_inv hs hb
  unfold State.ctlStep
  rw [if_pos h3, h2]
  simp only [State.enter, h1]

theorem State.ctlSteps_idle (s : State) (hs : s.Inv) (hb : s.busy = false) (n : Nat) : s.ctlSteps n = s := by
  induction n with
  | zero => rfl
  | succ n ih => show s.ctlStep.ctlSteps n = s; rw [s.ctlStep_idle hs hb, ih]

theorem State.ctlSteps_blocked (s : State) (hw : s.wait ≠ 0) (n : Nat) : s.ctlSteps n = s := by
  induction n with
  | zero => rfl
  | succ n ih => show s.ctlStep.ctlSteps n = s; rw [State.ctlStep, if_neg hw, ih]

/-- What steps of the controller leave: the command ended, or a measure that is no higher, and lower if it took one. -/
theorem State.Alive.ctlSteps (n : Nat) (s : State) (h : s.Alive) :
    (s.ctlSteps n).busy = false ∨ (s.ctlSteps n).Alive ∧
      (Lower (s.ctlSteps n).left s.left ∨ s.ctlSteps n = s ∧ (n = 0 ∨ s.wait ≠ 0)) := by
  induction n generalizing s with
  | zero => exact .inr ⟨h, .inr ⟨rfl, .inl rfl⟩⟩
  | succ n ih =>
    by_cases hw : s.wait = 0
    · show (s.ctlStep.ctlSteps n).busy = false ∨ (s.ctlStep.ctlSteps n).Alive ∧
        (Lower (s.ctlStep.ctlSteps n).left s.left ∨ s.ctlStep.ctlSteps n = s ∧ _)
      rcases State.Alive.ctlStep s h hw with hb | ⟨ha, hl⟩
      · rw [s.ctlStep.ctlSteps_idle (s.ctlStep_inv h.1) hb]
        exact .inl hb
      · rcases ih s.ctlStep ha with hb | ⟨ha', hl' | ⟨he, -⟩⟩
        · exact .inl hb
        · exact .inr ⟨ha', .inl (hl'.trans hl)⟩
        · rw [he]; exact .inr ⟨ha, .inl hl⟩
    · rw [s.ctlSteps_blocked hw]
      exact .inr ⟨h, .inr ⟨rfl, .inr hw⟩⟩

theorem State.ctlStep_events (s : State) : s.ctlStep.events = s.events := by
  unfold State.ctlStep
  split
  · split
    · rename_i op rest _; cases op <;> rfl
    · exact State.enter_keeps (fun u => u.events = s.events) (fun _ _ _ h => h) (fun _ _ _ h => h) (fun _ h => h) s rfl
  · rfl

theorem State.ctlSteps_events (n : Nat) (s : State) : (s.ctlSteps n).events = s.events :=
  State.ctlSteps_keeps (fun u => u.events = s.events) (fun u h => u.ctlStep_events.trans h) n s rfl

/-- A move that runs takes a step, unless it is one of no step. -/
theorem State.run_eq_steps (s : State) (hw : s.wait = 0) :
    ∃ k, s.run = s.ctlSteps k ∧ (controls (.controller s.grant) = true → k ≠ 0) := by
  cases hg : s.grant with
  | toWait =>
    obtain ⟨k, hk⟩ := s.runBlock_eq_ctlSteps hw
    obtain ⟨j, hj⟩ := s.runBlock.runBlocks_eq_ctlSteps 15
    refine ⟨k + 1 + j, ?_, fun _ => by omega⟩
    rw [s.run_toWait hg, State.ctlSteps_add, ← hk, ← hj]
    exact s.runBlocks_succ 15 hw
  | steps n =>
    refine ⟨n, by rw [State.run, hg], ?_⟩
    simp [controls]

/-! ### Commands that begin -/

/-- A command begins as a move from one state, whatever the length of the move. -/
theorem exec_command (i : Instr) (hi : isCommand i = true) (s : State) : ∃ v : State,
    (∀ g, exec i (s.withGrant g) = .next ((v.withGrant g).run)) ∧ v.events = s.events ∧ v.params = s.params ∧
      v.busy = s.busy ∧ v.next ≠ .decode ∧ v.wait = 0 ∧
      (i = .softwareReset ∨ i = .hardwareReset ∨ v.awaitsPor = false) := by
  have start : ∀ (u : State) (ops : List Micro) (l : Label), u.events = s.events → u.params = s.params →
      u.busy = s.busy → l ≠ .decode →
      (i = .softwareReset ∨ i = .hardwareReset ∨ ({ u with todo := ops, next := l, wait := 0 } : State).awaitsPor = false) →
      (∀ g, exec i (s.withGrant g) = .next ((u.withGrant g).startCommand ops l)) → ∃ v : State,
      (∀ g, exec i (s.withGrant g) = .next ((v.withGrant g).run)) ∧ v.events = s.events ∧ v.params = s.params ∧
        v.busy = s.busy ∧ v.next ≠ .decode ∧ v.wait = 0 ∧
        (i = .softwareReset ∨ i = .hardwareReset ∨ v.awaitsPor = false) := fun u ops l h1 h2 h3 h4 h5 h6 =>
    ⟨{ u with todo := ops, next := l, wait := 0 }, h6, h1, h2, h3, h4, rfl, h5⟩
  have read : ∀ n, (s.bufRead 0 n).2.events = s.events ∧ (s.bufRead 0 n).2.params = s.params ∧
      (s.bufRead 0 n).2.busy = s.busy := by
    intro n
    obtain ⟨k, hk⟩ := s.bufRead_state 0 n
    rw [hk]; exact ⟨rfl, rfl, rfl⟩
  have rd : ∀ g n, (s.withGrant g).bufRead 0 n = ((s.bufRead 0 n).1, (s.bufRead 0 n).2.withGrant g) :=
    fun g n => s.bufRead_withGrant g 0 n
  cases i with
  | writeBurst =>
    by_cases h : s.badCount = true
    · refine start s [.finish .badArg] .idle rfl rfl rfl (by simp) (.inr (.inr rfl)) (fun g => ?_)
      simp [exec, execWriteBurst, h]
    · obtain ⟨r1, r2, r3⟩ := read s.opCount
      refine start (s.bufRead 0 s.opCount).2 (writeBurst s.opAddr (s.bufRead 0 s.opCount).1 ++ [.finish .ok]) .idle
        r1 r2 r3 (by simp) (.inr (.inr rfl)) (fun g => ?_)
      simp [exec, execWriteBurst, h, rd]
  | readBurst =>
    by_cases h : s.badCount = true
    · refine start s [.finish .badArg] .idle rfl rfl rfl (by simp) (.inr (.inr rfl)) (fun g => ?_)
      simp [exec, execReadBurst, h]
    · refine start s (readBurst s.params s.opAddr s.opCount ++ [.storeRx, .finish .ok]) .idle rfl rfl rfl (by simp)
        (.inr (.inr rfl)) (fun g => ?_)
      simp [exec, execReadBurst, h]
  | setFrequency =>
    by_cases h : s.freqInRange = true
    · refine start s (writeFrequency s.params s.opFreq ++ [.setCfgFreq s.arg0, .finish .ok]) .idle rfl rfl rfl (by simp)
        (.inr (.inr rfl)) (fun g => ?_)
      simp [exec, execSetFrequency, h]
    · refine start s [.finish .ignored] .idle rfl rfl rfl (by simp) (.inr (.inr rfl)) (fun g => ?_)
      simp [exec, execSetFrequency, h]
  | setBaudRate =>
    by_cases h : s.baudInRange = true
    · refine start s [.calculate s.opBaud] .baudDone rfl rfl rfl (by simp) (.inr (.inr rfl)) (fun g => ?_)
      simp [exec, execSetBaudRate, h]
    · refine start s [.finish .ignored] .idle rfl rfl rfl (by simp) (.inr (.inr rfl)) (fun g => ?_)
      simp [exec, execSetBaudRate, h]
  | sendPacket =>
    obtain ⟨r1, r2, r3⟩ := read s.opLen.toNat
    refine start (s.bufRead 0 s.opLen.toNat).2
      ([.setFsm .transmitting] ++ sendStart s.params s.opLen (s.bufRead 0 s.opLen.toNat).1 ++ [.setT0]) .sendHead
      r1 r2 r3 (by simp) (.inr (.inr rfl)) (fun g => ?_)
    simp [exec, execSendPacket, rd]
  | writeReg =>
    exact start s (writeReg s.opAddr s.opValue ++ [.finish .ok]) .idle rfl rfl rfl (by simp)
      (.inr (.inr rfl)) (fun g => by simp [exec, execWriteReg])
  | readReg =>
    exact start s (readReg s.params s.opAddr ++ [.setData, .storeRx, .finish .ok]) .idle rfl rfl rfl (by simp)
      (.inr (.inr rfl)) (fun g => by simp [exec, execReadReg])
  | setSignature =>
    exact start s (writeSignature s.params s.opSignature ++ [.setCfgSignature s.opSignature, .finish .ok]) .idle rfl rfl rfl (by simp)
      (.inr (.inr rfl)) (fun g => by simp [exec, execSetSignature])
  | setChannel =>
    exact start s (writeChannel s.params s.opChannel ++ [.setCfgChannel s.opChannel, .finish .ok]) .idle rfl rfl rfl (by simp)
      (.inr (.inr rfl)) (fun g => by simp [exec, execSetChannel])
  | switchMode =>
    exact start s (switchMode s.params s.opMode ++ [.finish .ok]) .idle rfl rfl rfl (by simp)
      (.inr (.inr rfl)) (fun g => by simp [exec, execSwitchMode])
  | clearTxFifo =>
    exact start s (clearTx s.params ++ [.finish .ok]) .idle rfl rfl rfl (by simp)
      (.inr (.inr rfl)) (fun g => by simp [exec, execClearTxFifo])
  | clearRxFifo =>
    exact start s (clearRx s.params ++ [.finish .ok]) .idle rfl rfl rfl (by simp)
      (.inr (.inr rfl)) (fun g => by simp [exec, execClearRxFifo])
  | clearFifo =>
    exact start s (clearBoth s.params ++ [.finish .ok]) .idle rfl rfl rfl (by simp)
      (.inr (.inr rfl)) (fun g => by simp [exec, execClearFifo])
  | waitForPacket =>
    exact start s (listen s.params .listening ++ [.setT0]) (.waitHead .waitCommand) rfl rfl rfl (by simp)
      (.inr (.inr rfl)) (fun g => by simp [exec, execWaitForPacket])
  | startListening =>
    exact start s (listen s.params .listening ++ [.finish .ok]) .idle rfl rfl rfl (by simp)
      (.inr (.inr rfl)) (fun g => by simp [exec, execStartListening])
  | isPacketReceived =>
    exact start s [] (.rxSample .once) rfl rfl rfl (by simp)
      (.inr (.inr rfl)) (fun g => by simp [exec, execIsPacketReceived])
  | getPacketReceived =>
    exact start s (readReg s.params (regByte s.params.regs.rxLen)) (.fetch false) rfl rfl rfl (by simp)
      (.inr (.inr rfl)) (fun g => by simp [exec, execGetPacketReceived])
  | boot =>
    exact start s ([.setFsm .resetting] ++ s.bootSteps) .bootBaud rfl rfl rfl (by simp)
      (.inr (.inr rfl)) (fun g => by simp [exec, execBoot])
  | softwareReset =>
    exact start s ([.setFsm .resetting] ++ softReset s.params ++ [.clearPolls]) .porHead rfl rfl rfl (by simp)
      (.inl rfl) (fun g => by simp [exec, execSoftwareReset])
  | hardwareReset =>
    exact start s [.setFsm .resetting, .setSdn true, .clearMode] .sdnOff rfl rfl rfl (by simp)
      (.inr (.inl rfl)) (fun g => by simp [exec, execHardwareReset])
  | busWrite _ _ => simp [isCommand] at hi
  | busRead _ _ => simp [isCommand] at hi

/-- A frame that is next is a number of controller steps, the first of which lays out its window. -/
theorem exec_frame_steps (s : State) (hw : s.wait = 0) (header : Byte) (sent : List Byte) (rest : List Micro)
    (ht : s.todo = .frame header sent :: rest) :
    ∃ n, exec (decodeFrame header sent) { s with todo := rest } = .next (s.ctlSteps (n + 1)) := by
  have e : s.ctlStep = { s with todo := frameSteps s.params.readDummy header sent ++ rest } := by
    unfold State.ctlStep; rw [if_pos hw, ht]; rfl
  rw [exec_decodeFrame]
  unfold State.transact
  split
  · refine ⟨(frameSteps s.params.readDummy header sent).length, ?_⟩
    show _ = Host.Outcome.next (s.ctlStep.ctlSteps _)
    have hk := ({ s with todo := rest } : State).ctlSteps_micros hw (frameSteps s.params.readDummy header sent) rest
      (frameSteps_noFrame _ _ _)
    rw [State.setTodo_self _ _ (State.micros_todo _ _ (frameSteps_noFrame _ _ _))] at hk
    rw [e]
    exact congrArg _ hk.symm
  · rename_i n _
    refine ⟨n, ?_⟩
    show _ = Host.Outcome.next (s.ctlStep.ctlSteps n)
    rw [e]

/-! ### Steps -/

/-- A step of a command that runs: it goes on, with no more left than before. -/
def State.GoesOn (s t : State) : Prop :=
  t.Inv ∧ t.busy = true ∧ t.endsAnyway = true ∧ (Lower t.left s.left ∨ t.left = s.left ∧ t.canStep = s.canStep)

/-- A move of the controller ends the command or goes on with it, and with a step it can take there is less left. -/
theorem step_controller_progress (s : State) (hs : s.Inv) (hb : s.busy = true) (he : s.endsAnyway = true) (g : Grant)
    (hg : s.nextEvent = .controller g) : ∃ t, step s = .next t ∧ t.events = s.events.advance ∧
      (t.busy = false ∨ s.GoesOn t ∧ (s.canStep = true → controls (.controller g) = true → Lower t.left s.left)) := by
  have steps : ∀ (v : State) (n : Nat), v.Alive → v.events = s.events.advance →
      (Lower v.left s.left ∨ v.left = s.left ∧ v.canStep = s.canStep) →
      (v.ctlSteps n).events = s.events.advance ∧ ((v.ctlSteps n).busy = false ∨ s.GoesOn (v.ctlSteps n) ∧
        (Lower v.left s.left ∨ n ≠ 0 ∧ v.wait = 0 → Lower (v.ctlSteps n).left s.left)) := by
    intro v n ha hev hl
    refine ⟨(v.ctlSteps_events n).trans hev, ?_⟩
    rcases State.Alive.ctlSteps n v ha with h | ⟨ha', h | ⟨h, hz⟩⟩
    · exact .inl h
    · have hlt : Lower (v.ctlSteps n).left s.left := by
        rcases hl with hl | ⟨hl, -⟩
        · exact h.trans hl
        · exact hl ▸ h
      exact .inr ⟨⟨ha'.1, ha'.2.1, ha'.2.2.1, .inl hlt⟩, fun _ => hlt⟩
    · rw [h]
      refine .inr ⟨⟨ha.1, ha.2.1, ha.2.2.1, hl⟩, ?_⟩
      rintro (h' | ⟨h1, h2⟩)
      · exact h'
      · rcases hz with hz | hz <;> contradiction
  by_cases hw : s.wait = 0
  · by_cases hd : s.next = .decode
    · have ht : s.todo = [] := by
        have := hs.2.1
        simp [State.phaseOk, hb, hd] at this
        exact this.2.2
      have hr : s.Running := s.running_of_inv hs ht hw (by rw [hd]; simp)
      rw [step_decode s g hg hw ht hd]
      have low : ∀ v : State, v.next ≠ .decode → Lower v.left s.left := by
        intro v hv
        left
        show stageOf _ _ v.next < stageOf _ _ s.next
        rw [hd]
        cases hn : v.next with
        | decode => exact absurd hn hv
        | waitHead who | rxSample who | rxStatus who | pollSleep who =>
          cases who <;> cases v.setsT0 <;> simp [stageOf]
        | sendHead | sendSample | sendStatus => cases v.setsT0 <;> simp [stageOf]
        | porHead | porTest => cases v.clears <;> simp [stageOf]
        | _ => simp [stageOf]
      have run : ∀ v : State, v.Alive → v.events = s.events.advance → v.wait = 0 →
          ∃ t, (Host.Outcome.next v.run : Host.Outcome State Fault Refusal) = .next t ∧ t.events = s.events.advance ∧
            (t.busy = false ∨ s.GoesOn t ∧
              (s.canStep = true → controls (.controller g) = true → Lower t.left s.left)) := by
        intro v ha hev hvw
        obtain ⟨k, hk, -⟩ := v.run_eq_steps hvw
        obtain ⟨h1, h2⟩ := steps v k ha hev (.inl (low v ha.2.2.2))
        refine ⟨_, rfl, hk ▸ h1, hk ▸ ?_⟩
        exact h2.imp_right fun ⟨h3, h4⟩ => ⟨h3, fun _ _ => h4 (.inl (low v ha.2.2.2))⟩
      cases hc : decodeWord s.cmd with
      | none =>
        refine run ({ s.moved with grant := g, todo := [.finish .illegalCmd], next := .idle, wait := 0 } : State) ?_ rfl rfl
        refine ⟨?_, hb, State.endsAnyway_of_not _ rfl, by simp⟩
        have := State.Running.goOn_finish ({ s.moved with grant := g } : State) [] .illegalCmd hr rfl (by decide)
        have e : (({ s.moved with grant := g } : State).goOn ([] ++ [.finish .illegalCmd]) .idle) =
            { s.moved with grant := g, todo := [.finish .illegalCmd], next := .idle, wait := 0 } := by
          have hw' : s.moved.wait = 0 := hw
          simp [State.goOn, ← hw']
        exact e ▸ this
      | some i =>
        have hi : isCommand i = true := by
          have hd := hc
          unfold decodeWord at hd
          split at hd
          · unfold decodeOpcode at hd
            split at hd <;> first | (injection hd with hd; subst hd; rfl) | simp at hd
          · cases hd
        obtain ⟨v, v1, v2, v3, v4, v5, v6, v7⟩ := exec_command i hi s.moved
        have v1' : exec i ({ s.moved with grant := g } : State) = .next ((v.withGrant g).run) := v1 g
        show ∃ t, exec i ({ s.moved with grant := g } : State) = .next t ∧ _
        rw [v1']
        refine run (v.withGrant g) ⟨?_, v4.trans hb, ?_, v5⟩ v2 v6
        · exact exec_inv i (s.moved.withGrant (.steps 0)) (v.withGrant (.steps 0)) hi hr (v1 (.steps 0))
        · have v3' : (v.withGrant g).params = s.params := v3
          have por : i = .softwareReset ∨ i = .hardwareReset → (v.withGrant g).endsAnyway = true := by
            intro h
            refine s.endsAnyway_of_limit _ he ?_ v3'
            rcases h with rfl | rfl <;> simp [State.awaitsPor, hd, hc]
          rcases v7 with h | h | h
          · exact por (.inl h)
          · exact por (.inr h)
          · exact State.endsAnyway_of_not _ h
    · have ha : State.Alive { s.moved with grant := g } := ⟨hs, hb, he, hd⟩
      have hw' : ({ s.moved with grant := g } : State).wait = 0 := hw
      have hrun : step s = .next ({ s.moved with grant := g } : State).run → ∃ t, step s = .next t ∧
          t.events = s.events.advance ∧ (t.busy = false ∨ s.GoesOn t ∧
            (s.canStep = true → controls (.controller g) = true → Lower t.left s.left)) := by
        intro hst
        obtain ⟨k, hk, hk0⟩ := State.run_eq_steps _ hw'
        obtain ⟨h1, h2⟩ := steps _ k ha rfl (.inr ⟨rfl, rfl⟩)
        refine ⟨_, hst, hk ▸ h1, hk ▸ ?_⟩
        exact h2.imp_right fun ⟨h3, h4⟩ => ⟨h3, fun _ hc => h4 (.inr ⟨hk0 hc, hw⟩)⟩
      cases ht : s.todo with
      | nil => exact hrun (step_branch s g hg hw ht hd)
      | cons op rest =>
        cases hf : op.isFrame with
        | false => exact hrun (step_operation s g op rest hg hw ht hf)
        | true =>
          obtain ⟨header, sent, rfl⟩ : ∃ header sent, op = .frame header sent := by
            cases op <;> simp [Micro.isFrame] at hf ⊢
          rw [step_frame s g header sent rest hg hw ht]
          obtain ⟨n, hn⟩ := exec_frame_steps ({ s.moved with grant := g } : State) hw' header sent rest ht
          obtain ⟨h1, h2⟩ := steps _ (n + 1) ha rfl (.inr ⟨rfl, rfl⟩)
          refine ⟨_, hn, h1, ?_⟩
          exact h2.imp_right fun ⟨h3, h4⟩ => ⟨h3, fun _ _ => h4 (.inr ⟨by omega, hw⟩)⟩
  · rw [step_blocked s g hg hw]
    refine ⟨_, rfl, rfl, .inr ⟨⟨hs, hb, he, .inr ⟨rfl, rfl⟩⟩, ?_⟩⟩
    intro hc
    simp [State.canStep, hw] at hc

/-- While a command runs a host access changes the word the host read last, the free words and the sticky flags, and
nothing else (10_state.md R36, 20_memory.md R65, R71). -/
theorem State.hostMove_busy (s t : State) (hb : s.busy = true) (a : HostAccess) (h : s.hostMove a = .next t) :
    t = { s with hostData := t.hostData, fresh := t.fresh, busAnomaly := t.busAnomaly, cmdOverrun := t.cmdOverrun } := by
  have load : ∀ n, s.hostLoad n = { s with hostData := (s.hostLoad n).hostData, fresh := (s.hostLoad n).fresh } := by
    intro n
    unfold State.hostLoad
    split <;> (try split) <;> simp only [State.hostReadsResult, State.hostReadsBuf, State.hostReads, State.hostReadsOpen,
      hb, if_true]
  have store : ∀ n w, s.hostStore n w =
      { s with busAnomaly := (s.hostStore n w).busAnomaly, cmdOverrun := (s.hostStore n w).cmdOverrun } := by
    intro n w
    unfold State.hostStore
    split <;> (try split) <;> first | rfl | simp only [State.guarded, hb, if_true]
  cases a with
  | load addr size =>
    simp only [State.hostMove] at h
    split at h
    · split at h
      · injection h with h; subst h
        have e := load (addr - s.params.base)
        generalize s.hostLoad (addr - s.params.base) = u at e
        rw [e]
      · cases h
    · injection h with h; subst h; rfl
  | store addr size w =>
    simp only [State.hostMove] at h
    split at h
    · split at h
      · injection h with h; subst h
        have e := store (addr - s.params.base) w
        generalize s.hostStore (addr - s.params.base) w = u at e
        rw [e]
      · cases h
    · injection h with h; subst h; rfl

/-- The move brings the command nearer to its end: a step of the controller where it can take one, a tick where it waits. -/
def State.helps (s : State) (e : Event) : Prop := if s.canStep = true then controls e = true else e = .tick

/-- A running command is blocked or has a step to take. -/
theorem State.canStep_iff (s : State) (hs : s.Inv) (hb : s.busy = true) : s.canStep = true ↔ s.wait = 0 := by
  have h := hs.2.1
  by_cases hi : s.next = .idle
  · have ht : s.todo ≠ [] := by
      intro ht
      simp [State.phaseOk, hb, hi, ht, endsCommand] at h
    simp [State.canStep, hi, ht]
  · simp [State.canStep, hi]

/-- Every step of a run that nothing disturbs: the command ends, or goes on with no more left than before, and with less
if the move helps. -/
theorem step_progress (s : State) (hs : s.Inv) (hb : s.busy = true) (he : s.endsAnyway = true) (hu : s.Undisturbed)
    (hp : s.Paced) : ∃ t, step s = .next t ∧ t.events = s.events.advance ∧
      (t.busy = false ∨ s.GoesOn t ∧ (s.helps s.nextEvent → Lower t.left s.left)) := by
  have hc := s.canStep_iff hs hb
  cases hg : s.nextEvent with
  | controller g =>
    obtain ⟨t, h1, h2, h3⟩ := step_controller_progress s hs hb he g hg
    refine ⟨t, h1, h2, h3.imp_right fun ⟨h4, h5⟩ => ⟨h4, ?_⟩⟩
    unfold State.helps
    split
    · rename_i h; exact h5 h
    · simp
  | tick =>
    refine ⟨_, step_tick s hg, rfl, .inr ⟨⟨State.tickOnce_inv s.moved hs, hb, ?_, ?_⟩, ?_⟩⟩
    · by_cases ha : s.awaitsPor = true
      · exact s.endsAnyway_of_limit _ he ha rfl
      · refine State.endsAnyway_of_not _ ?_
        simp only [State.awaitsPor] at ha ⊢
        show (match s.next with | _ => _) = _
        cases hl : s.next <;> simp_all [State.tickOnce, State.moved, State.received]
    · refine (State.left_tickOnce s.moved (fun h => hp s .here h hg)).imp id fun ⟨hw, hl⟩ => ⟨hl, ?_⟩
      have hw' : s.wait = 0 := hw
      simp [State.canStep, State.tickOnce, State.moved, hw']
    · intro hh
      rcases State.left_tickOnce s.moved (fun h => hp s .here h hg) with h | ⟨hw, -⟩
      · exact h
      · have : s.canStep = true := hc.mpr hw
        simp [State.helps, this, controls] at hh
  | host a =>
    obtain ⟨t, ht⟩ := (hu s .here).2 a hg
    have e := State.hostMove_busy s.moved t hb a ht
    have hi := State.hostMove_inv s.moved t hs a ht
    refine ⟨t, (step_host s a hg).trans ht, by rw [e]; rfl, .inr ⟨⟨hi, by rw [e]; exact hb, by rw [e]; exact he, ?_⟩, ?_⟩⟩
    · right
      rw [e]
      exact ⟨rfl, rfl⟩
    · unfold State.helps
      split <;> simp [controls]
  | blockReset => exact absurd hg (hu s .here).1

/-! ### Runs -/

theorem State.Later.trans {s t u : State} (h : s.Later t) (g : t.Later u) : s.Later u := by
  induction g with
  | here => exact h
  | step _ h1 h2 ih => exact .step ih h1 h2

/-- What a run keeps, its rest keeps. -/
theorem State.Later.rest {s t : State} (h : s.Later t) (hf : s.Fair) (hu : s.Undisturbed) (hp : s.Paced) :
    t.Fair ∧ t.Undisturbed ∧ t.Paced :=
  ⟨⟨fun u hu => hf.ticks u (h.trans hu), fun u hu => hf.moves u (h.trans hu)⟩, fun u g => hu u (h.trans g),
    fun u g => hp u (h.trans g)⟩

/-- Under fairness every command ends, but for a SOFTWARE_RESET or HARDWARE_RESET with no poll limit whose poll has not
seen its bit (70_reset_and_hazards.md R312): in every state with a command running, on a fair schedule that nothing from
outside cuts short and that lets no loop wait 2^32 ticks, some number of steps ends the command. -/
theorem commands_end_under_fairness (s : State) (hs : s.Inv) (hb : s.busy = true) (hf : s.Fair) (hu : s.Undisturbed)
    (hp : s.Paced) (he : s.endsAnyway = true) :
    ∃ n t, Host.Core.run Sys2Proof.core n s = .next t ∧ t.busy = false := by
  have main : ∀ m, ∀ s : State, s.left = m → s.Inv → s.busy = true → s.Fair → s.Undisturbed → s.Paced →
      s.endsAnyway = true → ∃ n t, Host.Core.run Sys2Proof.core n s = .next t ∧ t.busy = false := by
    intro m
    induction m using lower_wf.induction with
    | h m ih =>
      have near : ∀ k, ∀ s : State, s.left = m → s.Inv → s.busy = true → s.Fair → s.Undisturbed → s.Paced →
          s.endsAnyway = true → s.helps (s.eventAt k) →
          ∃ n t, Host.Core.run Sys2Proof.core n s = .next t ∧ t.busy = false := by
        intro k
        induction k with
        | zero =>
          intro s hm hs hb hf hu hp he hh
          obtain ⟨t, h1, -, h3⟩ := step_progress s hs hb he hu hp
          rcases h3 with h3 | ⟨⟨g1, g2, g3, -⟩, h4⟩
          · exact ⟨1, t, run_succ 0 s t h1, h3⟩
          · obtain ⟨f1, f2, f3⟩ := (State.Later.step .here h1 g2).rest hf hu hp
            obtain ⟨n, u, r1, r2⟩ := ih t.left (hm ▸ h4 hh) t rfl g1 g2 f1 f2 f3 g3
            exact ⟨n + 1, u, (run_succ n s t h1).trans r1, r2⟩
        | succ k ihk =>
          intro s hm hs hb hf hu hp he hh
          obtain ⟨t, h1, h2, h3⟩ := step_progress s hs hb he hu hp
          rcases h3 with h3 | ⟨⟨g1, g2, g3, g4⟩, -⟩
          · exact ⟨1, t, run_succ 0 s t h1, h3⟩
          · obtain ⟨f1, f2, f3⟩ := (State.Later.step .here h1 g2).rest hf hu hp
            rcases g4 with g4 | ⟨g4, g5⟩
            · obtain ⟨n, u, r1, r2⟩ := ih t.left (hm ▸ g4) t rfl g1 g2 f1 f2 f3 g3
              exact ⟨n + 1, u, (run_succ n s t h1).trans r1, r2⟩
            · have hk : t.eventAt k = s.eventAt (k + 1) := by simp only [State.eventAt, h2]; rfl
              have hh' : t.helps (t.eventAt k) := by
                unfold State.helps at hh ⊢
                rw [hk, g5]; exact hh
              obtain ⟨n, u, r1, r2⟩ := ihk t (g4.trans hm) g1 g2 f1 f2 f3 g3 hh'
              exact ⟨n + 1, u, (run_succ n s t h1).trans r1, r2⟩
      intro s hm hs hb hf hu hp he
      cases hc : s.canStep with
      | true =>
        obtain ⟨k, hk⟩ := hf.moves s .here hc
        exact near k s hm hs hb hf hu hp he (by unfold State.helps; rw [if_pos hc]; exact hk)
      | false =>
        obtain ⟨k, hk⟩ := hf.ticks s .here
        exact near k s hm hs hb hf hu hp he (by unfold State.helps; rw [if_neg (by simp [hc])]; exact hk)
  exact main _ s rfl hs hb hf hu hp he

/-! ### The poll that may hang -/

/-- The power-on-reset poll lies ahead or runs, it has no limit, and no answer of the last read shows the bit. -/
def State.Hanging (s : State) : Prop :=
  s.busy = true ∧ s.params.porLimit = none ∧ goesOn s.todo = true ∧
    s.next ∈ [Label.sdnOff, .sdnRelease, .sdnOn, .porStart, .porHead, .porTest] ∧
    ∀ b ∈ s.rx, b &&& s.params.maskPor = 0

/-- From `s` to `t` a read showed the bit, or the poll goes on. -/
def State.StillHanging (s t : State) : Prop :=
  ∃ new, t.trace = s.trace ++ new ∧
    ((∃ out b, BusEvent.exchanged out b ∈ new ∧ b &&& s.params.maskPor ≠ 0) ∨ t.Hanging) ∧ t.params = s.params

theorem State.StillHanging.trans {s t u : State} (h : s.StillHanging t) (g : t.Hanging → t.StillHanging u)
    (hg : ∃ new, u.trace = t.trace ++ new) (hp : u.params = t.params) : s.StillHanging u := by
  obtain ⟨new, h1, h2, h3⟩ := h
  rcases h2 with ⟨out, b, hb, hm⟩ | h2
  · obtain ⟨more, hm'⟩ := hg
    exact ⟨new ++ more, by rw [hm', h1, List.append_assoc], .inl ⟨out, b, List.mem_append_left _ hb, hm⟩, hp.trans h3⟩
  · obtain ⟨more, g1, g2, -⟩ := g h2
    refine ⟨new ++ more, by rw [g1, h1, List.append_assoc], ?_, hp.trans h3⟩
    rcases g2 with ⟨out, b, hb, hm⟩ | g2
    · exact .inl ⟨out, b, List.mem_append_right _ hb, h3 ▸ hm⟩
    · exact .inr g2

theorem State.ctlStep_trace (s : State) : (∃ new, s.ctlStep.trace = s.trace ++ new) ∧ s.ctlStep.params = s.params := by
  have all : ∀ u : State, u.trace = s.trace ∧ u.params = s.params → (∃ new, u.trace = s.trace ++ new) ∧
      u.params = s.params := fun u h => ⟨⟨[], by simp [h.1]⟩, h.2⟩
  unfold State.ctlStep
  split
  · split
    · rename_i op rest _
      refine ⟨?_, State.micro_params _ _⟩
      cases op <;> first | exact ⟨_, rfl⟩ | exact ⟨[], (List.append_nil _).symm⟩
    · exact State.enter_keeps (fun u => (∃ new, u.trace = s.trace ++ new) ∧ u.params = s.params) (fun _ _ _ h => h)
        (fun u n _ h => ⟨h.1.imp' (· ++ [.wait n]) fun new hn => by simp [State.waitTicks, hn], h.2⟩)
        (fun u h => ⟨h.1.imp' (· ++ [.irq u.nextLevel]) fun new hn => by simp [State.sampled, hn], h.2⟩) s (all s ⟨rfl, rfl⟩)
  · exact all s ⟨rfl, rfl⟩

/-- A step of the controller in such a poll. -/
theorem State.Hanging.ctlStep (s : State) (h : s.Hanging) : s.StillHanging s.ctlStep := by
  obtain ⟨h1, h2, h3, h4, h5⟩ := h
  have same : ∀ u : State, u.trace = s.trace → u.params = s.params → u.busy = true → goesOn u.todo = true →
      u.next ∈ [Label.sdnOff, .sdnRelease, .sdnOn, .porStart, .porHead, .porTest] → u.rx = s.rx → s.StillHanging u := by
    intro u e1 e2 e3 e4 e5 e6
    exact ⟨[], by simp [e1], .inr ⟨e3, e2 ▸ h2, e4, e5, by rw [e6, e2]; exact h5⟩, e2⟩
  have wait : ∀ (n : Nat) (l : Label), l ∈ [Label.sdnOff, .sdnRelease, .sdnOn, .porStart, .porHead, .porTest] →
      s.StillHanging (s.waitTicks n l) := fun n l hl =>
    ⟨[.wait n], rfl, .inr ⟨h1, h2, rfl, hl, h5⟩, rfl⟩
  unfold State.ctlStep
  split
  · split
    · rename_i op rest ht
      rw [ht] at h3
      simp only [goesOn, List.all_cons, Bool.and_eq_true] at h3
      have hr : goesOn rest = true := h3.2
      cases op with
      | frame header sent =>
        refine same _ rfl rfl h1 ?_ h4 rfl
        show goesOn (frameSteps _ _ _ ++ rest) = true
        have hf := goesOn_frame s.params.readDummy header sent
        simp only [goesOn, List.all_append, Bool.and_eq_true] at hf ⊢
        exact ⟨hf, hr⟩
      | recv out =>
        by_cases hm : s.nextAnswer &&& s.params.maskPor = 0
        · refine ⟨[.exchanged out s.nextAnswer], rfl, .inr ⟨h1, h2, hr, h4, ?_⟩, rfl⟩
          intro b hb
          have hb' : b ∈ s.rx ++ [s.nextAnswer] := hb
          rcases List.mem_append.mp hb' with hb' | hb'
          · exact h5 b hb'
          · rw [List.mem_singleton.mp hb']; exact hm
        · exact ⟨[.exchanged out s.nextAnswer], rfl, .inl ⟨_, _, List.mem_singleton.mpr rfl, hm⟩, rfl⟩
      | ask out => exact ⟨[.sent out], rfl, .inr ⟨h1, h2, hr, h4, by intro b hb; cases hb⟩, rfl⟩
      | select active => exact ⟨[.select active], rfl, .inr ⟨h1, h2, hr, h4, h5⟩, rfl⟩
      | send out => exact ⟨[.sent out], rfl, .inr ⟨h1, h2, hr, h4, h5⟩, rfl⟩
      | setSdn active => exact ⟨[.sdn active], rfl, .inr ⟨h1, h2, hr, h4, h5⟩, rfl⟩
      | finish c => simp [Micro.isFinish] at h3
      | _ => exact same _ rfl rfl h1 hr h4 rfl
    · have hrx : s.received &&& s.params.maskPor = 0 := by
        unfold State.received
        cases hx : s.rx with
        | nil => simp
        | cons b r => exact h5 b (by rw [hx]; exact List.mem_cons_self ..)
      simp only [List.mem_cons, List.not_mem_nil, or_false] at h4
      unfold State.enter
      rcases h4 with hn | hn | hn | hn | hn | hn <;> rw [hn]
      · exact wait _ _ (by simp)
      · exact same _ rfl rfl h1 rfl (by simp [State.goOn]) rfl
      · exact wait _ _ (by simp)
      · exact same _ rfl rfl h1 rfl (by simp [State.goOn]) rfl
      · exact same _ rfl rfl h1 rfl (by simp [State.atPorHead, State.goOn]) rfl
      · show s.StillHanging s.atPorTest
        rw [s.atPorTest_again hrx (by simp [State.porExhausted, h2])]
        exact wait _ _ (by simp)
  · exact same s rfl rfl h1 h3 h4 rfl

theorem State.Hanging.ctlSteps (n : Nat) (s : State) (h : s.Hanging) : s.StillHanging (s.ctlSteps n) := by
  refine (State.ctlSteps_keeps (fun u => s.StillHanging u) (fun u hu => ?_) n s ⟨[], by simp, .inr h, rfl⟩)
  exact hu.trans (fun g => g.ctlStep) u.ctlStep_trace.1 u.ctlStep_trace.2

/-- A SOFTWARE_RESET or HARDWARE_RESET with no poll limit goes on forever unless a read shows the bit (R308, R312): after
every step but a block reset the poll still runs, or the chip has answered with the bit since. -/
theorem por_poll_hangs (s t : State) (h : s.Hanging) (hr : s.nextEvent ≠ .blockReset) (hs : step s = .next t) :
    s.StillHanging t := by
  have same : s.StillHanging s := ⟨[], by simp, .inr h, rfl⟩
  rcases step_cases s with ⟨-, e⟩ | ⟨e, -⟩ | ⟨a, he, e⟩ | ⟨g, he, hc⟩
  · rw [e] at hs; injection hs with hs; subst hs; exact same
  · exact absurd e hr
  · rw [e] at hs
    rw [State.hostMove_busy s.moved t h.1 a hs]
    exact same
  · have hg : State.Hanging { s.moved with grant := g } := h
    rcases hc with ⟨-, e⟩ | ⟨header, sent, rest, hw, ht, e⟩ | ⟨i, -, -, hn, -⟩ | ⟨-, -, hn, -⟩ | ⟨hw, e⟩
    · rw [e] at hs; injection hs with hs; subst hs; exact same
    · obtain ⟨n, hn⟩ := exec_frame_steps ({ s.moved with grant := g } : State) hw header sent rest ht
      rw [e] at hs
      have := hn.symm.trans hs
      injection this with this
      subst this
      exact State.Hanging.ctlSteps _ _ hg
    · have := h.2.2.2.1; simp [hn] at this
    · have := h.2.2.2.1; simp [hn] at this
    · rw [e] at hs; injection hs with hs; subst hs
      obtain ⟨k, hk⟩ := ({ s.moved with grant := g } : State).run_eq_ctlSteps
      rw [hk]
      exact State.Hanging.ctlSteps k _ hg

end Sys2Proof.Machine
end

