-- ==== Sys2Proof/Laws/PerInstr.lean ====
section
/-! SUPPORT. Statements made per instruction.

Family F: the encoding of a well-formed instruction has the shape its format gives: a command word has zeros above its
opcode and its opcode is the instruction's in the map (30_encoding.md R91, R92); a window has 1 to 257 bytes (R98). -/

namespace Sys2Proof.Laws.F

/-- The shape of an instruction's encoding. -/
def Statement (i : Instr) : Prop :=
  i.wf = true → ∀ dummy : Byte,
    match encode dummy i with
    | .cmd w => w.extractLsb' 8 24 = 0 ∧ decodeOpcode (w.extractLsb' 0 8).toNat = some i
    | .bus sent => 1 ≤ sent.length ∧ sent.length ≤ 257

theorem writeReg : Statement .writeReg := fun _ _ => ⟨rfl, rfl⟩
theorem readReg : Statement .readReg := fun _ _ => ⟨rfl, rfl⟩
theorem writeBurst : Statement .writeBurst := fun _ _ => ⟨rfl, rfl⟩
theorem readBurst : Statement .readBurst := fun _ _ => ⟨rfl, rfl⟩
theorem setFrequency : Statement .setFrequency := fun _ _ => ⟨rfl, rfl⟩
theorem setSignature : Statement .setSignature := fun _ _ => ⟨rfl, rfl⟩
theorem setChannel : Statement .setChannel := fun _ _ => ⟨rfl, rfl⟩
theorem setBaudRate : Statement .setBaudRate := fun _ _ => ⟨rfl, rfl⟩
theorem switchMode : Statement .switchMode := fun _ _ => ⟨rfl, rfl⟩
theorem clearTxFifo : Statement .clearTxFifo := fun _ _ => ⟨rfl, rfl⟩
theorem clearRxFifo : Statement .clearRxFifo := fun _ _ => ⟨rfl, rfl⟩
theorem clearFifo : Statement .clearFifo := fun _ _ => ⟨rfl, rfl⟩
theorem sendPacket : Statement .sendPacket := fun _ _ => ⟨rfl, rfl⟩
theorem waitForPacket : Statement .waitForPacket := fun _ _ => ⟨rfl, rfl⟩
theorem startListening : Statement .startListening := fun _ _ => ⟨rfl, rfl⟩
theorem isPacketReceived : Statement .isPacketReceived := fun _ _ => ⟨rfl, rfl⟩
theorem getPacketReceived : Statement .getPacketReceived := fun _ _ => ⟨rfl, rfl⟩
theorem boot : Statement .boot := fun _ _ => ⟨rfl, rfl⟩
theorem softwareReset : Statement .softwareReset := fun _ _ => ⟨rfl, rfl⟩
theorem hardwareReset : Statement .hardwareReset := fun _ _ => ⟨rfl, rfl⟩

theorem busWrite (addr : ChipAddr) (sent : List Byte) : Statement (.busWrite addr sent) := by
  intro h dummy
  simp only [Instr.wf, decide_eq_true_eq] at h
  simp only [encode, List.length_cons]
  omega

theorem busRead (addr : ChipAddr) (count : Nat) : Statement (.busRead addr count) := by
  intro h dummy
  simp only [Instr.wf, decide_eq_true_eq] at h
  simp only [encode, List.length_cons, List.length_replicate]
  omega

end Sys2Proof.Laws.F
end

