-- ==== Sys2Proof/Laws/State.lean ====
section
/-! SUPPORT. What each named update of the state does to each field, so that no proof unfolds a record update. -/

namespace Sys2Proof.Machine

/-! ### State.goOn -/

@[simp] theorem State.goOn_cmd (s : State) (ops : List Micro) (l : Label) : (s.goOn ops l).cmd = s.cmd := rfl
@[simp] theorem State.goOn_arg0 (s : State) (ops : List Micro) (l : Label) : (s.goOn ops l).arg0 = s.arg0 := rfl
@[simp] theorem State.goOn_arg1 (s : State) (ops : List Micro) (l : Label) : (s.goOn ops l).arg1 = s.arg1 := rfl
@[simp] theorem State.goOn_busy (s : State) (ops : List Micro) (l : Label) : (s.goOn ops l).busy = s.busy := rfl
@[simp] theorem State.goOn_fsm (s : State) (ops : List Micro) (l : Label) : (s.goOn ops l).fsm = s.fsm := rfl
@[simp] theorem State.goOn_busAnomaly (s : State) (ops : List Micro) (l : Label) : (s.goOn ops l).busAnomaly = s.busAnomaly := rfl
@[simp] theorem State.goOn_cmdOverrun (s : State) (ops : List Micro) (l : Label) : (s.goOn ops l).cmdOverrun = s.cmdOverrun := rfl
@[simp] theorem State.goOn_sdn (s : State) (ops : List Micro) (l : Label) : (s.goOn ops l).sdn = s.sdn := rfl
@[simp] theorem State.goOn_sel (s : State) (ops : List Micro) (l : Label) : (s.goOn ops l).sel = s.sel := rfl
@[simp] theorem State.goOn_code (s : State) (ops : List Micro) (l : Label) : (s.goOn ops l).code = s.code := rfl
@[simp] theorem State.goOn_data (s : State) (ops : List Micro) (l : Label) : (s.goOn ops l).data = s.data := rfl
@[simp] theorem State.goOn_rxlen (s : State) (ops : List Micro) (l : Label) : (s.goOn ops l).rxlen = s.rxlen := rfl
@[simp] theorem State.goOn_cfgFreq (s : State) (ops : List Micro) (l : Label) : (s.goOn ops l).cfgFreq = s.cfgFreq := rfl
@[simp] theorem State.goOn_cfgBaud (s : State) (ops : List Micro) (l : Label) : (s.goOn ops l).cfgBaud = s.cfgBaud := rfl
@[simp] theorem State.goOn_cfgChannel (s : State) (ops : List Micro) (l : Label) : (s.goOn ops l).cfgChannel = s.cfgChannel := rfl
@[simp] theorem State.goOn_cfgSignature (s : State) (ops : List Micro) (l : Label) : (s.goOn ops l).cfgSignature = s.cfgSignature := rfl
@[simp] theorem State.goOn_modeValue (s : State) (ops : List Micro) (l : Label) : (s.goOn ops l).modeValue = s.modeValue := rfl
@[simp] theorem State.goOn_modeValid (s : State) (ops : List Micro) (l : Label) : (s.goOn ops l).modeValid = s.modeValid := rfl
@[simp] theorem State.goOn_tick (s : State) (ops : List Micro) (l : Label) : (s.goOn ops l).tick = s.tick := rfl
@[simp] theorem State.goOn_databuf (s : State) (ops : List Micro) (l : Label) : (s.goOn ops l).databuf = s.databuf := rfl
@[simp] theorem State.goOn_todo (s : State) (ops : List Micro) (l : Label) : (s.goOn ops l).todo = ops := rfl
@[simp] theorem State.goOn_next (s : State) (ops : List Micro) (l : Label) : (s.goOn ops l).next = l := rfl
@[simp] theorem State.goOn_wait (s : State) (ops : List Micro) (l : Label) : (s.goOn ops l).wait = s.wait := rfl
@[simp] theorem State.goOn_t0 (s : State) (ops : List Micro) (l : Label) : (s.goOn ops l).t0 = s.t0 := rfl
@[simp] theorem State.goOn_polls (s : State) (ops : List Micro) (l : Label) : (s.goOn ops l).polls = s.polls := rfl
@[simp] theorem State.goOn_baud (s : State) (ops : List Micro) (l : Label) : (s.goOn ops l).baud = s.baud := rfl
@[simp] theorem State.goOn_s1 (s : State) (ops : List Micro) (l : Label) : (s.goOn ops l).s1 = s.s1 := rfl
@[simp] theorem State.goOn_rx (s : State) (ops : List Micro) (l : Label) : (s.goOn ops l).rx = s.rx := rfl
@[simp] theorem State.goOn_params (s : State) (ops : List Micro) (l : Label) : (s.goOn ops l).params = s.params := rfl
@[simp] theorem State.goOn_grant (s : State) (ops : List Micro) (l : Label) : (s.goOn ops l).grant = s.grant := rfl
@[simp] theorem State.goOn_events (s : State) (ops : List Micro) (l : Label) : (s.goOn ops l).events = s.events := rfl
@[simp] theorem State.goOn_answers (s : State) (ops : List Micro) (l : Label) : (s.goOn ops l).answers = s.answers := rfl
@[simp] theorem State.goOn_levels (s : State) (ops : List Micro) (l : Label) : (s.goOn ops l).levels = s.levels := rfl
@[simp] theorem State.goOn_fresh (s : State) (ops : List Micro) (l : Label) : (s.goOn ops l).fresh = s.fresh := rfl
@[simp] theorem State.goOn_trace (s : State) (ops : List Micro) (l : Label) : (s.goOn ops l).trace = s.trace := rfl
@[simp] theorem State.goOn_hostData (s : State) (ops : List Micro) (l : Label) : (s.goOn ops l).hostData = s.hostData := rfl

/-! ### State.waitTicks -/

@[simp] theorem State.waitTicks_cmd (s : State) (n : Nat) (l : Label) : (s.waitTicks n l).cmd = s.cmd := rfl
@[simp] theorem State.waitTicks_arg0 (s : State) (n : Nat) (l : Label) : (s.waitTicks n l).arg0 = s.arg0 := rfl
@[simp] theorem State.waitTicks_arg1 (s : State) (n : Nat) (l : Label) : (s.waitTicks n l).arg1 = s.arg1 := rfl
@[simp] theorem State.waitTicks_busy (s : State) (n : Nat) (l : Label) : (s.waitTicks n l).busy = s.busy := rfl
@[simp] theorem State.waitTicks_fsm (s : State) (n : Nat) (l : Label) : (s.waitTicks n l).fsm = s.fsm := rfl
@[simp] theorem State.waitTicks_busAnomaly (s : State) (n : Nat) (l : Label) : (s.waitTicks n l).busAnomaly = s.busAnomaly := rfl
@[simp] theorem State.waitTicks_cmdOverrun (s : State) (n : Nat) (l : Label) : (s.waitTicks n l).cmdOverrun = s.cmdOverrun := rfl
@[simp] theorem State.waitTicks_sdn (s : State) (n : Nat) (l : Label) : (s.waitTicks n l).sdn = s.sdn := rfl
@[simp] theorem State.waitTicks_sel (s : State) (n : Nat) (l : Label) : (s.waitTicks n l).sel = s.sel := rfl
@[simp] theorem State.waitTicks_code (s : State) (n : Nat) (l : Label) : (s.waitTicks n l).code = s.code := rfl
@[simp] theorem State.waitTicks_data (s : State) (n : Nat) (l : Label) : (s.waitTicks n l).data = s.data := rfl
@[simp] theorem State.waitTicks_rxlen (s : State) (n : Nat) (l : Label) : (s.waitTicks n l).rxlen = s.rxlen := rfl
@[simp] theorem State.waitTicks_cfgFreq (s : State) (n : Nat) (l : Label) : (s.waitTicks n l).cfgFreq = s.cfgFreq := rfl
@[simp] theorem State.waitTicks_cfgBaud (s : State) (n : Nat) (l : Label) : (s.waitTicks n l).cfgBaud = s.cfgBaud := rfl
@[simp] theorem State.waitTicks_cfgChannel (s : State) (n : Nat) (l : Label) : (s.waitTicks n l).cfgChannel = s.cfgChannel := rfl
@[simp] theorem State.waitTicks_cfgSignature (s : State) (n : Nat) (l : Label) : (s.waitTicks n l).cfgSignature = s.cfgSignature := rfl
@[simp] theorem State.waitTicks_modeValue (s : State) (n : Nat) (l : Label) : (s.waitTicks n l).modeValue = s.modeValue := rfl
@[simp] theorem State.waitTicks_modeValid (s : State) (n : Nat) (l : Label) : (s.waitTicks n l).modeValid = s.modeValid := rfl
@[simp] theorem State.waitTicks_tick (s : State) (n : Nat) (l : Label) : (s.waitTicks n l).tick = s.tick := rfl
@[simp] theorem State.waitTicks_databuf (s : State) (n : Nat) (l : Label) : (s.waitTicks n l).databuf = s.databuf := rfl
@[simp] theorem State.waitTicks_todo (s : State) (n : Nat) (l : Label) : (s.waitTicks n l).todo = [] := rfl
@[simp] theorem State.waitTicks_next (s : State) (n : Nat) (l : Label) : (s.waitTicks n l).next = l := rfl
@[simp] theorem State.waitTicks_wait (s : State) (n : Nat) (l : Label) : (s.waitTicks n l).wait = n := rfl
@[simp] theorem State.waitTicks_t0 (s : State) (n : Nat) (l : Label) : (s.waitTicks n l).t0 = s.t0 := rfl
@[simp] theorem State.waitTicks_polls (s : State) (n : Nat) (l : Label) : (s.waitTicks n l).polls = s.polls := rfl
@[simp] theorem State.waitTicks_baud (s : State) (n : Nat) (l : Label) : (s.waitTicks n l).baud = s.baud := rfl
@[simp] theorem State.waitTicks_s1 (s : State) (n : Nat) (l : Label) : (s.waitTicks n l).s1 = s.s1 := rfl
@[simp] theorem State.waitTicks_rx (s : State) (n : Nat) (l : Label) : (s.waitTicks n l).rx = s.rx := rfl
@[simp] theorem State.waitTicks_params (s : State) (n : Nat) (l : Label) : (s.waitTicks n l).params = s.params := rfl
@[simp] theorem State.waitTicks_grant (s : State) (n : Nat) (l : Label) : (s.waitTicks n l).grant = s.grant := rfl
@[simp] theorem State.waitTicks_events (s : State) (n : Nat) (l : Label) : (s.waitTicks n l).events = s.events := rfl
@[simp] theorem State.waitTicks_answers (s : State) (n : Nat) (l : Label) : (s.waitTicks n l).answers = s.answers := rfl
@[simp] theorem State.waitTicks_levels (s : State) (n : Nat) (l : Label) : (s.waitTicks n l).levels = s.levels := rfl
@[simp] theorem State.waitTicks_fresh (s : State) (n : Nat) (l : Label) : (s.waitTicks n l).fresh = s.fresh := rfl
@[simp] theorem State.waitTicks_trace (s : State) (n : Nat) (l : Label) : (s.waitTicks n l).trace = s.trace ++ [.wait n] := rfl
@[simp] theorem State.waitTicks_hostData (s : State) (n : Nat) (l : Label) : (s.waitTicks n l).hostData = s.hostData := rfl

/-! ### State.finish -/

@[simp] theorem State.finish_cmd (s : State) (c : ResultCode) : (s.finish c).cmd = s.cmd := rfl
@[simp] theorem State.finish_arg0 (s : State) (c : ResultCode) : (s.finish c).arg0 = s.arg0 := rfl
@[simp] theorem State.finish_arg1 (s : State) (c : ResultCode) : (s.finish c).arg1 = s.arg1 := rfl
@[simp] theorem State.finish_busy (s : State) (c : ResultCode) : (s.finish c).busy = false := rfl
@[simp] theorem State.finish_fsm (s : State) (c : ResultCode) : (s.finish c).fsm = s.fsm := rfl
@[simp] theorem State.finish_busAnomaly (s : State) (c : ResultCode) : (s.finish c).busAnomaly = s.busAnomaly := rfl
@[simp] theorem State.finish_cmdOverrun (s : State) (c : ResultCode) : (s.finish c).cmdOverrun = s.cmdOverrun := rfl
@[simp] theorem State.finish_sdn (s : State) (c : ResultCode) : (s.finish c).sdn = s.sdn := rfl
@[simp] theorem State.finish_sel (s : State) (c : ResultCode) : (s.finish c).sel = s.sel := rfl
@[simp] theorem State.finish_code (s : State) (c : ResultCode) : (s.finish c).code = c := rfl
@[simp] theorem State.finish_data (s : State) (c : ResultCode) : (s.finish c).data = s.data := rfl
@[simp] theorem State.finish_rxlen (s : State) (c : ResultCode) : (s.finish c).rxlen = s.rxlen := rfl
@[simp] theorem State.finish_cfgFreq (s : State) (c : ResultCode) : (s.finish c).cfgFreq = s.cfgFreq := rfl
@[simp] theorem State.finish_cfgBaud (s : State) (c : ResultCode) : (s.finish c).cfgBaud = s.cfgBaud := rfl
@[simp] theorem State.finish_cfgChannel (s : State) (c : ResultCode) : (s.finish c).cfgChannel = s.cfgChannel := rfl
@[simp] theorem State.finish_cfgSignature (s : State) (c : ResultCode) : (s.finish c).cfgSignature = s.cfgSignature := rfl
@[simp] theorem State.finish_modeValue (s : State) (c : ResultCode) : (s.finish c).modeValue = s.modeValue := rfl
@[simp] theorem State.finish_modeValid (s : State) (c : ResultCode) : (s.finish c).modeValid = s.modeValid := rfl
@[simp] theorem State.finish_tick (s : State) (c : ResultCode) : (s.finish c).tick = s.tick := rfl
@[simp] theorem State.finish_databuf (s : State) (c : ResultCode) : (s.finish c).databuf = s.databuf := rfl
@[simp] theorem State.finish_todo (s : State) (c : ResultCode) : (s.finish c).todo = s.todo := rfl
@[simp] theorem State.finish_next (s : State) (c : ResultCode) : (s.finish c).next = .idle := rfl
@[simp] theorem State.finish_wait (s : State) (c : ResultCode) : (s.finish c).wait = s.wait := rfl
@[simp] theorem State.finish_t0 (s : State) (c : ResultCode) : (s.finish c).t0 = s.t0 := rfl
@[simp] theorem State.finish_polls (s : State) (c : ResultCode) : (s.finish c).polls = s.polls := rfl
@[simp] theorem State.finish_baud (s : State) (c : ResultCode) : (s.finish c).baud = s.baud := rfl
@[simp] theorem State.finish_s1 (s : State) (c : ResultCode) : (s.finish c).s1 = s.s1 := rfl
@[simp] theorem State.finish_rx (s : State) (c : ResultCode) : (s.finish c).rx = s.rx := rfl
@[simp] theorem State.finish_params (s : State) (c : ResultCode) : (s.finish c).params = s.params := rfl
@[simp] theorem State.finish_grant (s : State) (c : ResultCode) : (s.finish c).grant = s.grant := rfl
@[simp] theorem State.finish_events (s : State) (c : ResultCode) : (s.finish c).events = s.events := rfl
@[simp] theorem State.finish_answers (s : State) (c : ResultCode) : (s.finish c).answers = s.answers := rfl
@[simp] theorem State.finish_levels (s : State) (c : ResultCode) : (s.finish c).levels = s.levels := rfl
@[simp] theorem State.finish_fresh (s : State) (c : ResultCode) : (s.finish c).fresh = s.fresh := rfl
@[simp] theorem State.finish_trace (s : State) (c : ResultCode) : (s.finish c).trace = s.trace := rfl
@[simp] theorem State.finish_hostData (s : State) (c : ResultCode) : (s.finish c).hostData = s.hostData := rfl

/-! ### State.sampled -/

@[simp] theorem State.sampled_cmd (s : State) : s.sampled.cmd = s.cmd := rfl
@[simp] theorem State.sampled_arg0 (s : State) : s.sampled.arg0 = s.arg0 := rfl
@[simp] theorem State.sampled_arg1 (s : State) : s.sampled.arg1 = s.arg1 := rfl
@[simp] theorem State.sampled_busy (s : State) : s.sampled.busy = s.busy := rfl
@[simp] theorem State.sampled_fsm (s : State) : s.sampled.fsm = s.fsm := rfl
@[simp] theorem State.sampled_busAnomaly (s : State) : s.sampled.busAnomaly = s.busAnomaly := rfl
@[simp] theorem State.sampled_cmdOverrun (s : State) : s.sampled.cmdOverrun = s.cmdOverrun := rfl
@[simp] theorem State.sampled_sdn (s : State) : s.sampled.sdn = s.sdn := rfl
@[simp] theorem State.sampled_sel (s : State) : s.sampled.sel = s.sel := rfl
@[simp] theorem State.sampled_code (s : State) : s.sampled.code = s.code := rfl
@[simp] theorem State.sampled_data (s : State) : s.sampled.data = s.data := rfl
@[simp] theorem State.sampled_rxlen (s : State) : s.sampled.rxlen = s.rxlen := rfl
@[simp] theorem State.sampled_cfgFreq (s : State) : s.sampled.cfgFreq = s.cfgFreq := rfl
@[simp] theorem State.sampled_cfgBaud (s : State) : s.sampled.cfgBaud = s.cfgBaud := rfl
@[simp] theorem State.sampled_cfgChannel (s : State) : s.sampled.cfgChannel = s.cfgChannel := rfl
@[simp] theorem State.sampled_cfgSignature (s : State) : s.sampled.cfgSignature = s.cfgSignature := rfl
@[simp] theorem State.sampled_modeValue (s : State) : s.sampled.modeValue = s.modeValue := rfl
@[simp] theorem State.sampled_modeValid (s : State) : s.sampled.modeValid = s.modeValid := rfl
@[simp] theorem State.sampled_tick (s : State) : s.sampled.tick = s.tick := rfl
@[simp] theorem State.sampled_databuf (s : State) : s.sampled.databuf = s.databuf := rfl
@[simp] theorem State.sampled_todo (s : State) : s.sampled.todo = s.todo := rfl
@[simp] theorem State.sampled_next (s : State) : s.sampled.next = s.next := rfl
@[simp] theorem State.sampled_wait (s : State) : s.sampled.wait = s.wait := rfl
@[simp] theorem State.sampled_t0 (s : State) : s.sampled.t0 = s.t0 := rfl
@[simp] theorem State.sampled_polls (s : State) : s.sampled.polls = s.polls := rfl
@[simp] theorem State.sampled_baud (s : State) : s.sampled.baud = s.baud := rfl
@[simp] theorem State.sampled_s1 (s : State) : s.sampled.s1 = s.s1 := rfl
@[simp] theorem State.sampled_rx (s : State) : s.sampled.rx = s.rx := rfl
@[simp] theorem State.sampled_params (s : State) : s.sampled.params = s.params := rfl
@[simp] theorem State.sampled_grant (s : State) : s.sampled.grant = s.grant := rfl
@[simp] theorem State.sampled_events (s : State) : s.sampled.events = s.events := rfl
@[simp] theorem State.sampled_answers (s : State) : s.sampled.answers = s.answers := rfl
@[simp] theorem State.sampled_levels (s : State) : s.sampled.levels = s.levels.advance := rfl
@[simp] theorem State.sampled_fresh (s : State) : s.sampled.fresh = s.fresh := rfl
@[simp] theorem State.sampled_trace (s : State) : s.sampled.trace = s.trace ++ [.irq s.nextLevel] := rfl
@[simp] theorem State.sampled_hostData (s : State) : s.sampled.hostData = s.hostData := rfl

/-! ### State.tickOnce -/

@[simp] theorem State.tickOnce_cmd (s : State) : s.tickOnce.cmd = s.cmd := rfl
@[simp] theorem State.tickOnce_arg0 (s : State) : s.tickOnce.arg0 = s.arg0 := rfl
@[simp] theorem State.tickOnce_arg1 (s : State) : s.tickOnce.arg1 = s.arg1 := rfl
@[simp] theorem State.tickOnce_busy (s : State) : s.tickOnce.busy = s.busy := rfl
@[simp] theorem State.tickOnce_fsm (s : State) : s.tickOnce.fsm = s.fsm := rfl
@[simp] theorem State.tickOnce_busAnomaly (s : State) : s.tickOnce.busAnomaly = s.busAnomaly := rfl
@[simp] theorem State.tickOnce_cmdOverrun (s : State) : s.tickOnce.cmdOverrun = s.cmdOverrun := rfl
@[simp] theorem State.tickOnce_sdn (s : State) : s.tickOnce.sdn = s.sdn := rfl
@[simp] theorem State.tickOnce_sel (s : State) : s.tickOnce.sel = s.sel := rfl
@[simp] theorem State.tickOnce_code (s : State) : s.tickOnce.code = s.code := rfl
@[simp] theorem State.tickOnce_data (s : State) : s.tickOnce.data = s.data := rfl
@[simp] theorem State.tickOnce_rxlen (s : State) : s.tickOnce.rxlen = s.rxlen := rfl
@[simp] theorem State.tickOnce_cfgFreq (s : State) : s.tickOnce.cfgFreq = s.cfgFreq := rfl
@[simp] theorem State.tickOnce_cfgBaud (s : State) : s.tickOnce.cfgBaud = s.cfgBaud := rfl
@[simp] theorem State.tickOnce_cfgChannel (s : State) : s.tickOnce.cfgChannel = s.cfgChannel := rfl
@[simp] theorem State.tickOnce_cfgSignature (s : State) : s.tickOnce.cfgSignature = s.cfgSignature := rfl
@[simp] theorem State.tickOnce_modeValue (s : State) : s.tickOnce.modeValue = s.modeValue := rfl
@[simp] theorem State.tickOnce_modeValid (s : State) : s.tickOnce.modeValid = s.modeValid := rfl
@[simp] theorem State.tickOnce_tick (s : State) : s.tickOnce.tick = s.tick + 1 := rfl
@[simp] theorem State.tickOnce_databuf (s : State) : s.tickOnce.databuf = s.databuf := rfl
@[simp] theorem State.tickOnce_todo (s : State) : s.tickOnce.todo = s.todo := rfl
@[simp] theorem State.tickOnce_next (s : State) : s.tickOnce.next = s.next := rfl
@[simp] theorem State.tickOnce_wait (s : State) : s.tickOnce.wait = s.wait - 1 := rfl
@[simp] theorem State.tickOnce_t0 (s : State) : s.tickOnce.t0 = s.t0 := rfl
@[simp] theorem State.tickOnce_polls (s : State) : s.tickOnce.polls = s.polls := rfl
@[simp] theorem State.tickOnce_baud (s : State) : s.tickOnce.baud = s.baud := rfl
@[simp] theorem State.tickOnce_s1 (s : State) : s.tickOnce.s1 = s.s1 := rfl
@[simp] theorem State.tickOnce_rx (s : State) : s.tickOnce.rx = s.rx := rfl
@[simp] theorem State.tickOnce_params (s : State) : s.tickOnce.params = s.params := rfl
@[simp] theorem State.tickOnce_grant (s : State) : s.tickOnce.grant = s.grant := rfl
@[simp] theorem State.tickOnce_events (s : State) : s.tickOnce.events = s.events := rfl
@[simp] theorem State.tickOnce_answers (s : State) : s.tickOnce.answers = s.answers := rfl
@[simp] theorem State.tickOnce_levels (s : State) : s.tickOnce.levels = s.levels := rfl
@[simp] theorem State.tickOnce_fresh (s : State) : s.tickOnce.fresh = s.fresh := rfl
@[simp] theorem State.tickOnce_trace (s : State) : s.tickOnce.trace = s.trace := rfl
@[simp] theorem State.tickOnce_hostData (s : State) : s.tickOnce.hostData = s.hostData := rfl

/-! ### State.issue -/

@[simp] theorem State.issue_cmd (s : State) (w : Word) : (s.issue w).cmd = w := rfl
@[simp] theorem State.issue_arg0 (s : State) (w : Word) : (s.issue w).arg0 = s.arg0 := rfl
@[simp] theorem State.issue_arg1 (s : State) (w : Word) : (s.issue w).arg1 = s.arg1 := rfl
@[simp] theorem State.issue_busy (s : State) (w : Word) : (s.issue w).busy = true := rfl
@[simp] theorem State.issue_fsm (s : State) (w : Word) : (s.issue w).fsm = s.fsm := rfl
@[simp] theorem State.issue_busAnomaly (s : State) (w : Word) : (s.issue w).busAnomaly = s.busAnomaly := rfl
@[simp] theorem State.issue_cmdOverrun (s : State) (w : Word) : (s.issue w).cmdOverrun = s.cmdOverrun := rfl
@[simp] theorem State.issue_sdn (s : State) (w : Word) : (s.issue w).sdn = s.sdn := rfl
@[simp] theorem State.issue_sel (s : State) (w : Word) : (s.issue w).sel = s.sel := rfl
@[simp] theorem State.issue_code (s : State) (w : Word) : (s.issue w).code = .pending := rfl
@[simp] theorem State.issue_data (s : State) (w : Word) : (s.issue w).data = s.data := rfl
@[simp] theorem State.issue_rxlen (s : State) (w : Word) : (s.issue w).rxlen = s.rxlen := rfl
@[simp] theorem State.issue_cfgFreq (s : State) (w : Word) : (s.issue w).cfgFreq = s.cfgFreq := rfl
@[simp] theorem State.issue_cfgBaud (s : State) (w : Word) : (s.issue w).cfgBaud = s.cfgBaud := rfl
@[simp] theorem State.issue_cfgChannel (s : State) (w : Word) : (s.issue w).cfgChannel = s.cfgChannel := rfl
@[simp] theorem State.issue_cfgSignature (s : State) (w : Word) : (s.issue w).cfgSignature = s.cfgSignature := rfl
@[simp] theorem State.issue_modeValue (s : State) (w : Word) : (s.issue w).modeValue = s.modeValue := rfl
@[simp] theorem State.issue_modeValid (s : State) (w : Word) : (s.issue w).modeValid = s.modeValid := rfl
@[simp] theorem State.issue_tick (s : State) (w : Word) : (s.issue w).tick = s.tick := rfl
@[simp] theorem State.issue_databuf (s : State) (w : Word) : (s.issue w).databuf = s.databuf := rfl
@[simp] theorem State.issue_todo (s : State) (w : Word) : (s.issue w).todo = [] := rfl
@[simp] theorem State.issue_next (s : State) (w : Word) : (s.issue w).next = .decode := rfl
@[simp] theorem State.issue_wait (s : State) (w : Word) : (s.issue w).wait = 0 := rfl
@[simp] theorem State.issue_t0 (s : State) (w : Word) : (s.issue w).t0 = s.t0 := rfl
@[simp] theorem State.issue_polls (s : State) (w : Word) : (s.issue w).polls = s.polls := rfl
@[simp] theorem State.issue_baud (s : State) (w : Word) : (s.issue w).baud = s.baud := rfl
@[simp] theorem State.issue_s1 (s : State) (w : Word) : (s.issue w).s1 = s.s1 := rfl
@[simp] theorem State.issue_rx (s : State) (w : Word) : (s.issue w).rx = s.rx := rfl
@[simp] theorem State.issue_params (s : State) (w : Word) : (s.issue w).params = s.params := rfl
@[simp] theorem State.issue_grant (s : State) (w : Word) : (s.issue w).grant = s.grant := rfl
@[simp] theorem State.issue_events (s : State) (w : Word) : (s.issue w).events = s.events := rfl
@[simp] theorem State.issue_answers (s : State) (w : Word) : (s.issue w).answers = s.answers := rfl
@[simp] theorem State.issue_levels (s : State) (w : Word) : (s.issue w).levels = s.levels := rfl
@[simp] theorem State.issue_fresh (s : State) (w : Word) : (s.issue w).fresh = s.fresh := rfl
@[simp] theorem State.issue_trace (s : State) (w : Word) : (s.issue w).trace = s.trace := rfl
@[simp] theorem State.issue_hostData (s : State) (w : Word) : (s.issue w).hostData = s.hostData := rfl

/-! ### State.clearFlags -/

@[simp] theorem State.clearFlags_cmd (s : State) (w : Word) : (s.clearFlags w).cmd = s.cmd := rfl
@[simp] theorem State.clearFlags_arg0 (s : State) (w : Word) : (s.clearFlags w).arg0 = s.arg0 := rfl
@[simp] theorem State.clearFlags_arg1 (s : State) (w : Word) : (s.clearFlags w).arg1 = s.arg1 := rfl
@[simp] theorem State.clearFlags_busy (s : State) (w : Word) : (s.clearFlags w).busy = s.busy := rfl
@[simp] theorem State.clearFlags_fsm (s : State) (w : Word) : (s.clearFlags w).fsm = s.fsm := rfl
@[simp] theorem State.clearFlags_busAnomaly (s : State) (w : Word) : (s.clearFlags w).busAnomaly = (s.busAnomaly && !w.getLsbD 8) := rfl
@[simp] theorem State.clearFlags_cmdOverrun (s : State) (w : Word) : (s.clearFlags w).cmdOverrun = (s.cmdOverrun && !w.getLsbD 9) := rfl
@[simp] theorem State.clearFlags_sdn (s : State) (w : Word) : (s.clearFlags w).sdn = s.sdn := rfl
@[simp] theorem State.clearFlags_sel (s : State) (w : Word) : (s.clearFlags w).sel = s.sel := rfl
@[simp] theorem State.clearFlags_code (s : State) (w : Word) : (s.clearFlags w).code = s.code := rfl
@[simp] theorem State.clearFlags_data (s : State) (w : Word) : (s.clearFlags w).data = s.data := rfl
@[simp] theorem State.clearFlags_rxlen (s : State) (w : Word) : (s.clearFlags w).rxlen = s.rxlen := rfl
@[simp] theorem State.clearFlags_cfgFreq (s : State) (w : Word) : (s.clearFlags w).cfgFreq = s.cfgFreq := rfl
@[simp] theorem State.clearFlags_cfgBaud (s : State) (w : Word) : (s.clearFlags w).cfgBaud = s.cfgBaud := rfl
@[simp] theorem State.clearFlags_cfgChannel (s : State) (w : Word) : (s.clearFlags w).cfgChannel = s.cfgChannel := rfl
@[simp] theorem State.clearFlags_cfgSignature (s : State) (w : Word) : (s.clearFlags w).cfgSignature = s.cfgSignature := rfl
@[simp] theorem State.clearFlags_modeValue (s : State) (w : Word) : (s.clearFlags w).modeValue = s.modeValue := rfl
@[simp] theorem State.clearFlags_modeValid (s : State) (w : Word) : (s.clearFlags w).modeValid = s.modeValid := rfl
@[simp] theorem State.clearFlags_tick (s : State) (w : Word) : (s.clearFlags w).tick = s.tick := rfl
@[simp] theorem State.clearFlags_databuf (s : State) (w : Word) : (s.clearFlags w).databuf = s.databuf := rfl
@[simp] theorem State.clearFlags_todo (s : State) (w : Word) : (s.clearFlags w).todo = s.todo := rfl
@[simp] theorem State.clearFlags_next (s : State) (w : Word) : (s.clearFlags w).next = s.next := rfl
@[simp] theorem State.clearFlags_wait (s : State) (w : Word) : (s.clearFlags w).wait = s.wait := rfl
@[simp] theorem State.clearFlags_t0 (s : State) (w : Word) : (s.clearFlags w).t0 = s.t0 := rfl
@[simp] theorem State.clearFlags_polls (s : State) (w : Word) : (s.clearFlags w).polls = s.polls := rfl
@[simp] theorem State.clearFlags_baud (s : State) (w : Word) : (s.clearFlags w).baud = s.baud := rfl
@[simp] theorem State.clearFlags_s1 (s : State) (w : Word) : (s.clearFlags w).s1 = s.s1 := rfl
@[simp] theorem State.clearFlags_rx (s : State) (w : Word) : (s.clearFlags w).rx = s.rx := rfl
@[simp] theorem State.clearFlags_params (s : State) (w : Word) : (s.clearFlags w).params = s.params := rfl
@[simp] theorem State.clearFlags_grant (s : State) (w : Word) : (s.clearFlags w).grant = s.grant := rfl
@[simp] theorem State.clearFlags_events (s : State) (w : Word) : (s.clearFlags w).events = s.events := rfl
@[simp] theorem State.clearFlags_answers (s : State) (w : Word) : (s.clearFlags w).answers = s.answers := rfl
@[simp] theorem State.clearFlags_levels (s : State) (w : Word) : (s.clearFlags w).levels = s.levels := rfl
@[simp] theorem State.clearFlags_fresh (s : State) (w : Word) : (s.clearFlags w).fresh = s.fresh := rfl
@[simp] theorem State.clearFlags_trace (s : State) (w : Word) : (s.clearFlags w).trace = s.trace := rfl
@[simp] theorem State.clearFlags_hostData (s : State) (w : Word) : (s.clearFlags w).hostData = s.hostData := rfl

/-! ### State.hostReads -/

@[simp] theorem State.hostReads_cmd (s : State) (w : Word) : (s.hostReads w).cmd = s.cmd := rfl
@[simp] theorem State.hostReads_arg0 (s : State) (w : Word) : (s.hostReads w).arg0 = s.arg0 := rfl
@[simp] theorem State.hostReads_arg1 (s : State) (w : Word) : (s.hostReads w).arg1 = s.arg1 := rfl
@[simp] theorem State.hostReads_busy (s : State) (w : Word) : (s.hostReads w).busy = s.busy := rfl
@[simp] theorem State.hostReads_fsm (s : State) (w : Word) : (s.hostReads w).fsm = s.fsm := rfl
@[simp] theorem State.hostReads_busAnomaly (s : State) (w : Word) : (s.hostReads w).busAnomaly = s.busAnomaly := rfl
@[simp] theorem State.hostReads_cmdOverrun (s : State) (w : Word) : (s.hostReads w).cmdOverrun = s.cmdOverrun := rfl
@[simp] theorem State.hostReads_sdn (s : State) (w : Word) : (s.hostReads w).sdn = s.sdn := rfl
@[simp] theorem State.hostReads_sel (s : State) (w : Word) : (s.hostReads w).sel = s.sel := rfl
@[simp] theorem State.hostReads_code (s : State) (w : Word) : (s.hostReads w).code = s.code := rfl
@[simp] theorem State.hostReads_data (s : State) (w : Word) : (s.hostReads w).data = s.data := rfl
@[simp] theorem State.hostReads_rxlen (s : State) (w : Word) : (s.hostReads w).rxlen = s.rxlen := rfl
@[simp] theorem State.hostReads_cfgFreq (s : State) (w : Word) : (s.hostReads w).cfgFreq = s.cfgFreq := rfl
@[simp] theorem State.hostReads_cfgBaud (s : State) (w : Word) : (s.hostReads w).cfgBaud = s.cfgBaud := rfl
@[simp] theorem State.hostReads_cfgChannel (s : State) (w : Word) : (s.hostReads w).cfgChannel = s.cfgChannel := rfl
@[simp] theorem State.hostReads_cfgSignature (s : State) (w : Word) : (s.hostReads w).cfgSignature = s.cfgSignature := rfl
@[simp] theorem State.hostReads_modeValue (s : State) (w : Word) : (s.hostReads w).modeValue = s.modeValue := rfl
@[simp] theorem State.hostReads_modeValid (s : State) (w : Word) : (s.hostReads w).modeValid = s.modeValid := rfl
@[simp] theorem State.hostReads_tick (s : State) (w : Word) : (s.hostReads w).tick = s.tick := rfl
@[simp] theorem State.hostReads_databuf (s : State) (w : Word) : (s.hostReads w).databuf = s.databuf := rfl
@[simp] theorem State.hostReads_todo (s : State) (w : Word) : (s.hostReads w).todo = s.todo := rfl
@[simp] theorem State.hostReads_next (s : State) (w : Word) : (s.hostReads w).next = s.next := rfl
@[simp] theorem State.hostReads_wait (s : State) (w : Word) : (s.hostReads w).wait = s.wait := rfl
@[simp] theorem State.hostReads_t0 (s : State) (w : Word) : (s.hostReads w).t0 = s.t0 := rfl
@[simp] theorem State.hostReads_polls (s : State) (w : Word) : (s.hostReads w).polls = s.polls := rfl
@[simp] theorem State.hostReads_baud (s : State) (w : Word) : (s.hostReads w).baud = s.baud := rfl
@[simp] theorem State.hostReads_s1 (s : State) (w : Word) : (s.hostReads w).s1 = s.s1 := rfl
@[simp] theorem State.hostReads_rx (s : State) (w : Word) : (s.hostReads w).rx = s.rx := rfl
@[simp] theorem State.hostReads_params (s : State) (w : Word) : (s.hostReads w).params = s.params := rfl
@[simp] theorem State.hostReads_grant (s : State) (w : Word) : (s.hostReads w).grant = s.grant := rfl
@[simp] theorem State.hostReads_events (s : State) (w : Word) : (s.hostReads w).events = s.events := rfl
@[simp] theorem State.hostReads_answers (s : State) (w : Word) : (s.hostReads w).answers = s.answers := rfl
@[simp] theorem State.hostReads_levels (s : State) (w : Word) : (s.hostReads w).levels = s.levels := rfl
@[simp] theorem State.hostReads_fresh (s : State) (w : Word) : (s.hostReads w).fresh = s.fresh := rfl
@[simp] theorem State.hostReads_trace (s : State) (w : Word) : (s.hostReads w).trace = s.trace := rfl
@[simp] theorem State.hostReads_hostData (s : State) (w : Word) : (s.hostReads w).hostData = w := rfl

/-! ### State.hostReadsOpen -/

@[simp] theorem State.hostReadsOpen_cmd (s : State) (m f : Word) : (s.hostReadsOpen m f).cmd = s.cmd := rfl
@[simp] theorem State.hostReadsOpen_arg0 (s : State) (m f : Word) : (s.hostReadsOpen m f).arg0 = s.arg0 := rfl
@[simp] theorem State.hostReadsOpen_arg1 (s : State) (m f : Word) : (s.hostReadsOpen m f).arg1 = s.arg1 := rfl
@[simp] theorem State.hostReadsOpen_busy (s : State) (m f : Word) : (s.hostReadsOpen m f).busy = s.busy := rfl
@[simp] theorem State.hostReadsOpen_fsm (s : State) (m f : Word) : (s.hostReadsOpen m f).fsm = s.fsm := rfl
@[simp] theorem State.hostReadsOpen_busAnomaly (s : State) (m f : Word) : (s.hostReadsOpen m f).busAnomaly = s.busAnomaly := rfl
@[simp] theorem State.hostReadsOpen_cmdOverrun (s : State) (m f : Word) : (s.hostReadsOpen m f).cmdOverrun = s.cmdOverrun := rfl
@[simp] theorem State.hostReadsOpen_sdn (s : State) (m f : Word) : (s.hostReadsOpen m f).sdn = s.sdn := rfl
@[simp] theorem State.hostReadsOpen_sel (s : State) (m f : Word) : (s.hostReadsOpen m f).sel = s.sel := rfl
@[simp] theorem State.hostReadsOpen_code (s : State) (m f : Word) : (s.hostReadsOpen m f).code = s.code := rfl
@[simp] theorem State.hostReadsOpen_data (s : State) (m f : Word) : (s.hostReadsOpen m f).data = s.data := rfl
@[simp] theorem State.hostReadsOpen_rxlen (s : State) (m f : Word) : (s.hostReadsOpen m f).rxlen = s.rxlen := rfl
@[simp] theorem State.hostReadsOpen_cfgFreq (s : State) (m f : Word) : (s.hostReadsOpen m f).cfgFreq = s.cfgFreq := rfl
@[simp] theorem State.hostReadsOpen_cfgBaud (s : State) (m f : Word) : (s.hostReadsOpen m f).cfgBaud = s.cfgBaud := rfl
@[simp] theorem State.hostReadsOpen_cfgChannel (s : State) (m f : Word) : (s.hostReadsOpen m f).cfgChannel = s.cfgChannel := rfl
@[simp] theorem State.hostReadsOpen_cfgSignature (s : State) (m f : Word) : (s.hostReadsOpen m f).cfgSignature = s.cfgSignature := rfl
@[simp] theorem State.hostReadsOpen_modeValue (s : State) (m f : Word) : (s.hostReadsOpen m f).modeValue = s.modeValue := rfl
@[simp] theorem State.hostReadsOpen_modeValid (s : State) (m f : Word) : (s.hostReadsOpen m f).modeValid = s.modeValid := rfl
@[simp] theorem State.hostReadsOpen_tick (s : State) (m f : Word) : (s.hostReadsOpen m f).tick = s.tick := rfl
@[simp] theorem State.hostReadsOpen_databuf (s : State) (m f : Word) : (s.hostReadsOpen m f).databuf = s.databuf := rfl
@[simp] theorem State.hostReadsOpen_todo (s : State) (m f : Word) : (s.hostReadsOpen m f).todo = s.todo := rfl
@[simp] theorem State.hostReadsOpen_next (s : State) (m f : Word) : (s.hostReadsOpen m f).next = s.next := rfl
@[simp] theorem State.hostReadsOpen_wait (s : State) (m f : Word) : (s.hostReadsOpen m f).wait = s.wait := rfl
@[simp] theorem State.hostReadsOpen_t0 (s : State) (m f : Word) : (s.hostReadsOpen m f).t0 = s.t0 := rfl
@[simp] theorem State.hostReadsOpen_polls (s : State) (m f : Word) : (s.hostReadsOpen m f).polls = s.polls := rfl
@[simp] theorem State.hostReadsOpen_baud (s : State) (m f : Word) : (s.hostReadsOpen m f).baud = s.baud := rfl
@[simp] theorem State.hostReadsOpen_s1 (s : State) (m f : Word) : (s.hostReadsOpen m f).s1 = s.s1 := rfl
@[simp] theorem State.hostReadsOpen_rx (s : State) (m f : Word) : (s.hostReadsOpen m f).rx = s.rx := rfl
@[simp] theorem State.hostReadsOpen_params (s : State) (m f : Word) : (s.hostReadsOpen m f).params = s.params := rfl
@[simp] theorem State.hostReadsOpen_grant (s : State) (m f : Word) : (s.hostReadsOpen m f).grant = s.grant := rfl
@[simp] theorem State.hostReadsOpen_events (s : State) (m f : Word) : (s.hostReadsOpen m f).events = s.events := rfl
@[simp] theorem State.hostReadsOpen_answers (s : State) (m f : Word) : (s.hostReadsOpen m f).answers = s.answers := rfl
@[simp] theorem State.hostReadsOpen_levels (s : State) (m f : Word) : (s.hostReadsOpen m f).levels = s.levels := rfl
@[simp] theorem State.hostReadsOpen_fresh (s : State) (m f : Word) : (s.hostReadsOpen m f).fresh = s.fresh.advance := rfl
@[simp] theorem State.hostReadsOpen_trace (s : State) (m f : Word) : (s.hostReadsOpen m f).trace = s.trace := rfl
@[simp] theorem State.hostReadsOpen_hostData (s : State) (m f : Word) : (s.hostReadsOpen m f).hostData = (s.nextFresh &&& m) ||| f := rfl

/-! ### State.blockReset -/

@[simp] theorem State.blockReset_cmd (s : State) : s.blockReset.cmd = State.reset.cmd := rfl
@[simp] theorem State.blockReset_arg0 (s : State) : s.blockReset.arg0 = State.reset.arg0 := rfl
@[simp] theorem State.blockReset_arg1 (s : State) : s.blockReset.arg1 = State.reset.arg1 := rfl
@[simp] theorem State.blockReset_busy (s : State) : s.blockReset.busy = State.reset.busy := rfl
@[simp] theorem State.blockReset_fsm (s : State) : s.blockReset.fsm = State.reset.fsm := rfl
@[simp] theorem State.blockReset_busAnomaly (s : State) : s.blockReset.busAnomaly = State.reset.busAnomaly := rfl
@[simp] theorem State.blockReset_cmdOverrun (s : State) : s.blockReset.cmdOverrun = State.reset.cmdOverrun := rfl
@[simp] theorem State.blockReset_sdn (s : State) : s.blockReset.sdn = State.reset.sdn := rfl
@[simp] theorem State.blockReset_sel (s : State) : s.blockReset.sel = State.reset.sel := rfl
@[simp] theorem State.blockReset_code (s : State) : s.blockReset.code = State.reset.code := rfl
@[simp] theorem State.blockReset_data (s : State) : s.blockReset.data = State.reset.data := rfl
@[simp] theorem State.blockReset_rxlen (s : State) : s.blockReset.rxlen = State.reset.rxlen := rfl
@[simp] theorem State.blockReset_cfgFreq (s : State) : s.blockReset.cfgFreq = State.reset.cfgFreq := rfl
@[simp] theorem State.blockReset_cfgBaud (s : State) : s.blockReset.cfgBaud = State.reset.cfgBaud := rfl
@[simp] theorem State.blockReset_cfgChannel (s : State) : s.blockReset.cfgChannel = State.reset.cfgChannel := rfl
@[simp] theorem State.blockReset_cfgSignature (s : State) : s.blockReset.cfgSignature = State.reset.cfgSignature := rfl
@[simp] theorem State.blockReset_modeValue (s : State) : s.blockReset.modeValue = State.reset.modeValue := rfl
@[simp] theorem State.blockReset_modeValid (s : State) : s.blockReset.modeValid = State.reset.modeValid := rfl
@[simp] theorem State.blockReset_tick (s : State) : s.blockReset.tick = State.reset.tick := rfl
@[simp] theorem State.blockReset_databuf (s : State) : s.blockReset.databuf = State.reset.databuf := rfl
@[simp] theorem State.blockReset_todo (s : State) : s.blockReset.todo = State.reset.todo := rfl
@[simp] theorem State.blockReset_next (s : State) : s.blockReset.next = State.reset.next := rfl
@[simp] theorem State.blockReset_wait (s : State) : s.blockReset.wait = State.reset.wait := rfl
@[simp] theorem State.blockReset_t0 (s : State) : s.blockReset.t0 = State.reset.t0 := rfl
@[simp] theorem State.blockReset_polls (s : State) : s.blockReset.polls = State.reset.polls := rfl
@[simp] theorem State.blockReset_baud (s : State) : s.blockReset.baud = State.reset.baud := rfl
@[simp] theorem State.blockReset_s1 (s : State) : s.blockReset.s1 = State.reset.s1 := rfl
@[simp] theorem State.blockReset_rx (s : State) : s.blockReset.rx = State.reset.rx := rfl
@[simp] theorem State.blockReset_params (s : State) : s.blockReset.params = s.params := rfl
@[simp] theorem State.blockReset_grant (s : State) : s.blockReset.grant = s.grant := rfl
@[simp] theorem State.blockReset_events (s : State) : s.blockReset.events = s.events := rfl
@[simp] theorem State.blockReset_answers (s : State) : s.blockReset.answers = s.answers := rfl
@[simp] theorem State.blockReset_levels (s : State) : s.blockReset.levels = s.levels := rfl
@[simp] theorem State.blockReset_fresh (s : State) : s.blockReset.fresh = s.fresh := rfl
@[simp] theorem State.blockReset_trace (s : State) : s.blockReset.trace = s.trace ++ [.blockReset] := rfl
@[simp] theorem State.blockReset_hostData (s : State) : s.blockReset.hostData = s.hostData := rfl

end Sys2Proof.Machine
end

