-- ==== Sys2Proof/Laws/Writers.lean ====
section
/-! SUPPORT. Which operations write a register that one command alone writes, and that no other command gets to them. -/

namespace Sys2Proof.Machine

/-! ### The registers with one writer -/

/-- The command an operation belongs to, if it writes a register that only one command writes. -/
def Micro.owner : Micro → Option Instr
  | .setCfgFreq _ => some .setFrequency
  | .setCfgBaud _ => some .setBaudRate
  | .setCfgChannel _ => some .setChannel
  | .setCfgSignature _ => some .setSignature
  | .setSdn _ => some .hardwareReset
  | .setData => some .readReg
  | .frame _ _ | .select _ | .send _ | .ask _ | .recv _ | .setFsm _ | .setMode _ | .clearMode | .testAnomaly => none
  | .setT0 | .clearPolls | .countPoll | .keepS1 | .calculate _ | .storeRx | .finish _ => none

/-- The command a position belongs to, if it leads to such an operation. -/
def Label.owner : Label → Option Instr
  | .baudDone => some .setBaudRate
  | .sdnOff | .sdnRelease => some .hardwareReset
  | .idle | .decode | .bootBaud | .sendHead | .sendSample | .sendStatus | .sendSent | .sendTimeout => none
  | .waitHead _ | .rxSample _ | .rxStatus _ | .pollSleep _ | .fetch _ | .porHead | .porTest | .porStart | .sdnOn => none

/-- Nobody's, or the command's own. -/
def allows (i : Instr) (o : Option Instr) : Bool := o == none || o == some i

/-- Everything ahead of `s` is the command's own. -/
def State.Ahead (i : Instr) (s : State) : Prop :=
  s.todo.all (fun op => allows i op.owner) = true ∧ allows i s.next.owner = true

/-- Operations that are nobody's. -/
def common (ops : List Micro) : Bool := ops.all (fun op => op.owner == none)

theorem common_append (a b : List Micro) (ha : common a = true) (hb : common b = true) : common (a ++ b) = true := by
  simp only [common, List.all_append] at *
  rw [ha, hb]; rfl

theorem common_bootTable (t : List (ChipAddr × Byte)) :
    common (t.flatMap (fun row => writeReg (regByte row.1) row.2)) = true := by
  induction t with
  | nil => rfl
  | cons a t ih => rw [List.flatMap_cons]; exact common_append _ _ rfl ih

theorem common_bootFirst (p : Params) (f k : Nat) : common (bootFirst p f k) = true := by
  unfold bootFirst
  exact common_append _ _ (common_append _ _ (common_bootTable _) rfl) rfl

theorem common_bootRest (p : Params) (b : BaudValues) (ch : Byte) (sig : BitVec 16) :
    common (bootRest p b ch sig) = true := by
  unfold bootRest
  split <;> rfl

theorem common_frameSteps (dummy header : Byte) (sent : List Byte) : common (frameSteps dummy header sent) = true := by
  simp only [common, frameSteps, writeWindow, readWindow]
  split <;> simp [Micro.owner]

theorem ahead_of_common (i : Instr) (ops : List Micro) (h : common ops = true) :
    ops.all (fun op => allows i op.owner) = true := by
  simp only [common, List.all_eq_true, beq_iff_eq] at h ⊢
  intro op hop
  simp [allows, h op hop]

theorem State.Ahead.goOn (i : Instr) (s : State) (ops : List Micro) (l : Label) (h : common ops = true)
    (hl : allows i l.owner = true) : (s.goOn ops l).Ahead i := ⟨ahead_of_common i ops h, hl⟩

theorem State.Ahead.waitTicks (i : Instr) (s : State) (n : Nat) (l : Label) (hl : allows i l.owner = true) :
    (s.waitTicks n l).Ahead i := ⟨rfl, hl⟩

theorem State.Ahead.notReceived (i : Instr) (s : State) (ops : List Micro) (who : Poller) (h : common ops = true) :
    (s.notReceived ops who).Ahead i := by
  cases who
  · exact State.Ahead.goOn i s _ _ (common_append _ _ h rfl) rfl
  · exact State.Ahead.goOn i s _ _ h rfl
  · exact State.Ahead.goOn i s _ _ h rfl

theorem State.enter_ahead (i : Instr) (s : State) (ht : s.todo = []) (hl : allows i s.next.owner = true) :
    s.enter.Ahead i := by
  have hs : s.Ahead i := ⟨by rw [ht]; rfl, hl⟩
  unfold State.enter
  split
  · exact hs
  · exact hs
  · rename_i hn
    rw [hn] at hl
    have hi : i = .setBaudRate := by
      simp only [allows, Label.owner, Bool.or_eq_true, beq_iff_eq, reduceCtorEq, Option.some.injEq, false_or] at hl
      exact hl.symm
    subst hi
    unfold State.atBaudDone
    split
    · exact State.Ahead.goOn _ s _ _ rfl rfl
    · refine ⟨?_, rfl⟩
      show (writeBaud s.params s.baud ++ [Micro.setCfgBaud s.arg0, Micro.finish .ok]).all _ = true
      rfl
  · exact State.Ahead.goOn i s _ _ (common_append _ _ (common_bootRest _ _ _ _) rfl) rfl
  · unfold State.atSendHead
    split <;> exact State.Ahead.goOn i s _ _ rfl rfl
  · unfold State.atSendSample
    split
    · exact State.Ahead.goOn i _ _ _ rfl rfl
    · exact State.Ahead.waitTicks i _ _ _ rfl
  · unfold State.atSendStatus
    split
    · exact State.Ahead.goOn i s _ _ rfl rfl
    · exact State.Ahead.waitTicks i s _ _ rfl
  · unfold State.atSendSent
    split <;> exact State.Ahead.goOn i s _ _ rfl rfl
  · unfold State.atSendTimeout
    refine State.Ahead.goOn i s _ _ (common_append _ _ ?_ rfl) rfl
    split <;> rfl
  · unfold State.atWaitHead
    split <;> exact State.Ahead.goOn i s _ _ rfl rfl
  · unfold State.atRxSample
    split
    · exact State.Ahead.goOn i _ _ _ rfl rfl
    · exact State.Ahead.notReceived i _ _ _ rfl
  · unfold State.atRxStatus
    split
    · split <;> exact State.Ahead.goOn i s _ _ rfl rfl
    · split <;> exact State.Ahead.notReceived i s _ _ rfl
  · exact State.Ahead.waitTicks i s _ _ rfl
  · unfold State.atFetch
    refine State.Ahead.goOn i s _ _ (common_append _ _ rfl ?_) rfl
    split <;> rfl
  · exact State.Ahead.goOn i s _ _ rfl rfl
  · unfold State.atPorTest
    split
    · exact State.Ahead.goOn i s _ _ (common_bootFirst _ _ _) rfl
    · split
      · exact State.Ahead.goOn i s _ _ rfl rfl
      · exact State.Ahead.waitTicks i s _ _ rfl
  · rename_i hn
    rw [hn] at hl
    exact State.Ahead.waitTicks i s _ _ hl
  · rename_i hn
    rw [hn] at hl
    refine ⟨?_, rfl⟩
    show [Micro.setSdn false].all _ = true
    simp only [List.all_cons, List.all_nil, Bool.and_true]
    exact hl
  · exact State.Ahead.waitTicks i s _ _ rfl
  · exact State.Ahead.goOn i s _ _ rfl rfl

theorem State.micro_ahead (i : Instr) (s : State) (op : Micro) (rest : List Micro) (h : s.Ahead i)
    (ht : s.todo = op :: rest) : State.Ahead i (({ s with todo := rest } : State).micro op) := by
  obtain ⟨h1, h2⟩ := h
  rw [ht, List.all_cons, Bool.and_eq_true] at h1
  cases op with
  | frame header sent =>
    refine ⟨?_, h2⟩
    show (frameSteps _ _ _ ++ rest).all _ = true
    rw [List.all_append, ahead_of_common i _ (common_frameSteps _ _ _), h1.2]; rfl
  | finish c => exact ⟨h1.2, rfl⟩
  | _ => exact ⟨h1.2, h2⟩

theorem State.ctlStep_ahead (i : Instr) (s : State) (h : s.Ahead i) : s.ctlStep.Ahead i := by
  unfold State.ctlStep
  split
  · split
    · rename_i op rest ht
      exact s.micro_ahead i op rest h ht
    · rename_i ht
      exact s.enter_ahead i ht h.2
  · exact h

/-- The registers with one writer, but for those of the command `i`. -/
def State.SameOwned (i : Instr) (s t : State) : Prop :=
  (i ≠ .setFrequency → t.cfgFreq = s.cfgFreq) ∧ (i ≠ .setBaudRate → t.cfgBaud = s.cfgBaud) ∧
  (i ≠ .setChannel → t.cfgChannel = s.cfgChannel) ∧ (i ≠ .setSignature → t.cfgSignature = s.cfgSignature) ∧
  (i ≠ .hardwareReset → t.sdn = s.sdn) ∧ (i ≠ .readReg → t.data = s.data)

theorem State.SameOwned.rfl (i : Instr) (s : State) : State.SameOwned i s s :=
  ⟨fun _ => .refl _, fun _ => .refl _, fun _ => .refl _, fun _ => .refl _, fun _ => .refl _, fun _ => .refl _⟩

theorem State.SameOwned.trans (i : Instr) {a b c : State} (h : State.SameOwned i a b) (g : State.SameOwned i b c) :
    State.SameOwned i a c :=
  ⟨fun n => (g.1 n).trans (h.1 n), fun n => (g.2.1 n).trans (h.2.1 n), fun n => (g.2.2.1 n).trans (h.2.2.1 n),
    fun n => (g.2.2.2.1 n).trans (h.2.2.2.1 n), fun n => (g.2.2.2.2.1 n).trans (h.2.2.2.2.1 n),
    fun n => (g.2.2.2.2.2 n).trans (h.2.2.2.2.2 n)⟩

theorem State.micro_sameOwned (i : Instr) (s : State) (op : Micro) (h : allows i op.owner = true) :
    State.SameOwned i s (s.micro op) := by
  cases op <;>
    simp only [allows, Micro.owner, Bool.or_eq_true, beq_iff_eq, reduceCtorEq, Option.some.injEq, false_or] at h <;>
    first
    | exact State.SameOwned.rfl i s
    | (subst h; refine ⟨?_, ?_, ?_, ?_, ?_, ?_⟩ <;> intro hne <;> first | rfl | exact absurd rfl hne)

/-- No branch writes one of them. -/
theorem State.enter_sameOwned (i : Instr) (s : State) : State.SameOwned i s s.enter :=
  State.enter_keeps (State.SameOwned i s) (fun _ _ _ h => h) (fun _ _ _ h => h) (fun _ h => h) s
    (State.SameOwned.rfl i s)

/-- No branch writes DATABUF or RXLEN. -/
theorem State.enter_buffer (s : State) : s.enter.databuf = s.databuf ∧ s.enter.rxlen = s.rxlen :=
  State.enter_keeps (fun u => u.databuf = s.databuf ∧ u.rxlen = s.rxlen) (fun _ _ _ h => h) (fun _ _ _ h => h)
    (fun _ h => h) s ⟨rfl, rfl⟩

/-- A move of a command whose steps ahead are its own writes no register of another command. -/
theorem State.run_sameOwned (i : Instr) (s : State) (h : s.Ahead i) : State.SameOwned i s s.run := by
  have key : ∀ u : State, u.Ahead i ∧ State.SameOwned i s u → u.ctlStep.Ahead i ∧ State.SameOwned i s u.ctlStep := by
    intro u ⟨ha, hs⟩
    refine ⟨u.ctlStep_ahead i ha, hs.trans i ?_⟩
    unfold State.ctlStep
    split
    · split
      · rename_i op rest ht
        have h1 := ha.1
        rw [ht, List.all_cons, Bool.and_eq_true] at h1
        exact State.micro_sameOwned i { u with todo := rest } op h1.1
      · exact u.enter_sameOwned i
    · exact State.SameOwned.rfl i u
  exact (State.run_keeps (fun u => u.Ahead i ∧ State.SameOwned i s u) key s ⟨h, State.SameOwned.rfl i s⟩).2

/-! ### DATABUF and RXLEN -/

/-- The position does not lead to a fetch. -/
def State.noFetch (s : State) : Label → Bool
  | .fetch _ => false
  | .waitHead who | .rxSample who | .rxStatus who | .pollSleep who => who != .acknowledgment
  | .sendHead | .sendSample | .sendStatus | .sendSent => !s.arg0.getLsbD 8
  | .idle | .decode | .baudDone | .bootBaud | .sendTimeout => true
  | .porHead | .porTest | .sdnOff | .sdnRelease | .sdnOn | .porStart => true

/-- The operation does not write DATABUF. -/
def Micro.noStore : Micro → Bool
  | .storeRx => false
  | .frame _ _ | .select _ | .send _ | .ask _ | .recv _ | .setFsm _ | .setSdn _ | .setMode _ | .clearMode => true
  | .testAnomaly | .setT0 | .clearPolls | .countPoll | .keepS1 | .calculate _ | .setCfgFreq _ | .setCfgBaud _ => true
  | .setCfgChannel _ | .setCfgSignature _ | .setData | .finish _ => true

/-- Nothing ahead of `s` writes DATABUF. -/
def State.NoStore (s : State) : Prop := s.todo.all Micro.noStore = true ∧ s.noFetch s.next = true

theorem noStore_append (a b : List Micro) (ha : a.all Micro.noStore = true) (hb : b.all Micro.noStore = true) :
    (a ++ b).all Micro.noStore = true := by
  rw [List.all_append, ha, hb]; rfl

theorem noStore_bootTable (t : List (ChipAddr × Byte)) :
    (t.flatMap (fun row => writeReg (regByte row.1) row.2)).all Micro.noStore = true := by
  induction t with
  | nil => rfl
  | cons a t ih => rw [List.flatMap_cons]; exact noStore_append _ _ rfl ih

theorem noStore_bootFirst (p : Params) (f k : Nat) : (bootFirst p f k).all Micro.noStore = true := by
  unfold bootFirst
  exact noStore_append _ _ (noStore_append _ _ (noStore_bootTable _) rfl) rfl

theorem noStore_bootRest (p : Params) (b : BaudValues) (ch : Byte) (sig : BitVec 16) :
    (bootRest p b ch sig).all Micro.noStore = true := by
  unfold bootRest
  split <;> rfl

theorem noStore_frameSteps (dummy header : Byte) (sent : List Byte) :
    (frameSteps dummy header sent).all Micro.noStore = true := by
  simp only [frameSteps, writeWindow, readWindow]
  split <;> simp [Micro.noStore]

theorem State.NoStore.notReceived (s : State) (ops : List Micro) (who : Poller) (h : ops.all Micro.noStore = true)
    (hw : who ≠ .acknowledgment) : (s.notReceived ops who).NoStore := by
  cases who
  · exact ⟨noStore_append _ _ h rfl, rfl⟩
  · exact ⟨h, rfl⟩
  · exact absurd rfl hw

theorem State.enter_noStore (s : State) (ht : s.todo = []) (hl : s.noFetch s.next = true) : s.enter.NoStore := by
  have hs : s.NoStore := ⟨by rw [ht]; rfl, hl⟩
  unfold State.enter
  split
  all_goals rename_i hn
  all_goals rw [hn] at hl
  · exact hs
  · exact hs
  · unfold State.atBaudDone; split <;> exact ⟨rfl, rfl⟩
  · exact ⟨noStore_append _ _ (noStore_bootRest _ _ _ _) rfl, rfl⟩
  · unfold State.atSendHead; split
    · exact ⟨rfl, rfl⟩
    · exact ⟨rfl, hl⟩
  · unfold State.atSendSample; split
    · exact ⟨rfl, hl⟩
    · exact ⟨rfl, hl⟩
  · unfold State.atSendStatus; split
    · exact ⟨rfl, hl⟩
    · exact ⟨rfl, hl⟩
  · unfold State.atSendSent; split
    · rename_i ha
      have ha' : s.arg0.getLsbD 8 = true := ha
      simp only [State.noFetch, ha', Bool.not_true, Bool.false_eq_true] at hl
    · exact ⟨rfl, rfl⟩
  · unfold State.atSendTimeout
    refine ⟨noStore_append _ _ ?_ rfl, rfl⟩
    split <;> rfl
  · unfold State.atWaitHead; split
    · exact ⟨rfl, rfl⟩
    · exact ⟨rfl, hl⟩
  · unfold State.atRxSample; split
    · exact ⟨rfl, hl⟩
    · exact State.NoStore.notReceived _ _ _ rfl (by simpa [State.noFetch] using hl)
  · unfold State.atRxStatus; split
    · split
      · exact ⟨rfl, rfl⟩
      · exact ⟨rfl, rfl⟩
      · simp [State.noFetch] at hl
    · split <;> exact State.NoStore.notReceived _ _ _ rfl (by simpa [State.noFetch] using hl)
  · exact ⟨rfl, hl⟩
  · simp [State.noFetch] at hl
  · exact ⟨rfl, rfl⟩
  · unfold State.atPorTest; split
    · exact ⟨noStore_bootFirst _ _ _, rfl⟩
    · split <;> exact ⟨rfl, rfl⟩
  · exact ⟨rfl, rfl⟩
  · exact ⟨rfl, rfl⟩
  · exact ⟨rfl, rfl⟩
  · exact ⟨rfl, rfl⟩

/-- A move with no store to DATABUF ahead leaves DATABUF and RXLEN alone. -/
theorem State.run_noStore (s : State) (h : s.NoStore) : s.run.databuf = s.databuf ∧ s.run.rxlen = s.rxlen := by
  have key : ∀ u : State, u.NoStore ∧ u.databuf = s.databuf ∧ u.rxlen = s.rxlen →
      u.ctlStep.NoStore ∧ u.ctlStep.databuf = s.databuf ∧ u.ctlStep.rxlen = s.rxlen := by
    intro u ⟨hn, hd, hx⟩
    unfold State.ctlStep
    split
    · split
      · rename_i op rest ht
        have h1 := hn.1
        have h2 := hn.2
        rw [ht, List.all_cons, Bool.and_eq_true] at h1
        cases op with
        | frame header sent => exact ⟨⟨noStore_append _ _ (noStore_frameSteps _ _ _) h1.2, h2⟩, hd, hx⟩
        | finish c => exact ⟨⟨h1.2, rfl⟩, hd, hx⟩
        | storeRx => simp [Micro.noStore] at h1
        | _ => exact ⟨⟨h1.2, h2⟩, hd, hx⟩
      · rename_i ht
        have he : u.enter.databuf = u.databuf ∧ u.enter.rxlen = u.rxlen := u.enter_buffer
        exact ⟨u.enter_noStore ht hn.2, he.1.trans hd, he.2.trans hx⟩
    · exact ⟨hn, hd, hx⟩
  exact (State.run_keeps (fun u => u.NoStore ∧ u.databuf = s.databuf ∧ u.rxlen = s.rxlen) key s ⟨h, rfl, rfl⟩).2

/-! ### LAST_MODE and STATUS.FSM -/

/-- The two registers that commands of several families write. -/
inductive Shared where
  | lastMode
  | fsm
  deriving DecidableEq, Repr

/-- `s` and `t` agree in the register. -/
def Shared.same (s t : State) : Shared → Prop
  | .lastMode => t.modeValue = s.modeValue ∧ t.modeValid = s.modeValid
  | .fsm => t.fsm = s.fsm

/-- The operation leaves the register alone. -/
def Micro.leaves (r : Shared) : Micro → Bool
  | .setMode _ | .clearMode => r == .fsm
  | .setFsm _ => r == .lastMode
  | .frame _ _ | .select _ | .send _ | .ask _ | .recv _ | .setSdn _ | .testAnomaly | .setT0 | .clearPolls => true
  | .countPoll | .keepS1 | .calculate _ | .setCfgFreq _ | .setCfgBaud _ | .setCfgChannel _ | .setCfgSignature _ => true
  | .setData | .storeRx | .finish _ => true

/-- Nothing from the position on writes the register. -/
def Label.leaves (r : Shared) : Label → Bool
  | .idle | .baudDone | .fetch false => true
  | .fetch true | .sendTimeout => r == .lastMode
  | .decode | .bootBaud | .sendHead | .sendSample | .sendStatus | .sendSent => false
  | .waitHead _ | .rxSample _ | .rxStatus _ | .pollSleep _ => false
  | .porHead | .porTest | .sdnOff | .sdnRelease | .sdnOn | .porStart => false

/-- Nothing ahead of `s` writes the register. -/
def State.Leaves (r : Shared) (s : State) : Prop := s.todo.all (Micro.leaves r) = true ∧ s.next.leaves r = true

theorem Shared.same_trans (r : Shared) (s t u : State) (h : r.same s t) (g : r.same t u) : r.same s u := by
  cases r
  · exact ⟨g.1.trans h.1, g.2.trans h.2⟩
  · exact Eq.trans (b := t.fsm) g h

theorem leaves_frameSteps (r : Shared) (dummy header : Byte) (sent : List Byte) :
    (frameSteps dummy header sent).all (Micro.leaves r) = true := by
  simp only [frameSteps, writeWindow, readWindow]
  split <;> simp [Micro.leaves]

theorem leaves_writeBaud (r : Shared) (p : Params) (b : BaudValues) : (writeBaud p b).all (Micro.leaves r) = true := by
  cases r <;> rfl

theorem State.enter_leaves (r : Shared) (s : State) (ht : s.todo = []) (hl : s.next.leaves r = true) :
    s.enter.Leaves r := by
  unfold State.enter
  split <;> rename_i hn <;> rw [hn] at hl <;> try (cases hl)
  · exact ⟨by rw [ht]; rfl, by rw [hn]; rfl⟩
  · unfold State.atBaudDone; split
    · exact ⟨by cases r <;> rfl, by cases r <;> rfl⟩
    · refine ⟨?_, by cases r <;> rfl⟩
      show (writeBaud _ _ ++ _).all _ = true
      rw [List.all_append, leaves_writeBaud]; cases r <;> rfl
  · cases r
    · refine ⟨?_, rfl⟩
      show List.all (_ ++ _) _ = true
      rw [List.all_append]; split <;> rfl
    · cases hl
  · rename_i ack
    refine ⟨?_, by cases r <;> rfl⟩
    cases ack <;> cases r <;> first | rfl | cases hl

/-- A step with no write of the register ahead leaves it alone. -/
theorem State.ctlStep_leaves (r : Shared) (s : State) (h : s.Leaves r) : s.ctlStep.Leaves r ∧ r.same s s.ctlStep := by
  obtain ⟨h1, h2⟩ := h
  unfold State.ctlStep
  split
  · split
    · rename_i op rest ht
      rw [ht, List.all_cons, Bool.and_eq_true] at h1
      cases op with
      | frame header sent =>
        refine ⟨⟨?_, h2⟩, by cases r <;> simp [Shared.same, State.micro]⟩
        show (frameSteps _ _ _ ++ rest).all _ = true
        rw [List.all_append, leaves_frameSteps, h1.2]; rfl
      | finish c => exact ⟨⟨h1.2, by cases r <;> rfl⟩, by cases r <;> simp [Shared.same, State.micro, State.finish]⟩
      | setMode v | clearMode => cases r <;> first | exact ⟨⟨h1.2, h2⟩, rfl⟩ | cases h1.1
      | setFsm v => cases r <;> first | exact ⟨⟨h1.2, h2⟩, rfl, rfl⟩ | cases h1.1
      | _ => exact ⟨⟨h1.2, h2⟩, by cases r <;> simp [Shared.same, State.micro, State.busSelect, State.busSend,
          State.busAsk, State.busRecv, State.setSdn, State.flagAnomaly, State.emit]⟩
    · rename_i ht
      have he : s.enter.fsm = s.fsm ∧ s.enter.modeValue = s.modeValue ∧ s.enter.modeValid = s.modeValid :=
        State.enter_keeps (fun u => u.fsm = s.fsm ∧ u.modeValue = s.modeValue ∧ u.modeValid = s.modeValid)
          (fun _ _ _ h => h) (fun _ _ _ h => h) (fun _ h => h) s ⟨rfl, rfl, rfl⟩
      refine ⟨s.enter_leaves r ht h2, ?_⟩
      cases r
      · exact he.2
      · exact he.1
  · exact ⟨⟨h1, h2⟩, by cases r <;> simp [Shared.same]⟩

/-- A move with no write of the register ahead leaves it alone. -/
theorem State.run_leaves (r : Shared) (s : State) (h : s.Leaves r) : r.same s s.run := by
  refine (State.run_keeps (fun u => u.Leaves r ∧ r.same s u) (fun u ⟨h1, h2⟩ => ?_) s ⟨h, by cases r <;> simp [Shared.same]⟩).2
  obtain ⟨g1, g2⟩ := u.ctlStep_leaves r h1
  exact ⟨g1, r.same_trans _ _ _ h2 g2⟩

end Sys2Proof.Machine
end

