-- ==== Sys2Proof/Tests/Slice0.lean ====
section
/-! SUPPORT. Tests on single steps, with expected values from spec/95_test_vectors.md, and a witness for the hypotheses
of every statement. P_BASE, the IF-filter table and the boot table are those of 93_implementation_defined.md I14, I15
and an example base. -/

namespace Sys2Proof.Tests

open Sys2Proof.Machine

/-! ### The states -/

/-- The candidate table of I14. -/
def candidate : IfTable :=
  ⟨[(322, 0x26), (3355, 0x88), (3618, 0x89), (4202, 0x8A), (4684, 0x8B), (5188, 0x8C), (5770, 0x8D), (6207, 0x8E)],
    by decide⟩

/-- The table of V-B3. -/
def faulting : IfTable := ⟨[(10000, 0x70)], by decide⟩

/-- The empty table: every lookup is the sentinel. -/
def noTable : IfTable := ⟨[], by decide⟩

/-- The first two rows of I15. -/
def bootRows : List (ChipAddr × Byte) := [(0x1D, 0x3C), (0x1E, 0x02)]

/-- The parameters of the tests. -/
def params : Params := { Config.params with base := 0x4000, ifTable := candidate, bootTable := bootRows }

/-- A ready block with operands, chip answers and line levels. -/
def ready (a0 a1 : Word) (answers : List Byte) (levels : List Level) : State :=
  { State.reset with
      params := params, sdn := false, arg0 := a0, arg1 := a1, answers := ⟨answers, 0⟩, levels := ⟨levels, 0⟩ }

/-- The same with these moves next. -/
def facing (moves : List Event) (s : State) : State := { s with events := ⟨moves, 0⟩ }

/-- A command word latched and not decoded, the controller to move. -/
def latched (w : Word) (s : State) : State :=
  facing [.controller .toWait] { s with cmd := w, busy := true, code := .pending, next := .decode }

/-- A command at a position inside it, the controller to move. -/
def inside (next : Label) (s : State) : State :=
  facing [.controller .toWait] { s with busy := true, code := .pending, next := next }

/-- The answer is a next state with this property. -/
def reaches (o : Host.Outcome State Fault Refusal) (p : State → Bool) : Bool :=
  match o with
  | .next t => p t
  | .fault _ => false
  | .refused _ => false

/-- The command ends with this code and this trace. -/
def ends (i : Instr) (s : State) (code : ResultCode) (trace : List TraceEvent) : Bool :=
  reaches (exec i s) fun t => !t.busy && t.code == code && transactions t.trace == trace

/-- The answer is this refusal. -/
def refuses (o : Host.Outcome State Fault Refusal) (r : Refusal) : Bool :=
  match o with
  | .next _ => false
  | .fault _ => false
  | .refused q => q == r

/-! ### Well-formed terms, and one ill-formed for each check -/

theorem test_wf_longest_frames :
    (Instr.busWrite 0x7F (List.replicate 256 0)).wf = true ∧ (Instr.busRead 0x00 256).wf = true := by decide +kernel

theorem test_wf_write_too_long : (Instr.busWrite 0x00 (List.replicate 257 0)).wf = false := by decide +kernel

theorem test_wf_read_too_long : (Instr.busRead 0x00 257).wf = false := by decide

theorem test_wf_unsorted_table : ascending [(3355, 0x88), (322, 0x26)] = false := by decide

theorem test_wf_access_width : hostAccessWf 0x100 2 = false := by decide

theorem test_wf_access_alignment : hostAccessWf 0x102 4 = false := by decide

/-! ### Decoding, from words written out from R91, R92 and R98 -/

theorem test_decode_register_family :
    decodeWord 0b00000000000000000000000000000001 = some .writeReg ∧
    decodeWord 0b00000000000000000000000000000010 = some .readReg ∧
    decodeWord 0b00000000000000000000000000000011 = some .writeBurst ∧
    decodeWord 0b00000000000000000000000000000100 = some .readBurst := by decide

theorem test_decode_configuration_family :
    decodeWord 0b00000000000000000000000000010000 = some .setFrequency ∧
    decodeWord 0b00000000000000000000000000010001 = some .setSignature ∧
    decodeWord 0b00000000000000000000000000010010 = some .setChannel ∧
    decodeWord 0b00000000000000000000000000010011 = some .setBaudRate := by decide

theorem test_decode_mode_family :
    decodeWord 0b00000000000000000000000000100000 = some .switchMode ∧
    decodeWord 0b00000000000000000000000000100001 = some .clearTxFifo ∧
    decodeWord 0b00000000000000000000000000100010 = some .clearRxFifo ∧
    decodeWord 0b00000000000000000000000000100011 = some .clearFifo := by decide

theorem test_decode_packet_family :
    decodeWord 0b00000000000000000000000000110000 = some .sendPacket ∧
    decodeWord 0b00000000000000000000000000110001 = some .waitForPacket ∧
    decodeWord 0b00000000000000000000000000110010 = some .startListening ∧
    decodeWord 0b00000000000000000000000000110011 = some .isPacketReceived ∧
    decodeWord 0b00000000000000000000000000110100 = some .getPacketReceived := by decide

theorem test_decode_bootstrap_family :
    decodeWord 0b00000000000000000000000001000000 = some .boot ∧
    decodeWord 0b00000000000000000000000001000001 = some .softwareReset ∧
    decodeWord 0b00000000000000000000000001000010 = some .hardwareReset := by decide

theorem test_decode_bus_frames :
    decodeWindow [0b11110101, 0x40, 0x00, 0x00] = some (.busWrite 0x75 [0x40, 0x00, 0x00]) ∧
    decodeWindow [0b01111111] = some (.busRead 0x7F 0) ∧ decodeWindow [] = none := by decide

theorem test_decode_rejects_by_r100 :
    decodeWord 0x00 = none ∧ decodeWord 0x05 = none ∧ decodeWord 0x24 = none ∧ decodeWord 0x43 = none ∧
    decodeWord 0x101 = none ∧ decodeWord 0x130 = none ∧ decodeWord 0xFFFFFFFF = none := by decide

theorem test_table_words :
    decodeTableWord 32 0x42 = some .hardwareReset ∧ decodeTableWord 8 0x87 = some (.busWrite 0x07 []) ∧
    decodeTableWord 8 0x02 = some (.busRead 0x02 0) := by decide

theorem test_fetch_runs_a_command :
    reaches (step (State.reset.withFetchWord 32 0x03)) (fun t => transactions t.trace == [.write 0 []]) = true := by
  decide

theorem test_fetch_runs_a_frame :
    reaches (step (State.reset.withFetchWord 8 0x87)) (fun t => transactions t.trace == [.write 0x07 []]) = true := by
  decide

/-! ### The register access family (95_test_vectors.md 2.1) -/

/-- V-RA2, V-RA3. -/
theorem test_write_reg :
    ends .writeReg (ready 0x87 0x01 [] []) .ok [.write 0x07 [0x01]] = true ∧
    ends .writeReg (ready 0x3E 0x1FF [] []) .ok [.write 0x3E [0xFF]] = true := by decide

/-- V-RA4. -/
theorem test_read_reg :
    reaches (exec .readReg (ready 0x82 0 [0x5A] [])) (fun t =>
      resultWord t.data t.code == 0x00005A00 && t.databuf == [(0, 0x5A)] && t.rxlen == 1 &&
      transactions t.trace == [.read 0x02 [0x5A]]) = true := by decide

/-- V-RA9. -/
theorem test_write_burst :
    ends .writeBurst { ready 0x7F 3 [] [] with databuf := [(0, 0x0A), (1, 0x0B), (2, 0x0C)] } .ok
      [.write 0x7F [0x0A, 0x0B, 0x0C]] = true := by decide

/-- V-RA11. -/
theorem test_write_burst_too_long : ends .writeBurst (ready 0 257 [] []) .badArg [] = true := by decide

/-- V-RA8. -/
theorem test_read_burst :
    reaches (exec .readBurst (ready 0x7E 4 [0x11, 0x22, 0x33, 0x44] [])) (fun t =>
      t.databuf == [(0, 0x11), (1, 0x22), (2, 0x33), (3, 0x44)] && t.rxlen == 4 &&
      transactions t.trace == [.read 0x7E [0x11, 0x22, 0x33, 0x44]]) = true := by decide

/-- V-RA7: N is ARG1[8:0]. -/
theorem test_read_burst_of_nothing : ends .readBurst (ready 0x03 0x200 [] []) .ok [.read 0x03 []] = true := by decide

/-- R122: a header-only window. -/
theorem test_bus_write :
    reaches (exec (.busWrite 0x3A []) (ready 0 0 [] [])) (fun t =>
      t.trace == [.select true, .sent 0xBA, .select false] && !t.sel) = true := by decide

/-- R98's read window. -/
theorem test_bus_read :
    reaches (exec (.busRead 0x03 2) (ready 0 0 [0x04, 0x00] [])) (fun t =>
      t.trace == [.select true, .sent 0x03, .exchanged 0x00 0x04, .exchanged 0x00 0x00, .select false]) = true := by
  decide

/-! ### The configuration family (95_test_vectors.md 2.2 to 2.4) -/

/-- E1. -/
theorem test_set_frequency :
    ends .setFrequency (ready 479 0 [] []) .ok [.write 0x75 [0x57, 0xE1, 0x00]] = true ∧
    ends .setFrequency (ready 480 0 [] []) .ok [.write 0x75 [0x60, 0x00, 0x00]] = true := by decide

/-- 2.2: F is all 32 bits of ARG0. -/
theorem test_set_frequency_ignored : ends .setFrequency (ready 0x100001B1 0 [] []) .ignored [] = true := by decide

/-- 2.3. -/
theorem test_set_signature :
    ends .setSignature (ready 0x12345678 0 [] []) .ok [.write 0x3A [0x56, 0x78], .write 0x3F [0x56, 0x78]] = true := by
  decide

/-- 2.3. -/
theorem test_set_channel : ends .setChannel (ready 0x1FF 0 [] []) .ok [.write 0x79 [0xFF]] = true := by decide

/-- V-B1. -/
theorem test_set_baud_rate :
    ends .setBaudRate (ready 100 0 [] []) .ok
      [.write 0x70 [0x0C, 0x23, 0xF0], .write 0x6E [0x19, 0x9A], .write 0x1C [0x8A],
        .write 0x20 [0x78, 0x01, 0x11, 0x12, 0x01, 0x6E]] = true := by decide

/-- 2.4: the sentinel table at k = 188. -/
theorem test_set_baud_rate_fault :
    ends .setBaudRate { ready 188 0 [] [] with params := { params with ifTable := noTable } } .calcFault [] = true := by
  decide

/-! ### Mode and FIFO clears (95_test_vectors.md 2.5) -/

/-- V-M2 and V-M4. -/
theorem test_switch_mode_anomaly :
    reaches (exec .switchMode (ready 0x5 0 [0x00] [])) (fun t =>
      t.code == .ok && t.busAnomaly && t.lastModeWord == 0x105 &&
      transactions t.trace == [.write 0x07 [0x05], .read 0x02 [0x00]]) = true ∧
    reaches (exec .switchMode (ready 0x9 0 [0xFE] [])) (fun t => !t.busAnomaly) = true := by decide

/-- V-M6: M is ARG0[3:0]. -/
theorem test_switch_mode_field :
    reaches (exec .switchMode (ready 0x80 0 [0x10] [])) (fun t => t.lastModeWord == 0x100) = true := by decide

/-- V-C1. -/
theorem test_clear_tx_fifo :
    ends .clearTxFifo (ready 0 0 [] []) .ok [.write 0x08 [0x01], .write 0x08 [0x00]] = true := by decide

/-- V-C2. -/
theorem test_clear_rx_fifo :
    ends .clearRxFifo (ready 0 0 [] []) .ok [.write 0x08 [0x02], .write 0x08 [0x00]] = true := by decide

/-- V-C3. -/
theorem test_clear_fifo :
    ends .clearFifo (ready 0 0 [] []) .ok [.write 0x08 [0x03], .write 0x08 [0x00]] = true := by decide

/-! ### The packet family (95_test_vectors.md 2.6, programs P3 to P6) -/

/-- P3. -/
theorem test_send_packet :
    ends .sendPacket { ready 3 0 [0, 0, 0x10, 0x04, 0, 0x10] [.low] with databuf := [(0, 1), (1, 2), (2, 3), (3, 0)] } .ok
      [.write 0x08 [0x01], .write 0x08 [0x00], .write 0x3E [0x03], .write 0x7F [1, 2, 3], .write 0x05 [0x04],
        .write 0x06 [0x00], .read 0x03 [0], .read 0x04 [0], .write 0x07 [0x09], .read 0x02 [0x10], .irq .low,
        .read 0x03 [0x04], .read 0x04 [0], .write 0x07 [0x03], .read 0x02 [0x10]] = true := by decide

/-- P6: with an acknowledgment. -/
theorem test_send_packet_acknowledged :
    reaches (exec .sendPacket { ready 0x102 0x32
      [0, 0, 0x10, 0x04, 0, 0x10, 0, 0, 0x10, 0x02, 0, 0x10, 0x01, 0x06] [.low, .low] with
        databuf := [(0, 0xA1), (1, 0xA2), (2, 0), (3, 0)] }) (fun t =>
      t.code == .packet && t.rxlen == 1 && t.databuf == [(0, 0x06), (1, 0xA2), (2, 0), (3, 0)] &&
      t.lastModeWord == 0x103 && t.fsm == .idle && windowCount t.trace == 30) = true := by
  decide +kernel

/-- E5. -/
theorem test_wait_for_packet :
    ends .waitForPacket (ready 5 0 [0, 0, 0x10, 0x02, 0, 0x10] [.low]) .packet
      [.write 0x08 [0x02], .write 0x08 [0x00], .write 0x05 [0x03], .write 0x06 [0x00], .read 0x03 [0], .read 0x04 [0],
        .write 0x07 [0x05], .read 0x02 [0x10], .irq .low, .read 0x03 [0x02], .read 0x04 [0], .write 0x07 [0x03],
        .read 0x02 [0x10]] = true := by decide

/-- V-P12: a bound of 0 takes no sample. -/
theorem test_wait_for_packet_zero :
    ends .waitForPacket (ready 0 0 [0, 0, 0x10, 0x10] []) .noPacket
      [.write 0x08 [0x02], .write 0x08 [0x00], .write 0x05 [0x03], .write 0x06 [0x00], .read 0x03 [0], .read 0x04 [0],
        .write 0x07 [0x05], .read 0x02 [0x10], .write 0x07 [0x01], .read 0x02 [0x10], .write 0x08 [0x02],
        .write 0x08 [0x00]] = true := by decide

/-- V-P5. -/
theorem test_start_listening :
    reaches (exec .startListening (ready 0 0 [0, 0, 0x10] [])) (fun t =>
      t.code == .ok && t.statusWord == 0x30 && t.lastModeWord == 0x105) = true := by decide

/-- E6. -/
theorem test_is_packet_received_crc :
    ends .isPacketReceived (ready 0 0 [0x01, 0, 0x10, 0x10] [.low]) .noPacket
      [.irq .low, .read 0x03 [0x01], .read 0x04 [0], .write 0x07 [0x01], .read 0x02 [0x10], .write 0x08 [0x02],
        .write 0x08 [0x00], .write 0x07 [0x05], .read 0x02 [0x10]] = true := by decide

/-- V-P1 and V-P3: the idle line, and the valid packet before the CRC error. -/
theorem test_is_packet_received :
    ends .isPacketReceived (ready 0 0 [] [.high]) .noPacket [.irq .high] = true ∧
    ends .isPacketReceived (ready 0 0 [0x03, 0, 0x10] [.low]) .packet
      [.irq .low, .read 0x03 [0x03], .read 0x04 [0], .write 0x07 [0x03], .read 0x02 [0x10]] = true := by decide

/-- V-P8. -/
theorem test_get_packet_received :
    reaches (exec .getPacketReceived (ready 0 0 [0x02, 0xAA, 0x55] [])) (fun t =>
      t.rxlen == 2 && t.databuf == [(0, 0xAA), (1, 0x55)] && transactions t.trace ==
        [.read 0x4B [0x02], .read 0x7F [0xAA, 0x55], .write 0x08 [0x02], .write 0x08 [0x00]]) = true := by decide

/-! ### The bootstrap family (95_test_vectors.md 2.7), with the first two rows of the boot table -/

/-- V-B2. -/
theorem test_boot :
    ends .boot (ready 0 0 [0x10] []) .ok
      [.write 0x1D [0x3C], .write 0x1E [0x02], .write 0x75 [0x53, 0x4B, 0x00], .write 0x70 [0x0C, 0x23, 0xF0],
        .write 0x6E [0x19, 0x9A], .write 0x1C [0x8A], .write 0x20 [0x78, 0x01, 0x11, 0x12, 0x01, 0x6E],
        .write 0x79 [0x00], .write 0x3A [0x00, 0x00], .write 0x3F [0x00, 0x00], .write 0x07 [0x01],
        .read 0x02 [0x10]] = true := by decide

/-- V-B3. -/
theorem test_boot_fault :
    ends .boot { ready 0 0 [0x10] [] with params := { params with ifTable := faulting } } .calcFault
      [.write 0x1D [0x3C], .write 0x1E [0x02], .write 0x75 [0x53, 0x4B, 0x00], .write 0x79 [0x00],
        .write 0x3A [0x00, 0x00], .write 0x3F [0x00, 0x00], .write 0x07 [0x01], .read 0x02 [0x10]] = true := by decide

/-- V-B4. -/
theorem test_software_reset :
    reaches (exec .softwareReset (ready 0 0 [0x02, 0x10] [])) (fun t =>
      t.code == .ok && t.lastModeWord == 0x101 &&
      (transactions t.trace).take 3 == [.write 0x07 [0x80], .read 0x04 [0x02], .write 0x1D [0x3C]]) = true := by decide

/-- V-B5: the first poll does not show the bit. -/
theorem test_software_reset_polls :
    reaches (exec .softwareReset { ready 0 0 [0x00] [] with params := { params with porLimit := some 3 } }) (fun t =>
      t.wait == 1 && t.lastModeWord == 0x180 &&
      transactions t.trace == [.write 0x07 [0x80], .read 0x04 [0x00], .wait 1]) = true := by decide

/-- P1 up to the first wait: STATUS reads 0x441. -/
theorem test_hardware_reset :
    reaches (step (latched 0x42 (ready 0 0 [] []))) (fun t =>
      t.statusWord == 0x441 && t.wait == 1 && t.trace == [.sdn true, .wait 1]) = true := by decide

/-- P1 from the release of the pin on. -/
theorem test_hardware_reset_release :
    reaches (step (inside .sdnRelease { ready 0 0 [] [] with sdn := true, fsm := .resetting })) (fun t =>
      t.statusWord == 0x41 && t.wait == 20 && t.trace == [.sdn false, .wait 20]) = true := by decide

/-! ### The host's accesses (95_test_vectors.md 2.9) -/

/-- V-H2. -/
theorem test_host_store_databuf :
    reaches (step (facing [.host (.store 0x4100 4 0x00030201)] (ready 0 0 [] []))) (fun t =>
      t.databuf == [(0, 0x01), (1, 0x02), (2, 0x03), (3, 0x00)]) = true := by decide

/-- V-RA8's last column. -/
theorem test_host_load_databuf :
    reaches (step (facing [.host (.load 0x4100 4)] { ready 0 0 [] [] with
      databuf := [(0, 0x11), (1, 0x22), (2, 0x33), (3, 0x44)] })) (fun t => t.hostData == 0x44332211) = true := by decide

/-- V-H3: a load takes one draw for each of the two unwritten bytes, and writes nothing. -/
theorem test_host_load_unwritten :
    reaches (step (facing [.host (.load 0x4100 4)] { ready 0 0 [] [] with databuf := [(0, 0x11), (3, 0x44)] })) (fun t =>
      t.fresh.used == 2 && t.databuf == [(0, 0x11), (3, 0x44)]) = true := by decide

/-- V-H4, V-H5 and V-H7. -/
theorem test_host_stores :
    reaches (step (facing [.host (.store 0x4004 4 7)] { ready 0 0 [] [] with busy := true })) (fun t =>
      t.arg0 == 0 && t.cmdOverrun) = true ∧
    reaches (step (facing [.host (.store 0x400C 4 0x200)] { ready 0 0 [] [] with
      busy := true, cmdOverrun := true, busAnomaly := true })) (fun t => !t.cmdOverrun && t.busAnomaly) = true ∧
    reaches (step (facing [.host (.store 0x402C 4 7)] (ready 0 0 [] []))) (fun t => t.tick == 0) = true := by decide

/-- V-H8. -/
theorem test_host_halfword :
    refuses (step (facing [.host (.load 0x4100 2)] (ready 0 0 [] []))) .hostAccessForm = true := by decide

/-- R102: the lines of P3 and P6, a pseudo-command, and 2.3's number that is wider than its field. -/
theorem test_parse_lines :
    parseLine "SEND_PACKET 2, 50".toList = some (.sendPacket 2 (some 50)) ∧
    parseLine "again: SWITCH_MODE RECEIVE|READY ; listen".toList = some (.switchMode 0x5) ∧
    parseLine ".buf 0xA1, 0xA2".toList = some (.buf [0xA1, 0xA2]) ∧ parseLine "MODE_TX".toList = some .modeTx ∧
    parseLine "SET_CHANNEL 0x1FF".toList = some (.setChannel 0xFF) ∧
    parseLine "SET_SIGNATURE 0x12345678".toList = some (.setSignature 0x5678) := by decide +kernel

/-- R102, R103. -/
theorem test_mode_lines :
    HostLine.modeRx.command = some (0x5, 0, 0x20) ∧ HostLine.modeTx.command = some (0x9, 0, 0x20) ∧
    (HostLine.sendPacket 2 (some 50)).command = some (0x102, 0x32, 0x30) ∧
    (HostLine.buf [0xA1, 0xA2]).stores 0x4000 = [.store 0x4100 4 0x0000A2A1] := by decide

/-- A command issued and its wait to come, on a machine that is about to end it. -/
def awaiting : Session := ⟨latched 0x23 (ready 0 0 [] []), [.awaitIdle], none⟩

/-- R102: the wait loads STATUS while BUSY = 1, and once the command has ended loads it again; only then is it over. -/
theorem test_session_polls :
    (match awaiting.run [true, false] with
      | .next c => !c.done && c.machine.hostData.getLsbD 0
      | .fault _ => false
      | .refused _ => false) = true ∧
    (match awaiting.run [true, false, true] with
      | .next c => c.done && !c.machine.hostData.getLsbD 0
      | .fault _ => false
      | .refused _ => false) = true := by decide

/-- R102: what the host read before its first load of STATUS says nothing. -/
theorem test_session_loads_first : ({ awaiting with machine := ready 0 0 [] [] } : Session).done = false := by decide

/-- R102: a host load that the schedule names, here of TICK, ends no wait of the program. -/
theorem test_session_own_loads :
    (match ({ awaiting with machine := facing [.host (.load 0x402C 4)] awaiting.machine } : Session).run [true, false] with
      | .next c => !c.done && c.machine.hostData == 0 && c.machine.busy
      | .fault _ => false
      | .refused _ => false) = true := by decide

/-- R99, R128: a window that block reset cuts short is the transaction of the bytes it had. -/
theorem test_cut_window :
    transactions [.select true, .sent 0x87, .sent 0x05, .blockReset] = [.write 0x07 [0x05], .blockReset] ∧
    transactions [.select true, .sent 0x02, .exchanged 0x00 0x10] = [.read 0x02 [0x10]] ∧
    transactions [.select true, .blockReset] = [.blockReset] := by decide

/-- R155 to R159 on both sides of each bound (95_test_vectors.md 2.4). -/
theorem test_baud_values :
    (baudValues candidate 10).freqDev = 15 ∧ (baudValues candidate 11).freqDev = 150 ∧
    (baudValues candidate 10).fdReg = 24 ∧ (baudValues candidate 11).fdReg = 240 ∧
    (baudValues candidate 29).modulationByte = 0x4C ∧ (baudValues candidate 30).modulationByte = 0x0C ∧
    (baudValues candidate 100).filt = 0x8A := by decide

/-! ### Witnesses: for each statement with hypotheses, states and operands that meet them -/

/-- A ready block asked for one host access. -/
def asked (access : HostAccess) : State := facing [.host access] (ready 0x1234 0x5678 [] [])

/-- The same with a command running. -/
def askedBusy (access : HostAccess) : State := { asked access with busy := true, code := .pending }

theorem witness_DecodeOfEncodeIsTheInstruction :
    Instr.sendPacket.wf = true ∧ (Instr.busWrite 0x7F [0x12, 0x34]).wf = true ∧ (Instr.busRead 0x00 0).wf = true := by
  decide

theorem witness_CommandWordsAreTheOpcodeMap :
    decodeWord 0x01 = some .writeReg ∧ decodeWord 0x42 = some .hardwareReset ∧
    decodeWord 0x02 = some .readReg ∧ decodeWord 0x03 = some .writeBurst := by decide

theorem witness_StepRunsTheLatchedCommand :
    (latched 0x42 (ready 0 0 [] [])).nextEvent = .controller .toWait ∧ (latched 0x42 (ready 0 0 [] [])).wait = 0 ∧
    (latched 0x42 (ready 0 0 [] [])).todo = [] ∧ (latched 0x42 (ready 0 0 [] [])).next = .decode ∧
    decodeWord (latched 0x42 (ready 0 0 [] [])).cmd = some .hardwareReset := by decide

/-- A write frame and then the end of the command, the controller to move by one micro-step. -/
def framed : State :=
  facing [.controller (.steps 1)]
    { ready 0 0 [] [] with busy := true, code := .pending, todo := [.frame 0x87 [0x05], .finish .ok] }

theorem witness_StepRunsTheNextFrame :
    framed.nextEvent = .controller (.steps 1) ∧ framed.wait = 0 ∧
    framed.todo = .frame 0x87 [0x05] :: [.finish .ok] ∧ decodeWindow [0x87, 0x05] = some (.busWrite 0x07 [0x05]) := by
  decide

theorem witness_IllegalWordEndsAtOnce :
    (latched 0x101 (ready 0 0 [] [])).nextEvent = .controller .toWait ∧ (latched 0x101 (ready 0 0 [] [])).wait = 0 ∧
    (latched 0x101 (ready 0 0 [] [])).todo = [] ∧ (latched 0x101 (ready 0 0 [] [])).next = .decode ∧
    decodeWord (latched 0x101 (ready 0 0 [] [])).cmd = none := by decide

theorem witness_TickIncrementsTheCounter :
    (facing [.tick] { ready 0 0 [] [] with tick := 0xFFFFFFFF }).nextEvent = .tick ∧
    (0xFFFFFFFF#32 + 1#32).toNat = (0xFFFFFFFF#32 : Word).toNat.succ % 2 ^ 32 := by decide

theorem witness_BlockResetRestoresEverything :
    (facing [.blockReset] { framed with sel := true, databuf := [(0, 1)] }).nextEvent = .blockReset := by decide

theorem witness_IdleStoresLatchTheWord :
    (asked (.store 0x4000 4 0x42)).busy = false ∧
    (asked (.store 0x4000 4 0x42)).nextEvent = .host (.store (asked (.store 0x4000 4 0x42)).params.base 4 0x42) ∧
    (asked (.store 0x4004 4 7)).nextEvent = .host (.store ((asked (.store 0x4004 4 7)).params.base + 4) 4 7) ∧
    (asked (.store 0x4008 4 7)).nextEvent = .host (.store ((asked (.store 0x4008 4 7)).params.base + 8) 4 7) := by decide

theorem witness_BusyStoreIsDropped (offset : Nat) (h : offset ∈ [0, 4, 8, 0x100, 0x1FC]) :
    (offset = 0 ∨ offset = 4 ∨ offset = 8 ∨ (0x100 ≤ offset ∧ offset < 0x200)) ∧ offset % 4 = 0 ∧
    (askedBusy (.store (0x4000 + offset) 4 7)).nextEvent =
      .host (.store ((askedBusy (.store (0x4000 + offset) 4 7)).params.base + offset) 4 7) ∧
    (askedBusy (.store (0x4000 + offset) 4 7)).busy = true := by
  simp only [List.mem_cons, List.not_mem_nil, or_false] at h
  exact ⟨by omega, by omega, rfl, rfl⟩

theorem witness_BufferWordsAreLittleEndian_store (i : Nat) (h : i ∈ [0, 252]) :
    i % 4 = 0 ∧ i < 256 ∧ (asked (.store (0x4000 + (0x100 + i)) 4 7)).busy = false ∧
    (asked (.store (0x4000 + (0x100 + i)) 4 7)).nextEvent =
      .host (.store ((asked (.store (0x4000 + (0x100 + i)) 4 7)).params.base + (0x100 + i)) 4 7) := by
  simp only [List.mem_cons, List.not_mem_nil, or_false] at h
  exact ⟨by omega, by omega, rfl, rfl⟩

/-- DATABUF's last word written, and loaded. -/
def lastWord : State :=
  { asked (.load 0x41FC 4) with databuf := [(252, 0x11), (253, 0x22), (254, 0x33), (255, 0x44)] }

theorem witness_BufferWordsAreLittleEndian_load :
    lastWord.busy = false ∧ lastWord.nextEvent = .host (.load (lastWord.params.base + (0x100 + 252)) 4) ∧
    ∀ k < 4, bufGet lastWord.databuf (252 + k) = some ((0x44332211#32).extractLsb' (8 * k) 8) := by decide

theorem witness_StatusAndReadOnlyStores :
    (askedBusy (.store 0x400C 4 0x300)).nextEvent =
      .host (.store ((askedBusy (.store 0x400C 4 0x300)).params.base + 0xC) 4 0x300) ∧
    (asked (.store 0x4010 4 7)).nextEvent = .host (.store ((asked (.store 0x4010 4 7)).params.base + 0x10) 4 7) ∧
    (asked (.store 0x40FC 4 7)).nextEvent = .host (.store ((asked (.store 0x40FC 4 7)).params.base + 0xFC) 4 7) := by
  decide

theorem witness_IdleLoadsReturnTheRegisters (offset : Nat)
    (h : offset ∈ [0x000, 0x004, 0x008, 0x00C, 0x010, 0x014, 0x018, 0x01C, 0x020, 0x024, 0x028, 0x02C, 0x030, 0x0FC]) :
    (asked (.load (0x4000 + offset) 4)).busy = false ∧ offset % 4 = 0 ∧ offset < 0x100 ∧
    (asked (.load (0x4000 + offset) 4)).nextEvent =
      .host (.load ((asked (.load (0x4000 + offset) 4)).params.base + offset) 4) := by
  simp only [List.mem_cons, List.not_mem_nil, or_false] at h
  exact ⟨rfl, by omega, by omega, rfl⟩

/-- Every register, the first and last reserved offset, and the first and last word of DATABUF. -/
theorem witness_BusyLoadsOfLiveRegisters (offset : Nat)
    (h : offset ∈ [0x000, 0x004, 0x008, 0x00C, 0x010, 0x014, 0x018, 0x01C, 0x020, 0x024, 0x028, 0x02C, 0x030, 0x0FC,
      0x100, 0x1FC]) :
    (askedBusy (.load (0x4000 + offset) 4)).busy = true ∧ (askedBusy (.load (0x4000 + offset) 4)).code = .pending ∧
    (offset ∈ [0x000, 0x004, 0x008, 0x00C, 0x010, 0x02C] ∨ (0x30 ≤ offset ∧ offset < 0x100 ∧ offset % 4 = 0) ∨
      offset ∈ [0x014, 0x018, 0x01C, 0x020, 0x024, 0x028] ∨ (0x100 ≤ offset ∧ offset < 0x200 ∧ offset % 4 = 0)) ∧
    (askedBusy (.load (0x4000 + offset) 4)).nextEvent =
      .host (.load ((askedBusy (.load (0x4000 + offset) 4)).params.base + offset) 4) := by
  simp only [List.mem_cons, List.not_mem_nil, or_false] at h ⊢
  exact ⟨rfl, rfl, by omega, rfl⟩

theorem witness_OtherAccessFormsAreRefused :
    (asked (.load 0x4000 2)).nextEvent = .host (.load ((asked (.load 0x4000 2)).params.base + 0) 2) ∧
    (asked (.load 0x41FF 1)).nextEvent = .host (.load ((asked (.load 0x41FF 1)).params.base + 0x1FF) 1) ∧
    (asked (.store 0x4002 4 7)).nextEvent = .host (.store ((asked (.store 0x4002 4 7)).params.base + 2) 4 7) := by decide

theorem witness_OutsideAccessDoesNotReach :
    (asked (.load 0x4200 4)).nextEvent = .host (.load ((asked (.load 0x4200 4)).params.base + 0x200) 4) ∧
    (asked (.store 0x4200 4 7)).nextEvent = .host (.store ((asked (.store 0x4200 4 7)).params.base + 0x200) 4 7) := by
  decide

/-- For BusWriteMakesOneWindow, BusReadMakesOneWindow, WriteRegCompletes, ReadRegCompletes, SwitchModeCompletes,
SetSignatureAndSetChannelComplete, FifoClearsComplete, StartListeningCompletes, GetPacketReceivedCompletes and
BootCompletes, whose one hypothesis this is. -/
theorem witness_grant : (ready 0 0 [] []).grant = .toWait := by decide

theorem witness_WriteBurstCompletes :
    (ready 0 256 [] []).grant = .toWait ∧ ((ready 0 256 [] []).arg1.extractLsb' 0 9).toNat ≤ 256 ∧
    ((ready 0 0 [] []).arg1.extractLsb' 0 9).toNat ≤ 256 := by decide

theorem witness_ReadBurstCompletes :
    (ready 3 256 [] []).grant = .toWait ∧ ((ready 3 256 [] []).arg1.extractLsb' 0 9).toNat ≤ 256 ∧
    ((ready 3 0x200 [] []).arg1.extractLsb' 0 9).toNat ≤ 256 := by decide

theorem witness_TooLongBurstsAreBadArg :
    (ready 0 257 [] []).grant = .toWait ∧ 256 < ((ready 0 257 [] []).arg1.extractLsb' 0 9).toNat ∧
    256 < ((ready 0 511 [] []).arg1.extractLsb' 0 9).toNat := by decide

theorem witness_BufferReadsWhatWasWritten :
    [0x01#8, 0x02#8].length ≤ 256 ∧
    ({ ready 0 0 [] [] with databuf := [(0, 1), (1, 2), (7, 9)] } : State).databuf =
      bufWrite [(0, 5), (7, 9)] 0 [0x01, 0x02] := by decide

/-- The first and the last word of DATABUF, asked for with some of its bytes not written. -/
theorem witness_BufferReads_unwritten (i : Nat) (h : i ∈ [0, 252]) :
    i % 4 = 0 ∧ i < 256 ∧ (asked (.load (0x4000 + (0x100 + i)) 4)).busy = false ∧
    (asked (.load (0x4000 + (0x100 + i)) 4)).nextEvent =
      .host (.load ((asked (.load (0x4000 + (0x100 + i)) 4)).params.base + (0x100 + i)) 4) ∧
    bufGet (asked (.load (0x4000 + (0x100 + i)) 4)).databuf i = none ∧ bufGet lastWord.databuf 252 = some 0x11 := by
  simp only [List.mem_cons, List.not_mem_nil, or_false] at h
  rcases h with rfl | rfl <;> decide

theorem witness_FreqEncodeIsExact : 240 ≤ 240 ∧ 240 ≤ 930 ∧ 240 ≤ 479 ∧ 480 ≤ 930 ∧ 930 ≤ 930 := by decide

theorem witness_SetFrequencyCompletes (f : Nat) (h : f ∈ [240, 479, 480, 930]) :
    (ready (BitVec.ofNat 32 f) 0 [] []).grant = .toWait ∧ 240 ≤ (ready (BitVec.ofNat 32 f) 0 [] []).arg0.toNat ∧
    (ready (BitVec.ofNat 32 f) 0 [] []).arg0.toNat ≤ 930 := by
  simp only [List.mem_cons, List.not_mem_nil, or_false] at h
  rcases h with rfl | rfl | rfl | rfl <;> decide

theorem witness_OutOfRangeSettersAreIgnored :
    (ready 239 0 [] []).arg0.toNat < 240 ∧ 930 < (ready 931 0 [] []).arg0.toNat ∧
    (ready 0 0 [] []).arg0.toNat < 1 ∧ 256 < (ready 257 0 [] []).arg0.toNat ∧ (ready 239 0 [] []).grant = .toWait := by
  decide

/-- Both cases: an entry found after a smaller one, and none. -/
theorem witness_IfLookupPicksTheFirst :
    ifLookup [(10, 0x11), (20, 0x22), (20, 0x33)] 20 = 0x22 ∧ ifLookup [(10, 0x11)] 11 = 0xFF := by decide

/-- Both sides of CALC_FAULT with the empty table, for BaudValuesAreExact and CalcFaultIsBelowOneHalf. -/
theorem witness_CalcFaultIsBelowOneHalf :
    1 ≤ 188 ∧ 188 ≤ 256 ∧ baudEncode noTable 188 = none ∧ (baudEncode noTable 187).isSome = true := by decide

/-- The rows k = 1 and k = 256 of 95_test_vectors.md 2.4. -/
theorem witness_BaudValuesAreExact :
    1 ≤ 1 ∧ 256 ≤ 256 ∧ (baudValues candidate 1).rxOversampling = 1000 ∧ (baudValues candidate 256).ncOffset = 0x2BB0D ∧
    (baudValues candidate 1).rxOversampling ≠ 0 := by decide

theorem witness_SetBaudRateCompletes_ok :
    (ready 1 0 [] []).grant = .toWait ∧ 1 ≤ (ready 1 0 [] []).arg0.toNat ∧ (ready 1 0 [] []).arg0.toNat ≤ 256 ∧
    baudEncode (ready 1 0 [] []).params.ifTable (ready 1 0 [] []).arg0.toNat =
      some [[0x4C, 0x23, 0x18], [0x08, 0x31], [0x26], [0xE8, 0x60, 0x20, 0xC5, 0x00, 0x06]] := by decide

/-- The sentinel table at K = 256. -/
def tooFast : State := { ready 256 0 [] [] with params := { params with ifTable := noTable } }

theorem witness_SetBaudRateCompletes_fault :
    tooFast.grant = .toWait ∧ 1 ≤ tooFast.arg0.toNat ∧ tooFast.arg0.toNat ≤ 256 ∧
    baudEncode tooFast.params.ifTable tooFast.arg0.toNat = none := by decide

/-- The three first polls: seen, asserted without the bit, idle. -/
theorem witness_SendPacketCompletes :
    (ready 3 0 [0, 0, 0x10, 0x04] [.low]).grant = .toWait ∧ 0 < (ready 3 0 [0, 0, 0x10, 0x04] [.low]).params.txTimeout ∧
    (ready 3 0 [0, 0, 0x10, 0x04] [.low]).arg0.getLsbD 8 = false ∧
    (ready 3 0 [0, 0, 0x10, 0x04] [.low]).nextLevel = .low ∧
    (ready 3 0 [0, 0, 0x10, 0x04] [.low]).answerAt 3 &&& params.maskPksent ≠ 0 ∧
    (ready 0x102 0x32 [0, 0, 0x10, 0x04] [.low]).arg0.getLsbD 8 = true ∧
    (ready 0x102 0x32 [0, 0, 0x10, 0x04] [.low]).nextLevel = .low ∧
    (ready 0x102 0x32 [0, 0, 0x10, 0x04] [.low]).answerAt 3 &&& params.maskPksent ≠ 0 ∧
    (ready 0x1FF 0 [0, 0, 0x10, 0xFB] [.low]).nextLevel = .low ∧
    (ready 0x1FF 0 [0, 0, 0x10, 0xFB] [.low]).answerAt 3 &&& params.maskPksent = 0 ∧
    (ready 0 0 [0, 0, 0x10] [.high]).nextLevel = .high := by decide

/-- A send poll that has just reached its bound across the wrap of TICK (V-P18). -/
def sendExpired : State := { inside .sendHead (ready 1 0 [0x10, 0x80] []) with t0 := 0xFFFFFFFE, tick := 0x3E6 }

theorem witness_SendPollTimesOut :
    sendExpired.nextEvent = .controller .toWait ∧ sendExpired.wait = 0 ∧ sendExpired.todo = [] ∧
    sendExpired.next = .sendHead ∧ sendExpired.params.txTimeout ≤ (sendExpired.tick - sendExpired.t0).toNat := by decide

/-- A send poll about to begin, with a bound of two ticks. -/
def sendBegins : State :=
  facing [.controller .toWait, .tick, .controller .toWait, .tick, .controller .toWait]
    { inside .sendHead (ready 1 0 [] [.high, .high]) with params := { params with txTimeout := 2 } }

theorem witness_SendNeverSeenTimesOutAtTheBound :
    sendBegins.wait = 0 ∧ sendBegins.todo = [] ∧ sendBegins.next = .sendHead ∧ sendBegins.t0 = sendBegins.tick ∧
    sendBegins.params.txTimeout < 2 ^ 32 ∧
    sendBegins.events.script = (List.replicate sendBegins.params.txTimeout [Event.controller .toWait, Event.tick]).flatten ++
      .controller .toWait :: [] ∧
    sendBegins.levels.script = List.replicate sendBegins.params.txTimeout Level.high ++ [] := by decide

/-- One poll below the bound, the line idle. -/
theorem witness_SendNeverSeen_idle :
    sendBegins.nextEvent = .controller .toWait ∧ (sendBegins.tick - sendBegins.t0).toNat < sendBegins.params.txTimeout ∧
    sendBegins.nextLevel = .high := by decide

/-- V-P14: one poll below the bound across the wrap of TICK, the line asserted without the packet-sent bit. -/
def sendNotYet : State := { inside .sendHead (ready 1 0 [0xFB, 0xFF] [.low]) with t0 := 0xFFFFFFFF, tick := 0x3E6 }

theorem witness_SendNeverSeen_asserted :
    sendNotYet.nextEvent = .controller .toWait ∧ sendNotYet.wait = 0 ∧ sendNotYet.todo = [] ∧
    sendNotYet.next = .sendHead ∧ (sendNotYet.tick - sendNotYet.t0).toNat < sendNotYet.params.txTimeout ∧
    sendNotYet.nextLevel = .low ∧ sendNotYet.answerAt 0 &&& sendNotYet.params.maskPksent = 0 := by decide

/-- The same poll with the packet-sent bit, without acknowledgment and with one. -/
def sendSeen (a0 : Word) : State :=
  { inside .sendHead (ready a0 1 [0x04, 0, 0x10] [.low]) with t0 := 0xFFFFFFFF, tick := 0x3E6 }

theorem witness_SendNeverSeen_seen (a0 : Word) (h : a0 ∈ [0x001#32, 0x101#32]) :
    (sendSeen a0).nextEvent = .controller .toWait ∧ (sendSeen a0).wait = 0 ∧ (sendSeen a0).todo = [] ∧
    (sendSeen a0).next = .sendHead ∧ ((sendSeen a0).tick - (sendSeen a0).t0).toNat < (sendSeen a0).params.txTimeout ∧
    (sendSeen a0).nextLevel = .low ∧ (sendSeen a0).answerAt 0 &&& (sendSeen a0).params.maskPksent ≠ 0 ∧
    (sendSeen a0).arg0.getLsbD 8 = (a0 == 0x101) := by
  simp only [List.mem_cons, List.not_mem_nil, or_false] at h
  rcases h with rfl | rfl <;> decide

/-- An acknowledged send after SENT. -/
def sent : State := inside .sendSent (ready 0x102 1 [0, 0, 0x10, 0x02, 0, 0x10, 0x01, 0x06] [.low])

theorem witness_AcknowledgedSendFetchesTheBytes :
    sent.nextEvent = .controller .toWait ∧ sent.wait = 0 ∧ sent.todo = [] ∧ sent.next = .sendSent ∧
    sent.arg0.getLsbD 8 = true ∧ 0 < sent.arg1.toNat ∧ sent.nextLevel = .low ∧
    sent.answerAt 3 &&& sent.params.maskPkvalid ≠ 0 := by decide

/-- The same on an idle line. -/
def sentIdle : State := inside .sendSent (ready 0x102 1 [0, 0, 0x10] [.high])

theorem witness_AcknowledgedSend_idle :
    sentIdle.nextEvent = .controller .toWait ∧ sentIdle.wait = 0 ∧ sentIdle.todo = [] ∧ sentIdle.next = .sendSent ∧
    sentIdle.arg0.getLsbD 8 = true ∧ 0 < sentIdle.arg1.toNat ∧ sentIdle.nextLevel = .high := by decide

/-- V-P11: an acknowledgment bound of 0. -/
theorem witness_AcknowledgedSend_zero :
    (inside .sendSent (ready 0x102 0 [] [])).nextEvent = .controller .toWait ∧
    (inside .sendSent (ready 0x102 0 [] [])).wait = 0 ∧ (inside .sendSent (ready 0x102 0 [] [])).todo = [] ∧
    (inside .sendSent (ready 0x102 0 [] [])).next = .sendSent ∧
    (inside .sendSent (ready 0x102 0 [] [])).arg0.getLsbD 8 = true ∧
    (inside .sendSent (ready 0x102 0 [] [])).arg1.toNat = 0 := by decide

theorem witness_WaitForPacketCompletes :
    (ready 1 0 [0, 0, 0x10, 0x02] [.low]).grant = .toWait ∧ 0 < (ready 1 0 [0, 0, 0x10, 0x02] [.low]).arg0.toNat ∧
    (ready 1 0 [0, 0, 0x10, 0x02] [.low]).nextLevel = .low ∧
    (ready 1 0 [0, 0, 0x10, 0x02] [.low]).answerAt 3 &&& params.maskPkvalid ≠ 0 ∧
    (ready 1 0 [0, 0, 0x10] [.high]).nextLevel = .high ∧ 0 < (ready 1 0 [0, 0, 0x10] [.high]).arg0.toNat ∧
    (ready 0 0 [0, 0, 0x10] []).arg0.toNat = 0 ∧ (ready 0 0 [0, 0, 0x10] []).grant = .toWait := by decide

/-- A wait of one tick about to begin, on an idle line. -/
def waitBegins : State :=
  facing [.controller .toWait, .tick, .controller .toWait] (inside (.waitHead .waitCommand) (ready 1 0 [] [.high]))

theorem witness_WaitNeverServedTimesOutAtTheBound :
    waitBegins.wait = 0 ∧ waitBegins.todo = [] ∧ waitBegins.next = .waitHead .waitCommand ∧
    waitBegins.t0 = waitBegins.tick ∧
    waitBegins.events.script = (List.replicate waitBegins.arg0.toNat [Event.controller .toWait, Event.tick]).flatten ++
      .controller .toWait :: [] ∧
    waitBegins.levels.script = List.replicate waitBegins.arg0.toNat Level.high ++ [] := by decide

/-- A check of either wait below its bound of one tick, and at it. -/
def checking (who : Poller) (answers : List Byte) (level : Level) (tick : Word) : State :=
  { inside (.waitHead who) (ready 1 1 answers [level]) with tick := tick }

/-- For both waits: the bound, an idle line, an asserted line with no bit, a CRC error, a valid packet. -/
theorem witness_WaitNeverServed_steps (who : Poller) (h : who ∈ [Poller.waitCommand, .acknowledgment]) :
    who ≠ .once ∧ (checking who [] .low 1).nextEvent = .controller .toWait ∧ (checking who [] .low 1).wait = 0 ∧
    (checking who [] .low 1).todo = [] ∧ (checking who [] .low 1).next = .waitHead who ∧
    (if who = .waitCommand then (checking who [] .low 1).arg0.toNat else (checking who [] .low 1).arg1.toNat) ≤
      ((checking who [] .low 1).tick - (checking who [] .low 1).t0).toNat ∧
    ((checking who [] .high 0).tick - (checking who [] .high 0).t0).toNat <
      (if who = .waitCommand then (checking who [] .high 0).arg0.toNat else (checking who [] .high 0).arg1.toNat) ∧
    (checking who [] .high 0).nextLevel = .high ∧ (checking who [0xFC] .low 0).nextLevel = .low ∧
    (checking who [0xFC] .low 0).answerAt 0 &&& params.maskPkvalid = 0 ∧
    (checking who [0xFC] .low 0).answerAt 0 &&& params.maskCrcerr = 0 ∧
    (checking who [0x01] .low 0).answerAt 0 &&& params.maskPkvalid = 0 ∧
    (checking who [0x01] .low 0).answerAt 0 &&& params.maskCrcerr ≠ 0 ∧
    (checking who [0x02, 0, 0x10, 0x01, 0x06] .low 0).nextLevel = .low ∧
    (checking who [0x02, 0, 0x10, 0x01, 0x06] .low 0).answerAt 0 &&& params.maskPkvalid ≠ 0 := by
  simp only [List.mem_cons, List.not_mem_nil, or_false] at h
  rcases h with rfl | rfl <;> decide

/-- Each of the four ways of IS_PACKET_RECEIVED: the idle line, a valid packet, a CRC error, nothing. -/
theorem witness_IsPacketReceivedCompletes :
    (ready 0 0 [] [.high]).grant = .toWait ∧ (ready 0 0 [] [.high]).nextLevel = .high ∧
    (ready 0 0 [0x03] [.low]).nextLevel = .low ∧ (ready 0 0 [0x03] [.low]).answerAt 0 &&& params.maskPkvalid ≠ 0 ∧
    (ready 0 0 [0x01] [.low]).answerAt 0 &&& params.maskPkvalid = 0 ∧
    (ready 0 0 [0x01] [.low]).answerAt 0 &&& params.maskCrcerr ≠ 0 ∧
    (ready 0 0 [0xFC] [.low]).answerAt 0 &&& params.maskPkvalid = 0 ∧
    (ready 0 0 [0xFC] [.low]).answerAt 0 &&& params.maskCrcerr = 0 := by decide

/-- BootCompletes ends either way. -/
theorem witness_BootCompletes :
    (ready 0 0 [0x10] []).grant = .toWait ∧
    (baudEncode candidate (ready 0 0 [0x10] []).cfgBaud.toNat).isSome = true ∧
    baudEncode faulting (ready 0 0 [0x10] []).cfgBaud.toNat = none := by decide

theorem witness_SoftwareResetCompletes :
    (ready 0 0 [0x02] []).grant = .toWait ∧ 0 < (ready 0 0 [0x02] []).params.porSleep ∧
    (ready 0 0 [0x02] []).answerAt 0 &&& (ready 0 0 [0x02] []).params.maskPor ≠ 0 := by decide

theorem witness_HardwareResetPowersOff :
    (ready 0 0 [] []).grant = .toWait ∧ 0 < (ready 0 0 [] []).params.sdnOff ∧
    (inside .sdnRelease (ready 0 0 [] [])).nextEvent = .controller .toWait ∧
    (inside .sdnRelease (ready 0 0 [] [])).wait = 0 ∧ (inside .sdnRelease (ready 0 0 [] [])).todo = [] ∧
    (inside .sdnRelease (ready 0 0 [] [])).next = .sdnRelease ∧ 0 < (ready 0 0 [] []).params.sdnOn := by decide

/-- HARDWARE_RESET latched, with waits of one and two ticks. -/
def poweringOff : State :=
  facing ([.controller .toWait, .tick, .controller .toWait, .tick, .tick, .controller .toWait])
    { latched 0x42 (ready 0 0 [0x02, 0x10] []) with params := { params with sdnOn := 2 } }

theorem witness_HardwareResetRunsToBoot :
    decodeWord poweringOff.cmd = some .hardwareReset ∧ poweringOff.wait = 0 ∧ poweringOff.todo = [] ∧
    poweringOff.next = .decode ∧ 0 < poweringOff.params.sdnOff ∧ 0 < poweringOff.params.sdnOn ∧
    poweringOff.answerAt 0 &&& poweringOff.params.maskPor ≠ 0 ∧
    poweringOff.events.script = .controller .toWait :: (List.replicate poweringOff.params.sdnOff Event.tick ++
      .controller .toWait :: (List.replicate poweringOff.params.sdnOn Event.tick ++ .controller .toWait :: [])) := by
  decide

/-- The third poll, with this limit. -/
def polling (limit : Option Nat) : State :=
  { inside .porHead (ready 0 0 [0x01] []) with params := { params with porLimit := limit }, polls := 2 }

theorem witness_PorPollStopsAtItsLimit (limit : Option Nat) :
    (polling limit).nextEvent = .controller .toWait ∧ (polling limit).wait = 0 ∧ (polling limit).todo = [] ∧
    (polling limit).next = .porHead ∧ (polling limit).answerAt 0 &&& (polling limit).params.maskPor = 0 ∧
    0 < (polling limit).params.porSleep := by
  refine ⟨rfl, rfl, rfl, rfl, ?_, ?_⟩
  · change (0x01#8 : Byte) &&& 0x02#8 = 0
    decide
  · change 0 < 1
    decide

/-- The three cases: the limit reached, not reached, none. -/
theorem witness_PorPollStopsAtItsLimit_clauses :
    (polling (some 3)).params.porLimit = some 3 ∧ 3 ≤ (polling (some 3)).polls + 1 ∧
    (polling (some 4)).params.porLimit = some 4 ∧ (polling (some 4)).polls + 1 < 4 ∧
    (polling none).params.porLimit = none := by decide

/-- P1: the second poll shows the bit. -/
def porSeen : State := { inside .porHead (ready 0 0 [0x02, 0x10] []) with polls := 1 }

theorem witness_PorPollStopsAtItsLimit_seen :
    porSeen.nextEvent = .controller .toWait ∧ porSeen.wait = 0 ∧ porSeen.todo = [] ∧ porSeen.next = .porHead ∧
    porSeen.answerAt 0 &&& porSeen.params.maskPor ≠ 0 := by decide

theorem witness_PorPollStopsAtItsLimit_start :
    (inside .porStart (ready 0 0 [] [])).nextEvent = .controller .toWait ∧
    (inside .porStart (ready 0 0 [] [])).wait = 0 ∧ (inside .porStart (ready 0 0 [] [])).todo = [] ∧
    (inside .porStart (ready 0 0 [] [])).next = .porStart ∧ 0 < (ready 0 0 [] []).params.porSleep := by decide

/-- A state inside a window of a running command meets the invariant and has a next state. -/
def inWindow : State :=
  facing [.controller (.steps 1)]
    { ready 0 0 [] [] with
        busy := true, code := .pending, sel := true, databuf := [(0, 1), (255, 2)]
        todo := [.send 0x05, .select false, .finish .ok] }

theorem witness_EveryStepKeepsTheInvariant :
    inWindow.Inv ∧ reaches (step inWindow) (fun t => t.sel && t.todo == [.select false, .finish .ok]) = true := by decide

theorem witness_InstructionsKeepTheHostsState :
    reaches (exec .switchMode { ready 5 0 [0x10] [] with busAnomaly := true }) (fun t => t.busAnomaly) = true := by decide

/-- A command that is no writer, and one acknowledged and one plain send, each with a next state. -/
theorem witness_RegistersHaveTheirWriters :
    isCommand .clearFifo = true ∧ reaches (exec .clearFifo (ready 0 0 [] [])) (fun t => !t.busy) = true ∧
    isCommand .sendPacket = true ∧ (ready 3 0 [] []).arg0.getLsbD 8 = false ∧
    reaches (exec .sendPacket (ready 3 0 [0, 0, 0x10] [.high])) (fun t => t.wait == 1) = true := by decide

/-- A move from a branch, with a next state, for each kind of position: one that writes nothing, the release of SDN, the
bound of a wait, a power-on-reset poll. -/
theorem witness_RegistersHaveTheirWriters_branch (next : Label)
    (h : next ∈ [Label.idle, .baudDone, .sendTimeout, .sdnRelease, .waitHead .waitCommand, .porHead]) :
    (inside next (ready 0 0 [0x02] [])).nextEvent = .controller .toWait ∧ (inside next (ready 0 0 [0x02] [])).todo = [] ∧
    (inside next (ready 0 0 [0x02] [])).next ≠ .decode ∧
    reaches (step (inside next (ready 0 0 [0x02] []))) (fun t => t.cfgFreq == 433) = true := by
  simp only [List.mem_cons, List.not_mem_nil, or_false] at h
  rcases h with rfl | rfl | rfl | rfl | rfl | rfl <;> decide

theorem witness_OnlyTheGeneratorTicks :
    reaches (step framed) (fun t => t.tick == 0) = true ∧ framed.nextEvent ≠ .tick ∧ framed.nextEvent ≠ .blockReset := by
  decide

/-- A move that begins a command, and one that goes on after a wait. -/
theorem witness_CoarseMovesAreFineSteps :
    (ready 0 0 [] []).wait = 0 ∧ (latched 0x30 (ready 0 0 [] [])).events.script = .controller .toWait :: [] ∧
    sendNotYet.events.script = .controller .toWait :: [] := by decide

theorem witness_BusCostsAreTheTable : baudFaults (baudValues candidate 100) = false := by decide

/-- `WRITE_REG 0x07, 0x01` to an idle block. -/
def lineAhead : State :=
  facing (((HostLine.writeReg 0x07 0x01).stores 0x4000).map Event.host) (ready 0 0 [] [])

theorem witness_CommandLineIssuesItsCommand :
    (HostLine.writeReg 0x07 0x01).command = some (0x07, 0x01, 0x01) ∧ lineAhead.busy = false ∧
    lineAhead.events.script = ((HostLine.writeReg 0x07 0x01).stores lineAhead.params.base).map Event.host ++ [] := by
  decide

/-- The wait before its first load, after one with BUSY = 1, and after one with BUSY = 0 with and without a line behind. -/
theorem witness_CommandLineIssuesItsCommand_wait :
    awaiting.ahead = .awaitIdle :: [] ∧ awaiting.status = none ∧
    ({ awaiting with status := some 0x41 } : Session).status = some 0x41 ∧ (0x41#32 : Word).getLsbD 0 = true ∧
    ({ awaiting with status := some 0x400 } : Session).status = some 0x400 ∧ (0x400#32 : Word).getLsbD 0 = false ∧
    reaches (step awaiting.machine) (fun t => !t.busy) = true ∧
    (Session.start (ready 0 0 [] []) [.clearFifo, .clearFifo]).ahead.drop 3 =
      .awaitIdle :: (Session.start (ready 0 0 [] []) [.clearFifo]).ahead ∧
    (Session.start (ready 0 0 [] []) [.clearFifo]).ahead ≠ [] := by decide

/-- A line of five bytes: two words, the second with one byte of it covered. -/
theorem witness_CommandLineIssuesItsCommand_buf :
    (HostLine.buf [0xA1, 0xA2, 0xA3, 0xA4, 0xA5]).stores 0x4000 =
      [.store 0x4100 4 0xA4A3A2A1, .store 0x4104 4 0x000000A5] ∧
    (HostLine.writeReg 0x07 0x01).command ≠ none := by decide

/-! ### Fair schedules: a state that meets every hypothesis of the laws of Laws/Fairness.lean -/

/-- `p` holds in every state a run from `s` reaches while its command runs, if that ends within `n` steps. -/
def throughout (p : State → Bool) : Nat → State → Bool
  | 0, _ => false
  | n + 1, s => p s && reaches (step s) fun t => !t.busy || throughout p n t

theorem throughout_later (p : State → Bool) (n : Nat) (s t : State) (h : throughout p n s = true) (g : s.Later t) :
    p t = true := by
  have all : ∃ m, throughout p m t = true := by
    induction g with
    | here => exact ⟨n, h⟩
    | step _ hs hb ih =>
      obtain ⟨m, hm⟩ := ih
      cases m with
      | zero => cases hm
      | succ m =>
        simp only [throughout, Bool.and_eq_true, hs, reaches, hb, Bool.not_true, Bool.false_or] at hm
        exact ⟨m, hm.2⟩
  obtain ⟨m, hm⟩ := all
  cases m with
  | zero => cases hm
  | succ m =>
    simp only [throughout, Bool.and_eq_true] at hm
    exact hm.1

/-- A wait of one tick that its schedule serves: a check, the tick, the bound. -/
def servedWait : State := facing [.controller .toWait, .tick, .controller .toWait, .tick] waitBegins

theorem witness_fair : servedWait.Fair where
  ticks t g := by
    have h := throughout_later (fun u => [0, 1, 2, 3].any fun k => u.eventAt k == .tick) 4 servedWait t (by decide) g
    obtain ⟨k, -, hk⟩ := List.any_eq_true.mp h
    exact ⟨k, of_decide_eq_true hk⟩
  moves t g c := by
    have h := throughout_later (fun u => !u.canStep || [0, 1].any fun k => controls (u.eventAt k)) 4 servedWait t
      (by decide) g
    rw [c] at h
    obtain ⟨k, -, hk⟩ := List.any_eq_true.mp h
    exact ⟨k, hk⟩

theorem witness_undisturbed : servedWait.Undisturbed := by
  intro t g
  have h := throughout_later (fun u => u.nextEvent == .controller .toWait || u.nextEvent == .tick) 4 servedWait t
    (by decide) g
  rcases Bool.or_eq_true_iff.mp h with h | h <;> rw [of_decide_eq_true h] <;> exact ⟨nofun, nofun⟩

theorem witness_paced : servedWait.Paced := by
  intro t g _ _
  have h := throughout_later (fun u => decide (u.elapsed < 2)) 4 servedWait t (by decide) g
  have := of_decide_eq_true h
  omega

theorem witness_commands_end_under_fairness :
    servedWait.Inv ∧ servedWait.busy = true ∧ servedWait.endsAnyway = true := by decide

theorem witness_por_poll_hangs : (polling none).Hanging ∧ (polling none).nextEvent ≠ .blockReset :=
  ⟨⟨rfl, rfl, rfl, by decide, nofun⟩, by decide⟩

end Sys2Proof.Tests
end

section
/-! What a host's store does while a command runs (10_state.md R36). -/

namespace Sys2Proof.Machine

@[simp] theorem State.guarded_of_busy (s stored : State) (hb : s.busy = true) :
    s.guarded stored = { s with cmdOverrun := true } := by
  simp only [State.guarded, hb, if_true]

/-- While a command runs, what would have been stored in CMD, ARG0, ARG1 or DATABUF does not matter: all four stores go
through the one guard. -/
theorem State.hostStore_of_busy (s : State) (offset : Nat) (w : Word) (hb : s.busy = true)
    (hreg : offset = 0 ∨ offset = 4 ∨ offset = 8 ∨ 0x100 ≤ offset) :
    s.hostStore offset w = { s with cmdOverrun := true } := by
  rcases hreg with rfl | rfl | rfl | hbuf
  case inl => exact s.guarded_of_busy (s.issue w) hb
  case inr.inl => exact s.guarded_of_busy { s with arg0 := w } hb
  case inr.inr.inl => exact s.guarded_of_busy { s with arg1 := w } hb
  case inr.inr.inr => rw [s.hostStore_buffer offset w hbuf, s.guarded_of_busy _ hb]

/-- Settles O12: the step is the host's aligned store in the aperture, and the guard drops it. -/
theorem busyStoreIsDropped : Obligations.BusyStoreIsDropped := by
  intro s offset w hreg halign hevent hbusy
  have haperture : offset < 0x200 := by omega
  have hstore : s.moved.hostStore offset w = { s.moved with cmdOverrun := true } :=
    s.moved.hostStore_of_busy offset w hbusy (by omega)
  calc step s = s.moved.hostMove (.store (s.moved.params.base + offset) 4 w) := step_host s _ hevent
    _ = .next (s.moved.hostStore offset w) := s.moved.hostMove_store offset w haperture halign
    _ = .next { s.moved with cmdOverrun := true } := by rw [hstore]

end Sys2Proof.Machine
end

section
/-! What a host's store to DATABUF and a host's load of it do while no command runs (10_state.md R34, 20_memory.md
R62). -/

namespace Sys2Proof.Machine

@[simp] theorem State.guarded_of_idle (s stored : State) (hb : s.busy = false) : s.guarded stored = stored := by
  simp [State.guarded, hb]

@[simp] theorem bytesOfWord_length (w : Word) : (bytesOfWord w).length = 4 := rfl

/-- Byte `k` of a word is its lane `k` (R62). -/
theorem bytesOfWord_getElem? (w : Word) (k : Nat) (hk : k < 4) :
    (bytesOfWord w)[k]? = some (w.extractLsb' (8 * k) 8) := by
  rcases (by omega : k = 0 ∨ k = 1 ∨ k = 2 ∨ k = 3) with rfl | rfl | rfl | rfl <;> rfl

/-- A word is determined by its four byte lanes: bit `n` is bit `n mod 8` of lane `n div 8`. -/
theorem word_eq_of_lanes_eq (v w : Word) (h : ∀ k < 4, v.extractLsb' (8 * k) 8 = w.extractLsb' (8 * k) 8) : v = w := by
  have bit : ∀ (u : Word) (n : Nat), (u.extractLsb' (8 * (n / 8)) 8).getLsbD (n % 8) = u.getLsbD n := by
    intro u n
    have hlane : n % 8 < 8 := Nat.mod_lt n (by decide)
    simp [hlane, Nat.div_add_mod]
  apply BitVec.eq_of_getLsbD_eq
  intro n hn
  rw [← bit v n, ← bit w n, h (n / 8) (by omega)]

@[simp] theorem wordOfBytes_bytesOfWord (w : Word) : wordOfBytes (bytesOfWord w) = w := by
  apply word_eq_of_lanes_eq
  intro k hk
  calc (wordOfBytes (bytesOfWord w)).extractLsb' (8 * k) 8
      = ((bytesOfWord w)[k]?).getD 0 := by rw [bytesOfWord, wordOfBytes_lane _ _ _ _ k hk, List.getD_eq_getElem?_getD]
    _ = w.extractLsb' (8 * k) 8 := by rw [bytesOfWord_getElem? w k hk, Option.getD_some]

/-- After the four bytes of a word are written from `i`, the byte at `i + k` is the word's lane `k`. -/
theorem bufGet_bufWrite_word_lane (m : List Host.Cell) (i k : Nat) (w : Word) (hi : i + 4 ≤ 256) (hk : k < 4) :
    bufGet (bufWrite m i (bytesOfWord w)) (i + k) = some (w.extractLsb' (8 * k) 8) := by
  have hin : i ≤ i + k ∧ i + k < i + (bytesOfWord w).length := ⟨Nat.le_add_right i k, Nat.add_lt_add_left hk i⟩
  rw [bufGet_bufWrite m i (i + k) (bytesOfWord w) hi, if_pos hin, Nat.add_sub_cancel_left, bytesOfWord_getElem? w k hk]

/-- Writing a word's four bytes from `i` leaves every byte outside them alone. -/
theorem bufGet_bufWrite_word_outside (m : List Host.Cell) (i j : Nat) (w : Word) (hi : i + 4 ≤ 256)
    (hj : j < i ∨ i + 4 ≤ j) : bufGet (bufWrite m i (bytesOfWord w)) j = bufGet m j := by
  have hout : ¬(i ≤ j ∧ j < i + (bytesOfWord w).length) := by rw [bytesOfWord_length]; omega
  rw [bufGet_bufWrite m i j (bytesOfWord w) hi, if_neg hout]

/-- An idle load of a DATABUF word whose four bytes were written is that word, and no open read happens. -/
theorem State.hostReadsBuf_written (s : State) (i : Nat) (w : Word) (hb : s.busy = false)
    (hw : ∀ k < 4, bufGet s.databuf (i + k) = some (w.extractLsb' (8 * k) 8)) :
    s.hostReadsBuf i = s.hostReads w := by
  have hread : s.bufRead i 4 = (bytesOfWord w, s) :=
    s.bufRead_written i (bytesOfWord w) fun k hk => by rw [hw k hk, bytesOfWord_getElem? w k hk]
  simp [State.hostReadsBuf, hb, hread]

/-- While no command runs, a host's aligned store of a DATABUF word writes its four bytes, lowest lane first. -/
theorem step_bufferStore (s : State) (i : Nat) (w : Word) (halign : i % 4 = 0) (hi : i < 256) (hb : s.busy = false)
    (hevent : s.nextEvent = .host (.store (s.params.base + (0x100 + i)) 4 w)) :
    step s = .next { s.moved with databuf := bufWrite s.databuf i (bytesOfWord w) } := by
  calc step s = s.moved.hostMove (.store (s.moved.params.base + (0x100 + i)) 4 w) := step_host s _ hevent
    _ = .next (s.moved.hostStore (0x100 + i) w) := s.moved.hostMove_store (0x100 + i) w (by omega) (by omega)
    _ = .next { s.moved with databuf := bufWrite s.databuf i (bytesOfWord w) } := by
      rw [s.moved.hostStore_buffer (0x100 + i) w (Nat.le_add_right _ i), s.moved.guarded_of_idle _ hb,
        Nat.add_sub_cancel_left]
      rfl

/-- A host's aligned load in DATABUF is the read of the word at its index. -/
theorem step_bufferLoad (s : State) (i : Nat) (halign : i % 4 = 0) (hi : i < 256)
    (hevent : s.nextEvent = .host (.load (s.params.base + (0x100 + i)) 4)) :
    step s = .next (s.moved.hostReadsBuf i) := by
  calc step s = s.moved.hostMove (.load (s.moved.params.base + (0x100 + i)) 4) := step_host s _ hevent
    _ = .next (s.moved.hostLoad (0x100 + i)) := s.moved.hostMove_load (0x100 + i) (by omega) (by omega)
    _ = .next (s.moved.hostReadsBuf i) := by
      rw [s.moved.hostLoad_buffer (0x100 + i) (Nat.le_add_right _ i), Nat.add_sub_cancel_left]

/-- Settles O13: a store writes the word's four bytes, and a load of four written bytes puts them together again. -/
theorem bufferWordsAreLittleEndian : Obligations.BufferWordsAreLittleEndian := by
  intro s i w halign hi hb
  have hend : i + 4 ≤ 256 := by omega
  constructor
  · intro hevent
    exact ⟨_, step_bufferStore s i w halign hi hb hevent, rfl,
      fun k hk => bufGet_bufWrite_word_lane s.databuf i k w hend hk,
      fun j hj => bufGet_bufWrite_word_outside s.databuf i j w hend hj⟩
  · intro hevent hwritten
    rw [step_bufferLoad s i halign hi hevent, s.moved.hostReadsBuf_written i w hb hwritten]
    rfl

end Sys2Proof.Machine
end

section
/-! The command words (30_encoding.md R91, R92): a word is its opcode's number, and the opcode map is a list of pairs. -/

namespace Sys2Proof

/-- The opcode map of R92 as the pairs of its rows; `decodeOpcode_eq_some_iff` ties it to the decoder. -/
def opcodeMap : List (Nat × Instr) :=
  [(0x01, .writeReg), (0x02, .readReg), (0x03, .writeBurst), (0x04, .readBurst),
    (0x10, .setFrequency), (0x11, .setSignature), (0x12, .setChannel), (0x13, .setBaudRate),
    (0x20, .switchMode), (0x21, .clearTxFifo), (0x22, .clearRxFifo), (0x23, .clearFifo),
    (0x30, .sendPacket), (0x31, .waitForPacket), (0x32, .startListening), (0x33, .isPacketReceived),
    (0x34, .getPacketReceived), (0x40, .boot), (0x41, .softwareReset), (0x42, .hardwareReset)]

theorem decodeOpcode_of_mem_opcodeMap : ∀ row ∈ opcodeMap, decodeOpcode row.1 = some row.2 := by decide

/-- Every opcode is an opcode byte, so no word with a bit set in ZERO is a row's word. -/
theorem opcode_lt_of_mem_opcodeMap : ∀ row ∈ opcodeMap, row.1 < 256 := by decide

theorem encode_of_mem_opcodeMap (dummy : Byte) :
    ∀ row ∈ opcodeMap, encode dummy row.2 = .cmd (BitVec.ofNat 32 row.1) := by
  simp [opcodeMap, encode]

theorem decodeOpcode_eq_some_iff (op : Nat) (i : Instr) : decodeOpcode op = some i ↔ (op, i) ∈ opcodeMap := by
  constructor
  · intro h
    unfold decodeOpcode at h
    split at h
    case h_21 => cases h
    all_goals
      cases h
      decide
  · exact decodeOpcode_of_mem_opcodeMap (op, i)

theorem decodeOpcode_eq_none_of_le (op : Nat) (h : 256 ≤ op) : decodeOpcode op = none := by
  refine Option.eq_none_iff_forall_ne_some.mpr fun i hi => ?_
  have hlt : op < 256 := opcode_lt_of_mem_opcodeMap (op, i) ((decodeOpcode_eq_some_iff op i).mp hi)
  omega

/-- The ZERO field of R91 is 0 exactly when the word's number fits in the opcode byte. -/
theorem zeroField_eq_zero_iff (w : Word) : w.extractLsb' 8 24 = 0 ↔ w.toNat < 256 := by
  have := w.isLt
  rw [← BitVec.toNat_inj, BitVec.extractLsb'_toNat, Nat.shiftRight_eq_div_pow]
  simp only [BitVec.ofNat_eq_ofNat, BitVec.toNat_ofNat]
  omega

/-- The word decodes by its whole number: with ZERO clear that is the opcode, and otherwise it is above every opcode. -/
theorem decodeWord_eq_decodeOpcode_toNat (w : Word) : decodeWord w = decodeOpcode w.toNat := by
  unfold decodeWord
  split
  next hzero =>
    have hlt : w.toNat < 2 ^ 8 := (zeroField_eq_zero_iff w).mp hzero
    rw [BitVec.extractLsb'_toNat, Nat.shiftRight_zero, Nat.mod_eq_of_lt hlt]
  next hzero =>
    have hle : 256 ≤ w.toNat := not_lt.mp (mt (zeroField_eq_zero_iff w).mpr hzero)
    exact (decodeOpcode_eq_none_of_le w.toNat hle).symm

theorem decodeWord_eq_some_iff (w : Word) (i : Instr) : decodeWord w = some i ↔ (w.toNat, i) ∈ opcodeMap := by
  rw [decodeWord_eq_decodeOpcode_toNat, decodeOpcode_eq_some_iff]

theorem encode_of_decodeWord (w : Word) (i : Instr) (dummy : Byte) (h : decodeWord w = some i) :
    encode dummy i = .cmd w := by
  have hrow : (w.toNat, i) ∈ opcodeMap := (decodeWord_eq_some_iff w i).mp h
  calc encode dummy i = .cmd (BitVec.ofNat 32 w.toNat) := encode_of_mem_opcodeMap dummy (w.toNat, i) hrow
    _ = .cmd w := by rw [BitVec.ofNat_toNat, BitVec.setWidth_eq]

/-- Settles O2: a word decodes by its number, the decoder's rows are the map's, and each row's number is what `encode`
writes. -/
theorem commandWordsAreTheOpcodeMap : Obligations.CommandWordsAreTheOpcodeMap :=
  ⟨decodeWord_eq_some_iff, encode_of_decodeWord⟩

end Sys2Proof
end

section
/-! The one-byte register accesses (41_register_access.md R124, R125): a command whose only branch is its end makes its
operations in one block and stops at IDLE_WAIT. -/

namespace Sys2Proof.Machine

/-- `s` with its controller at IDLE_WAIT: what a command begun by `startCommand _ .idle` works on. -/
def State.atIdle (s : State) : State := { s with todo := [], next := .idle, wait := 0 }

/-- After its end a command has no branch to make. -/
theorem State.enter_finish (s : State) (code : ResultCode) : (s.finish code).enter = s.finish code := rfl

/-- A command without a branch, in a move to the next wait: its operations, then its end. -/
theorem State.startCommand_finish_toWait (s : State) (ops : List Micro) (code : ResultCode) (hs : s.grant = .toWait) :
    s.startCommand (ops ++ [Micro.finish code]) .idle = (s.atIdle.perform ops).finish code := by
  have htodo : ((s.atIdle.perform ops).finish code).todo = [] := s.atIdle.perform_todo ops
  calc s.startCommand (ops ++ [Micro.finish code]) .idle
      = (s.atIdle.goOn (ops ++ [Micro.finish code]) .idle).run := rfl
    _ = (s.atIdle.goOn (ops ++ [Micro.finish code]) .idle).runBlocks blocksPerMove := State.run_toWait _ hs
    _ = (s.atIdle.perform (ops ++ [Micro.finish code])).enter.runBlocks 15 := s.atIdle.goOn_runBlocks _ .idle 15 rfl
    _ = ((s.atIdle.perform ops).finish code).enter.runBlocks 15 := by rw [State.perform_append]; rfl
    _ = ((s.atIdle.perform ops).finish code).runBlocks 15 := by rw [State.enter_finish]
    _ = (s.atIdle.perform ops).finish code := State.runBlocks_idle _ 15 htodo rfl

/-- Settles O22: the command is one write window and its end. -/
theorem writeRegCompletes : Obligations.WriteRegCompletes := by
  intro s hs
  calc exec .writeReg s = .next (s.startCommand (writeReg s.opAddr s.opValue ++ [.finish .ok]) .idle) := rfl
    _ = .next ((s.atIdle.perform (writeReg s.opAddr s.opValue)).finish .ok) := by
      rw [s.startCommand_finish_toWait _ .ok hs]
    _ = .next (State.ended { s with
          sel := false, trace := s.trace ++ writeTrace s.opAddr [s.opValue] } .ok) := by
      rw [State.perform_writeReg]
      rfl

/-- Settles O23: the command is one read window of one byte, the two places that byte goes to, and its end. -/
theorem readRegCompletes : Obligations.ReadRegCompletes := by
  intro s hs
  calc exec .readReg s
      = .next (s.startCommand ((readReg s.params s.opAddr ++ [.setData, .storeRx]) ++ [.finish .ok]) .idle) := rfl
    _ = .next (((s.atIdle.perform (readReg s.params s.opAddr)).perform [.setData, .storeRx]).finish .ok) := by
      rw [s.startCommand_finish_toWait _ .ok hs, State.perform_append]
    _ = .next (State.ended { s with
          sel := false
          data := s.answerAt 0
          databuf := bufWrite s.databuf 0 [s.answerAt 0]
          rxlen := 1
          rx := [s.answerAt 0]
          answers := s.answers.skip 1
          trace := s.trace ++ readTrace s.params s.opAddr [s.answerAt 0] } .ok) := by
      rw [s.atIdle.perform_readReg s.params rfl]
      rfl

end Sys2Proof.Machine
end

section
/-! The calculator (42_configuration.md R142 to R165): each whole-number value is the rule's rational formula, and each
byte made of fields is their sum at their places. -/

namespace Sys2Proof.Machine

/-! ### The frequency (R142) -/

theorem freqDivisor_pos (f : Nat) : 0 < freqDivisor f := by unfold freqDivisor; omega

/-- From 240 on, `f / div` is at least 24 in either band, so the subtraction of R142 is one of natural numbers. -/
theorem mul_freqDivisor_le (f : Nat) (hf : 240 ≤ f) : 24 * freqDivisor f ≤ f := by
  unfold freqDivisor highBand
  split <;> omega

/-- `fp = f / div - 24` (R142). -/
theorem freqPart_div_freqDivisor (f : Nat) (hf : 240 ≤ f) :
    (f : ℚ) / freqDivisor f - 24 = (freqPart f : ℚ) / freqDivisor f := by
  have hdiv : (freqDivisor f : ℚ) ≠ 0 := Nat.cast_ne_zero.mpr (freqDivisor_pos f).ne'
  rw [freqPart, Nat.cast_sub (mul_freqDivisor_le f hf), sub_div, Nat.cast_mul, mul_div_cancel_right₀ _ hdiv,
    Nat.cast_ofNat]

theorem freqBand_eq_floor (f : Nat) (hf : 240 ≤ f) : (freqBand f : ℤ) = ⌊(f : ℚ) / freqDivisor f - 24⌋ := by
  rw [freqPart_div_freqDivisor f hf, Rat.floor_natCast_div_natCast, freqBand, Int.natCast_ediv]

/-- `fp - band` is the remainder over `div` (R142). -/
theorem sub_freqBand_eq (f : Nat) (hf : 240 ≤ f) :
    (f : ℚ) / freqDivisor f - 24 - freqBand f = ((freqPart f % freqDivisor f : ℕ) : ℚ) / freqDivisor f := by
  have hband : (freqBand f : ℚ) = ⌊(f : ℚ) / freqDivisor f - 24⌋ := by rw [← freqBand_eq_floor f hf, Int.cast_natCast]
  rw [hband, Int.self_sub_floor, freqPart_div_freqDivisor f hf, Int.fract_div_natCast_eq_div_natCast_mod]

theorem freqCarrier_eq_floor (f : Nat) (hf : 240 ≤ f) :
    (freqCarrier f : ℤ) = ⌊((f : ℚ) / freqDivisor f - 24 - freqBand f) * 64000 + 1 / 2⌋ := by
  rw [sub_freqBand_eq f hf, freqCarrier, roundDiv_eq_floor _ _ (freqDivisor_pos f), div_mul_eq_mul_div,
    Nat.cast_mul, Nat.cast_ofNat]

/-- Settles O28: from 240 on the truncated subtraction is the exact one, and band and carrier are the quotient and the
remainder of one division. -/
theorem freqEncodeIsExact : Obligations.FreqEncodeIsExact := by
  intro f hf _
  exact ⟨highBand f, freqDivisor f, freqBand f, freqCarrier f, rfl, rfl, freqBand_eq_floor f hf,
    freqCarrier_eq_floor f hf, rfl⟩

/-! ### The baud values (R155 to R163) -/

theorem fdRegOf_eq (k : Nat) : fdRegOf k = if k ≤ 10 then 24 else 240 := by
  unfold fdRegOf freqDeviation
  split <;> rfl

theorem fdRegOf_eq_floor (k : Nat) : (fdRegOf k : ℤ) = ⌊(freqDeviation k : ℚ) * 1000 / 625 + 1 / 2⌋ := by
  rw [fdRegOf, roundDiv_eq_floor _ _ (by decide)]
  push_cast
  rfl

theorem dataRateOf_eq_floor (k : Nat) :
    (dataRateOf k : ℤ) = ⌊(k : ℚ) * (if k < 30 then 2097152 else 65536) / 1000 + 1 / 2⌋ := by
  rw [dataRateOf, roundDiv_eq_floor _ _ (by decide)]
  push_cast
  rfl

/-- The data rate fits its two bytes. -/
theorem dataRateOf_lt (k : Nat) (hk : k ≤ 256) : dataRateOf k < 2 ^ 16 := by
  unfold dataRateOf roundDiv
  split <;> omega

theorem dwn3BypassOf_eq (filt : Byte) : dwn3BypassOf filt = filt.toNat / 128 := by
  have := filt.isLt
  rw [dwn3BypassOf, BitVec.extractLsb'_toNat, Nat.shiftRight_eq_div_pow]
  omega

theorem ndecExpOf_eq (filt : Byte) : ndecExpOf filt = filt.toNat / 16 % 8 := by
  rw [ndecExpOf, BitVec.extractLsb'_toNat, Nat.shiftRight_eq_div_pow]

/-- R161's quotient over the denominator `2^ndecExp * k`, which is a natural number for every `ndecExp`. -/
theorem oversampling_quotient (d n k : Nat) :
    500 * (1 + 2 * (d : ℚ)) / ((2 : ℚ) ^ ((n : ℤ) - 3) * k) = ((4000 * (1 + 2 * d) : ℕ) : ℚ) / ((2 ^ n * k : ℕ) : ℚ) := by
  rw [zpow_sub₀ two_ne_zero, zpow_natCast]
  push_cast
  field_simp
  norm_num

theorem oversampling_denominator_pos (n k : Nat) (hk : 1 ≤ k) : 0 < 2 ^ n * k := Nat.mul_pos (Nat.two_pow_pos n) hk

theorem rxOversamplingOf_eq_floor (filt : Byte) (k : Nat) (hk : 1 ≤ k) :
    (rxOversamplingOf filt k : ℤ) =
      ⌊500 * (1 + 2 * (dwn3BypassOf filt : ℚ)) / ((2 : ℚ) ^ ((ndecExpOf filt : ℤ) - 3) * k) + 1 / 2⌋ := by
  rw [oversampling_quotient, rxOversamplingOf, roundDiv_eq_floor _ _ (oversampling_denominator_pos _ k hk)]

theorem ncOffsetOf_eq_ceil (filt : Byte) (k : Nat) :
    (ncOffsetOf filt k : ℤ) =
      ⌈(k : ℚ) * 2 ^ (ndecExpOf filt + 20) / (500 * (1 + 2 * (dwn3BypassOf filt : ℚ)))⌉ := by
  rw [ncOffsetOf, ceilDiv_eq_ceil _ _ (by omega)]
  push_cast
  rfl

theorem dataRateBurst_eq (b : BaudValues) :
    dataRateBurst b = [BitVec.ofNat 8 (b.dataRateReg / 256), BitVec.ofNat 8 (b.dataRateReg % 256)] := by
  rw [dataRateBurst, Nat.shiftRight_eq_div_pow, Nat.and_two_pow_sub_one_eq_mod b.dataRateReg 8]

/-- The calculation faults exactly when the oversampling is 0 (R164). -/
theorem baudEncode_eq_none_iff (table : IfTable) (k : Nat) :
    baudEncode table k = none ↔ rxOversamplingOf (filterOf table k) k = 0 := by
  simp [baudEncode, baudFaults, baudValues]

/-- Without a fault the four write lists are the four bursts (R166). -/
theorem baudEncode_of_ne_zero (table : IfTable) (k : Nat) (h : (baudValues table k).rxOversampling ≠ 0) :
    baudEncode table k = some [modulationBurst (baudValues table k), dataRateBurst (baudValues table k),
      [(baudValues table k).filt], timingBurst (baudValues table k)] := by
  simp [baudEncode, baudFaults, h]

/-- Settles O33: each field of `baudValues` is its rule's formula, and `baudEncode` makes the bursts of them. -/
theorem baudValuesAreExact : Obligations.BaudValuesAreExact := by
  intro table k hk1 hk256
  refine ⟨baudValues table k, rfl, rfl, rfl, fdRegOf_eq_floor k, fdRegOf_eq k, dataRateOf_eq_floor k,
    dataRateOf_lt k hk256, rfl, dwn3BypassOf_eq _, ndecExpOf_eq _, rxOversamplingOf_eq_floor _ k hk1,
    ncOffsetOf_eq_ceil _ k, fun hrx => ⟨rfl, ?_⟩⟩
  rw [baudEncode_of_ne_zero table k hrx, dataRateBurst_eq, modulationBurst]

/-- A rounded quotient is 0 exactly where the quotient is below one half. -/
theorem roundDiv_eq_zero_iff_lt_half (num den : Nat) (hden : 0 < den) :
    roundDiv num den = 0 ↔ (num : ℚ) / den < 1 / 2 := by
  have hden' : (0 : ℚ) < den := Nat.cast_pos.mpr hden
  rw [roundDiv_eq_zero num den hden, div_lt_div_iff₀ hden' two_pos, one_mul, mul_comm]
  norm_cast

/-- Settles O34: the calculation faults where a rounded quotient is 0, and R161's quotient is the one rounded. -/
theorem calcFaultIsBelowOneHalf : Obligations.CalcFaultIsBelowOneHalf := by
  intro table k hk _
  rw [baudEncode_eq_none_iff, rxOversamplingOf, roundDiv_eq_zero_iff_lt_half _ _ (oversampling_denominator_pos _ k hk),
    ← oversampling_quotient]
  rfl

/-! ### The timing burst (R165) -/

/-- The byte t1: three bits of rxOversampling above bit 4 and four of ncOffset below it. -/
theorem timing_t1_eq_add (rx nc : Nat) :
    (rx >>> 8 &&& 0x7) <<< 5 ||| (nc >>> 16 &&& 0xF) = 32 * (rx / 2 ^ 8 % 8) + nc / 2 ^ 16 % 16 := by
  have hnc : nc >>> 16 &&& 0xF = nc / 2 ^ 16 % 16 := by
    rw [Nat.and_two_pow_sub_one_eq_mod _ 4, Nat.shiftRight_eq_div_pow]
  have hrx : rx >>> 8 &&& 0x7 = rx / 2 ^ 8 % 8 := by
    rw [Nat.and_two_pow_sub_one_eq_mod _ 3, Nat.shiftRight_eq_div_pow]
  have hlt : nc / 2 ^ 16 % 16 < 2 ^ 5 := by omega
  rw [hnc, hrx, ← Nat.shiftLeft_add_eq_or_of_lt hlt, Nat.shiftLeft_eq, Nat.mul_comm]

/-- The byte t4: three bits of crGain, since crMultiplier is 0 (R163). -/
theorem timing_t4_eq (cr : Nat) : (cr >>> 8 &&& 0x7) ||| crMultiplier = cr / 2 ^ 8 % 8 := by
  rw [crMultiplier, Nat.or_zero, Nat.and_two_pow_sub_one_eq_mod _ 3, Nat.shiftRight_eq_div_pow]

/-- The timing burst with its bytes as sums of their fields. -/
theorem timingBurst_eq (b : BaudValues) :
    timingBurst b = [BitVec.ofNat 8 b.rxOversampling,
      BitVec.ofNat 8 (32 * (b.rxOversampling / 2 ^ 8 % 8) + b.ncOffset / 2 ^ 16 % 16),
      BitVec.ofNat 8 (b.ncOffset / 2 ^ 8), BitVec.ofNat 8 b.ncOffset,
      BitVec.ofNat 8 (b.crGain / 2 ^ 8 % 8), BitVec.ofNat 8 b.crGain] := by
  rw [timingBurst, timing_t1_eq_add, timing_t4_eq, Nat.shiftRight_eq_div_pow]

/-- Settles O35: read as sums of fields, the bytes give each field back modulo its width, and bit 4 of t1 lies between
its two fields. -/
theorem timingBurstPacksItsFields : Obligations.TimingBurstPacksItsFields := by
  intro b
  refine ⟨_, _, _, _, _, _, timingBurst_eq b, ?rx, ?nc, ?bit4, ?cr⟩
  case bit4 =>
    simp only [BitVec.getLsbD_ofNat, Nat.testBit_eq_decide_div_mod_eq, Bool.and_eq_false_imp, decide_eq_false_iff_not]
    omega
  all_goals
    simp only [BitVec.toNat_ofNat]
    omega

end Sys2Proof.Machine
end

section
/-! The setters with no calculation (42_configuration.md R140, R152, R153). -/

namespace Sys2Proof.Machine

/-- A command whose only operation is its end, in a move to the next wait. -/
theorem State.startCommand_only_finish (s : State) (code : ResultCode) (hs : s.grant = .toWait) :
    s.startCommand [.finish code] .idle = s.ended code :=
  s.startCommand_finish_toWait [] code hs

theorem execSetFrequency_of_not_inRange (s : State) (h : ¬ s.freqInRange) :
    execSetFrequency s = .next (s.startCommand [.finish .ignored] .idle) := by rw [execSetFrequency, if_neg h]

theorem execSetBaudRate_of_not_inRange (s : State) (h : ¬ s.baudInRange) :
    execSetBaudRate s = .next (s.startCommand [.finish .ignored] .idle) := by rw [execSetBaudRate, if_neg h]

/-- Settles O30: out of range each setter is its end alone. -/
theorem outOfRangeSettersAreIgnored : Obligations.OutOfRangeSettersAreIgnored := by
  intro s hs
  constructor
  · intro hrange
    have hout : ¬ s.freqInRange := by rw [s.freqInRange_iff]; omega
    calc exec .setFrequency s = .next (s.startCommand [.finish .ignored] .idle) := execSetFrequency_of_not_inRange s hout
      _ = .next (s.ended .ignored) := by rw [s.startCommand_only_finish .ignored hs]
  · intro hrange
    have hout : ¬ s.baudInRange := by rw [s.baudInRange_iff]; omega
    calc exec .setBaudRate s = .next (s.startCommand [.finish .ignored] .idle) := execSetBaudRate_of_not_inRange s hout
      _ = .next (s.ended .ignored) := by rw [s.startCommand_only_finish .ignored hs]

/-- The high byte of SET_SIGNATURE's operand is bits 15:8 of ARG0 (R95). -/
theorem State.opSignature_high (s : State) : s.opSignature.extractLsb' 8 8 = s.arg0.extractLsb' 8 8 := by
  rw [State.opSignature, BitVec.extractLsb'_extractLsb'_of_le (by decide)]

/-- The low byte of SET_SIGNATURE's operand is bits 7:0 of ARG0 (R95). -/
theorem State.opSignature_low (s : State) : s.opSignature.extractLsb' 0 8 = s.arg0.extractLsb' 0 8 := by
  rw [State.opSignature, BitVec.extractLsb'_extractLsb'_of_le (by decide)]

/-- A command that makes its writes, updates one register and ends, in a move to the next wait. -/
theorem State.startCommand_update_toWait (s : State) (ops : List Micro) (update : Micro) (code : ResultCode)
    (hs : s.grant = .toWait) :
    s.startCommand (ops ++ [update, .finish code]) .idle =
      ((s.atIdle.perform ops).wholeMicro update).finish code := by
  rw [List.append_cons, s.startCommand_finish_toWait _ code hs, State.perform_append]
  rfl

theorem exec_setSignature_toWait (s : State) (hs : s.grant = .toWait) :
    exec .setSignature s = .next (State.ended { s with
      sel := false
      cfgSignature := s.opSignature
      trace := s.trace ++ signatureTrace s.params s.opSignature } .ok) := by
  calc exec .setSignature s
      = .next (s.startCommand (writeSignature s.params s.opSignature ++
          [.setCfgSignature s.opSignature, .finish .ok]) .idle) := rfl
    _ = .next (((s.atIdle.perform (writeSignature s.params s.opSignature)).wholeMicro
          (.setCfgSignature s.opSignature)).finish .ok) := by rw [s.startCommand_update_toWait _ _ .ok hs]
    _ = _ := by
      rw [State.perform_writeSignature]
      rfl

theorem exec_setChannel_toWait (s : State) (hs : s.grant = .toWait) :
    exec .setChannel s = .next (State.ended { s with
      sel := false
      cfgChannel := s.opChannel
      trace := s.trace ++ writeTrace (regByte s.params.regs.channel) [s.opChannel] } .ok) := by
  calc exec .setChannel s
      = .next (s.startCommand (writeReg (regByte s.params.regs.channel) s.opChannel ++
          [.setCfgChannel s.opChannel, .finish .ok]) .idle) := rfl
    _ = .next (((s.atIdle.perform (writeReg (regByte s.params.regs.channel) s.opChannel)).wholeMicro
          (.setCfgChannel s.opChannel)).finish .ok) := by rw [s.startCommand_update_toWait _ _ .ok hs]
    _ = _ := by
      rw [State.perform_writeReg]
      rfl

/-- Settles O31: each command is its writes, the update of its register and its end; the two bytes of SIG are the low
two bytes of ARG0. -/
theorem setSignatureAndSetChannelComplete : Obligations.SetSignatureAndSetChannelComplete := by
  intro s hs
  constructor
  · rw [exec_setSignature_toWait s hs, signatureTrace, s.opSignature_high, s.opSignature_low, ← List.append_assoc]
    rfl
  · exact exec_setChannel_toWait s hs

end Sys2Proof.Machine
end

section
/-! The mode switch and the FIFO clears (43_mode_and_fifo.md R181, R185 to R187). -/

namespace Sys2Proof.Machine

/-- Settles O37: the command is SwitchMode (R180) on the mode of ARG0[3:0], then its end, which is OK whatever the
status answer was. -/
theorem switchModeCompletes : Obligations.SwitchModeCompletes := by
  intro s hs
  calc exec .switchMode s = .next (s.startCommand (switchMode s.params s.opMode ++ [.finish .ok]) .idle) := rfl
    _ = .next ((s.atIdle.perform (switchMode s.params s.opMode)).finish .ok) := by
      rw [s.startCommand_finish_toWait _ .ok hs]
    _ = .next (State.ended { s with
          sel := false
          modeValue := s.opMode
          modeValid := true
          busAnomaly := s.busAnomaly || isAnomaly (s.answerAt 0)
          rx := [s.answerAt 0]
          answers := s.answers.skip 1
          trace := s.trace ++ switchModeTrace s.params s.opMode (s.answerAt 0) } .ok) := by
      rw [s.atIdle.perform_switchMode s.params rfl]
      rfl
    _ = _ := by
      rw [s.opMode_eq, switchModeTrace, ← List.append_assoc]
      rfl

/-- A command that is one FIFO clear and its end, in a move to the next wait (R184). -/
theorem State.startCommand_clearWith_toWait (s : State) (pattern : Byte) (hs : s.grant = .toWait) :
    s.startCommand (clearWith s.params pattern ++ [.finish .ok]) .idle = State.ended { s with
      sel := false
      trace := s.trace ++ writeTrace (regByte s.params.regs.operationControl) [pattern] ++
        writeTrace (regByte s.params.regs.operationControl) [0x00] } .ok := by
  rw [s.startCommand_finish_toWait _ .ok hs, State.perform_clearWith, clearTrace, ← List.append_assoc]
  rfl

/-- Settles O38: the three commands are one clear with three patterns. -/
theorem fifoClearsComplete : Obligations.FifoClearsComplete := by
  intro s hs
  refine ⟨?tx, ?rx, ?both⟩
  case tx => exact congrArg Host.Outcome.next (s.startCommand_clearWith_toWait s.params.clrTx hs)
  case rx => exact congrArg Host.Outcome.next (s.startCommand_clearWith_toWait s.params.clrRx hs)
  case both => exact congrArg Host.Outcome.next (s.startCommand_clearWith_toWait (s.params.clrTx ||| s.params.clrRx) hs)

end Sys2Proof.Machine
end

section
/-! The receive commands with no wait (44_packet.md R205, R207, R208, R212 to R214): each goes from branch to branch
until the block that ends it. -/

namespace Sys2Proof.Machine

/-! ### Blocks of a move -/

/-- A command's first block in a move to the next wait. -/
theorem State.startCommand_toWait (s : State) (ops : List Micro) (l : Label) (hs : s.grant = .toWait) :
    s.startCommand ops l = ((s.atIdle.goOn [] l).perform ops).enter.runBlocks 15 :=
  calc s.startCommand ops l = (s.atIdle.goOn ops l).runBlocks blocksPerMove := State.run_toWait (s.atIdle.goOn ops l) hs
    _ = ((s.atIdle.goOn [] l).perform ops).enter.runBlocks 15 := s.atIdle.goOn_runBlocks ops l 15 rfl

/-- The block that ends a command ends its move. -/
theorem State.goOn_finish_runBlocks (s : State) (ops : List Micro) (code : ResultCode) (n : Nat) (hw : s.wait = 0) :
    (s.goOn (ops ++ [.finish code]) .idle).runBlocks (n + 1) = ((s.goOn [] .idle).perform ops).finish code := by
  have htodo : (((s.goOn [] .idle).perform ops).finish code).todo = [] := (s.goOn [] .idle).perform_todo ops
  calc (s.goOn (ops ++ [.finish code]) .idle).runBlocks (n + 1)
      = ((s.goOn [] .idle).perform (ops ++ [.finish code])).enter.runBlocks n := s.goOn_runBlocks _ .idle n hw
    _ = (((s.goOn [] .idle).perform ops).finish code).enter.runBlocks n := by rw [State.perform_append]; rfl
    _ = (((s.goOn [] .idle).perform ops).finish code).runBlocks n := by rw [State.enter_finish]
    _ = ((s.goOn [] .idle).perform ops).finish code := State.runBlocks_idle _ n htodo rfl

/-! ### START_LISTENING (R205, R212) -/

theorem exec_startListening_toWait (s : State) (hs : s.grant = .toWait) :
    exec .startListening s = .next ((s.atIdle.perform (listen s.params .listening)).finish .ok) :=
  congrArg Host.Outcome.next (s.startCommand_finish_toWait _ .ok hs)

/-- Settles O45: the command is StartListening (R205) and its end. -/
theorem startListeningCompletes : Obligations.StartListeningCompletes := by
  intro s hs
  rw [exec_startListening_toWait s hs, s.atIdle.perform_listen s.params rfl]
  simp only [listenTrace, enableTrace, statusTrace, List.append_assoc]
  rfl

/-! ### GET_PACKET_RECEIVED (R208, R214) -/

/-- GetPacket after the length read, up to the return (R208). -/
theorem State.perform_fetch (s : State) (p : Params) (hp : s.params = p) (n : Nat) :
    s.perform (readBurst p (regByte p.regs.fifo) n ++ clearRx p ++ [.storeRx]) =
      { s with sel := false
               databuf := bufWrite s.databuf 0 (s.answersFor n)
               rxlen := BitVec.ofNat 9 n
               rx := s.answersFor n
               answers := s.answers.skip n
               trace := s.trace ++ (readTrace p (regByte p.regs.fifo) (s.answersFor n) ++ clearTrace p p.clrRx) } := by
  simp [State.perform_readBurst, hp, clearRx, State.perform_clearWith, State.wholeMicro, State.micro]

/-- GetPacket's branch in GET_PACKET_RECEIVED, with the bytes the length read asked for (R208, R214). -/
theorem State.atFetch_runBlocks (s : State) (n : Nat) (hw : s.wait = 0) :
    (s.atFetch false).runBlocks (n + 1) = State.ended { s with
      sel := false
      databuf := bufWrite s.databuf 0 (s.answersFor s.received.toNat)
      rxlen := BitVec.ofNat 9 s.received.toNat
      rx := s.answersFor s.received.toNat
      answers := s.answers.skip s.received.toNat
      trace := s.trace ++ (readTrace s.params (regByte s.params.regs.fifo) (s.answersFor s.received.toNat) ++
        clearTrace s.params s.params.clrRx) } .ok := by
  rw [State.atFetch, if_neg Bool.false_ne_true, s.goOn_finish_runBlocks _ .ok n hw,
    (s.goOn [] .idle).perform_fetch s.params rfl, State.ended, ← hw]
  rfl

/-- The answers after one byte is read are the answers from 1 on. -/
theorem State.answersFor_skip_one (s t : State) (n : Nat) (ht : t.answers = s.answers.skip 1) :
    t.answersFor n = (List.range n).map (fun k => s.answerAt (1 + k)) := by
  simp only [State.answersFor_eq, ht, Tape.skip_skip, State.answerAt]

/-- `s` after GetPacket's length read (R208). -/
def State.lengthRead (s : State) : State :=
  { s with
    sel := false
    rx := [s.answerAt 0]
    answers := s.answers.skip 1
    trace := s.trace ++ readTrace s.params (regByte s.params.regs.rxLen) [s.answerAt 0] }

/-- GET_PACKET_RECEIVED comes to GetPacket's branch with the length read. -/
theorem exec_getPacketReceived_toWait (s : State) (hs : s.grant = .toWait) :
    exec .getPacketReceived s =
      .next (((s.atIdle.goOn [] (.fetch false)).lengthRead.atFetch false).runBlocks 15) :=
  calc exec .getPacketReceived s
      = .next (s.startCommand (readReg s.params (regByte s.params.regs.rxLen)) (.fetch false)) := rfl
    _ = .next (((s.atIdle.goOn [] (.fetch false)).lengthRead.atFetch false).runBlocks 15) := by
      rw [s.startCommand_toWait _ _ hs, (s.atIdle.goOn [] (.fetch false)).perform_readReg s.params rfl]
      rfl

/-- Settles O47: the length read, then GetPacket's branch with the answer as its length. -/
theorem getPacketReceivedCompletes : Obligations.GetPacketReceivedCompletes := by
  intro s hs n bytes
  have hn : (s.atIdle.goOn [] (.fetch false)).lengthRead.received.toNat = n := rfl
  have hbytes : (s.atIdle.goOn [] (.fetch false)).lengthRead.answersFor n = bytes := s.answersFor_skip_one _ n rfl
  have hskip : (s.atIdle.goOn [] (.fetch false)).lengthRead.answers.skip n = s.answers.skip (1 + n) :=
    s.answers.skip_skip 1 n
  rw [exec_getPacketReceived_toWait s hs, State.atFetch_runBlocks _ 14 rfl, hn, hbytes, hskip, ← List.append_assoc]
  rfl

/-! ### IS_PACKET_RECEIVED (R207, R213) -/

theorem State.atRxStatus_once_valid (s : State) (h : s.s1 &&& s.params.maskPkvalid ≠ 0) :
    s.atRxStatus .once =
      s.goOn (switchMode s.params (modeByte [.ready, .tune]) ++ [.setFsm .idle, .finish .packet]) .idle := if_pos h

/-- The valid packet path (R207, R213). -/
theorem State.atRxStatus_valid_runBlocks (s : State) (n : Nat) (hw : s.wait = 0)
    (h : s.s1 &&& s.params.maskPkvalid ≠ 0) :
    (s.atRxStatus .once).runBlocks (n + 1) = State.ended { s with
      sel := false
      fsm := .idle
      modeValue := 0x03
      modeValid := true
      busAnomaly := s.busAnomaly || isAnomaly (s.answerAt 0)
      rx := [s.answerAt 0]
      answers := s.answers.skip 1
      trace := s.trace ++ switchModeTrace s.params 0x03 (s.answerAt 0) } .packet := by
  rw [s.atRxStatus_once_valid h, List.append_cons, s.goOn_finish_runBlocks _ .packet n hw, State.perform_append,
    (s.goOn [] .idle).perform_switchMode s.params rfl, State.ended, ← hw]
  rfl

/-- The CRC error's recovery (R207). -/
theorem State.perform_recovery (s : State) (p : Params) (hp : s.params = p) :
    s.perform (switchMode p (modeByte [.ready]) ++ clearRx p ++ switchMode p (modeByte [.receive, .ready])) =
      { s with sel := false
               modeValue := 0x05
               modeValid := true
               busAnomaly := s.busAnomaly || isAnomaly (s.answerAt 0) || isAnomaly (s.answerAt 1)
               rx := [s.answerAt 1]
               answers := s.answers.skip 2
               trace := s.trace ++ (switchModeTrace p 0x01 (s.answerAt 0) ++ clearTrace p p.clrRx ++
                 switchModeTrace p 0x05 (s.answerAt 1)) } := by
  have hready : modeByte [.ready] = 0x01 := rfl
  have hreceive : modeByte [.receive, .ready] = 0x05 := rfl
  simp [State.perform_switchMode, hp, clearRx, State.perform_clearWith, State.answerAt, hready, hreceive]

/-- The CRC error path (R207, R213). -/
theorem State.atRxStatus_crc_runBlocks (s : State) (n : Nat) (hw : s.wait = 0)
    (hvalid : s.s1 &&& s.params.maskPkvalid = 0) (hcrc : s.s1 &&& s.params.maskCrcerr ≠ 0) :
    (s.atRxStatus .once).runBlocks (n + 1) = State.ended { s with
      sel := false
      modeValue := 0x05
      modeValid := true
      busAnomaly := s.busAnomaly || isAnomaly (s.answerAt 0) || isAnomaly (s.answerAt 1)
      rx := [s.answerAt 1]
      answers := s.answers.skip 2
      trace := s.trace ++ (switchModeTrace s.params 0x01 (s.answerAt 0) ++ clearTrace s.params s.params.clrRx ++
        switchModeTrace s.params 0x05 (s.answerAt 1)) } .noPacket := by
  rw [s.atRxStatus_crc .once hvalid hcrc, State.notReceived, s.goOn_finish_runBlocks _ .noPacket n hw,
    (s.goOn [] .idle).perform_recovery s.params rfl, State.ended, ← hw]
  rfl

/-- A check that shows nothing, with no operation before its return (R207, R213). -/
theorem State.notReceived_once_runBlocks (s : State) (n : Nat) (hw : s.wait = 0) :
    (s.notReceived [] .once).runBlocks (n + 1) = s.ended .noPacket := by
  rw [State.notReceived, s.goOn_finish_runBlocks [] .noPacket n hw, State.ended, ← hw]
  rfl

/-- `s` after an asserted sample and the two status reads of a receive check (R207). -/
def State.checked (s : State) : State :=
  { s with
    levels := s.levels.advance
    sel := false
    s1 := s.answerAt 0
    rx := [s.answerAt 1]
    answers := s.answers.skip 2
    trace := s.trace ++ [.irq .low] ++ statusTrace s.params (s.answerAt 0) (s.answerAt 1) }

/-- An asserted sample leads through the status reads to the tests of the check. -/
theorem State.atRxSample_low_runBlocks (s : State) (who : Poller) (n : Nat) (hw : s.wait = 0) (h : s.nextLevel = .low) :
    (s.atRxSample who).runBlocks (n + 1) = ((s.checked.goOn [] (.rxStatus who)).atRxStatus who).runBlocks n := by
  rw [s.atRxSample_low who h, s.sampled.goOn_runBlocks _ _ n hw,
    (s.sampled.goOn [] (.rxStatus who)).perform_pollStatus s.params rfl, State.checked, ← h]
  rfl

/-- IS_PACKET_RECEIVED begins with the sample of the check. -/
theorem exec_isPacketReceived_toWait (s : State) (hs : s.grant = .toWait) :
    exec .isPacketReceived s = .next (((s.atIdle.goOn [] (.rxSample .once)).atRxSample .once).runBlocks 15) :=
  congrArg Host.Outcome.next (s.startCommand_toWait [] (.rxSample .once) hs)

theorem exec_isPacketReceived_high (s : State) (hs : s.grant = .toWait) (h : s.nextLevel = .high) :
    exec .isPacketReceived s = .next (s.sampled.ended .noPacket) := by
  rw [exec_isPacketReceived_toWait s hs, (s.atIdle.goOn [] (.rxSample .once)).atRxSample_high .once h,
    State.notReceived_once_runBlocks _ 14 rfl]
  rfl

theorem exec_isPacketReceived_low (s : State) (hs : s.grant = .toWait) (h : s.nextLevel = .low) :
    exec .isPacketReceived s =
      .next (((s.atIdle.checked.goOn [] (.rxStatus .once)).atRxStatus .once).runBlocks 14) := by
  rw [exec_isPacketReceived_toWait s hs, (s.atIdle.goOn [] (.rxSample .once)).atRxSample_low_runBlocks .once 14 rfl h]
  rfl

/-- Settles O46: the sample decides between the idle line and the status reads, and the kept status byte between the
three paths after them. -/
theorem isPacketReceivedCompletes : Obligations.IsPacketReceivedCompletes := by
  intro s hs sampled polled
  constructor
  · intro hhigh
    rw [exec_isPacketReceived_high s hs hhigh, State.sampled, hhigh]
  · intro hlow
    rw [exec_isPacketReceived_low s hs hlow]
    split_ifs with hvalid hcrc
    · rw [State.atRxStatus_valid_runBlocks _ 13 rfl hvalid]
      rfl
    · rw [State.atRxStatus_crc_runBlocks _ 13 rfl (not_not.mp hvalid) hcrc, ← List.append_assoc, ← List.append_assoc]
      rfl
    · rw [State.atRxStatus_nothing _ .once (not_not.mp hvalid) (not_not.mp hcrc),
        State.notReceived_once_runBlocks _ 13 rfl]
      rfl

end Sys2Proof.Machine
end

section
/-! BOOT (45_bootstrap.md R250, R256): two blocks, with the baud calculation between them. -/

namespace Sys2Proof.Machine

/-- Boot ends CALC_FAULT exactly when the calculator has no writes to give (R164, R256). -/
theorem bootResult_baudValues (table : IfTable) (k : Nat) :
    bootResult (baudValues table k) = if baudEncode table k = none then .calcFault else .ok := by
  cases hfault : baudFaults (baudValues table k) <;> simp [bootResult, baudEncode, hfault]

/-- `s` after Boot's first block: the table's writes, the frequency write and the calculation (R256). -/
def State.bootCalculated (s : State) : State :=
  { s with
    sel := false
    baud := baudValues s.params.ifTable s.cfgBaud.toNat
    trace := s.trace ++ (s.params.bootTable.flatMap (fun row => writeTrace (regByte row.1) [row.2]) ++
      writeTrace (regByte s.params.regs.freqband) (freqEncode s.cfgFreq.toNat)) }

theorem State.perform_bootSteps (s : State) : s.perform s.bootSteps = s.bootCalculated :=
  s.perform_bootFirst s.params rfl s.cfgFreq.toNat s.cfgBaud.toNat

/-- Boot's second block and the end of its command: the baud writes unless the calculation faulted, the channel, the
signature and {READY} (R256). -/
theorem State.atBootBaud_runBlocks (s : State) (n : Nat) (hw : s.wait = 0) :
    s.atBootBaud.runBlocks (n + 1) = State.ended { s with
      sel := false
      fsm := .idle
      modeValue := 0x01
      modeValid := true
      busAnomaly := s.busAnomaly || isAnomaly (s.answerAt 0)
      rx := [s.answerAt 0]
      answers := s.answers.skip 1
      trace := s.trace ++ ((if baudFaults s.baud then [] else baudTrace s.params s.baud) ++
        writeTrace (regByte s.params.regs.channel) [s.cfgChannel] ++ signatureTrace s.params s.cfgSignature ++
        switchModeTrace s.params (modeByte [.ready]) (s.answerAt 0)) } (bootResult s.baud) := by
  rw [State.atBootBaud, List.append_cons, s.goOn_finish_runBlocks _ _ n hw, State.perform_append,
    (s.goOn [] .idle).perform_bootRest s.params rfl, State.ended, ← hw]
  rfl

/-- The two blocks of Boot, from wherever a command comes to it (R250, R251, R253, R256). -/
theorem State.boot_runBlocks (s : State) (n : Nat) (hw : s.wait = 0) :
    (s.goOn s.bootSteps .bootBaud).runBlocks (n + 2) = State.ended { s with
      sel := false
      fsm := .idle
      baud := baudValues s.params.ifTable s.cfgBaud.toNat
      modeValue := 0x01
      modeValid := true
      busAnomaly := s.busAnomaly || isAnomaly (s.answerAt 0)
      rx := [s.answerAt 0]
      answers := s.answers.skip 1
      trace := s.trace ++ bootTrace s.params s.cfgFreq.toNat (baudValues s.params.ifTable s.cfgBaud.toNat)
        s.cfgChannel s.cfgSignature (s.answerAt 0) }
      (if baudEncode s.params.ifTable s.cfgBaud.toNat = none then .calcFault else .ok) := by
  calc (s.goOn s.bootSteps .bootBaud).runBlocks (n + 2)
      = ((s.goOn [] .bootBaud).perform (s.goOn [] .bootBaud).bootSteps).enter.runBlocks (n + 1) :=
        s.goOn_runBlocks s.bootSteps .bootBaud (n + 1) hw
    _ = (s.goOn [] .bootBaud).bootCalculated.atBootBaud.runBlocks (n + 1) := by
      rw [State.perform_bootSteps]
      rfl
    _ = _ := by
      rw [(s.goOn [] .bootBaud).bootCalculated.atBootBaud_runBlocks n hw, ← bootResult_baudValues]
      simp only [bootTrace, List.append_assoc, State.bootCalculated]
      rfl

/-- `s` with FSM RESETTING, as BOOT comes to Boot (R250). -/
def State.resetting (s : State) : State := { s.atIdle with fsm := .resetting }

theorem State.perform_setFsm_resetting (s : State) (l : Label) :
    (s.atIdle.goOn [] l).perform [.setFsm .resetting] = s.resetting.goOn [] l := rfl

/-- Settles O48: BOOT sets FSM RESETTING and is then Boot, whose end sets it IDLE. -/
theorem bootCompletes : Obligations.BootCompletes := by
  intro s hs b
  calc exec .boot s = .next (s.startCommand ([.setFsm .resetting] ++ s.bootSteps) .bootBaud) := rfl
    _ = .next (((s.resetting.goOn [] .bootBaud).perform s.bootSteps).enter.runBlocks 15) := by
      rw [s.startCommand_toWait _ _ hs, State.perform_append, State.perform_setFsm_resetting]
    _ = .next ((s.resetting.goOn s.resetting.bootSteps .bootBaud).runBlocks 16) := by
      rw [s.resetting.goOn_runBlocks _ .bootBaud 15 rfl]
      rfl
    _ = _ := congrArg Host.Outcome.next (s.resetting.boot_runBlocks 14 rfl)

end Sys2Proof.Machine
end

section
/-! Decode and encode (30_encoding.md R92, R98), and the invariant at every step (10_state.md R20). -/

namespace Sys2Proof.Machine

/-! ### Encoding -/

theorem decode_encode_command (i : Instr) (dummy : Byte) (hi : isCommand i = true) :
    decode (encode dummy i) = some i := by
  cases i with
  | busWrite addr sent => cases hi
  | busRead addr count => cases hi
  | _ => rfl

/-- The header of a write window keeps the seven bits of its address under bit 7. -/
theorem writeHeader_extractLsb (addr : ChipAddr) : (writeHeader (addr.setWidth 8)).extractLsb' 0 7 = addr := by
  revert addr; decide

theorem readHeader_extractLsb (addr : ChipAddr) : (readHeader (addr.setWidth 8)).extractLsb' 0 7 = addr := by
  revert addr; decide

theorem decodeFrame_writeHeader (addr : ChipAddr) (sent : List Byte) :
    decodeFrame (writeHeader (addr.setWidth 8)) sent = .busWrite addr sent := by
  rw [decodeFrame, if_pos (writeHeader_msb _), writeHeader_extractLsb]

theorem decodeFrame_readHeader (addr : ChipAddr) (sent : List Byte) :
    decodeFrame (readHeader (addr.setWidth 8)) sent = .busRead addr sent.length := by
  rw [decodeFrame, if_neg (by simp [readHeader_msb]), readHeader_extractLsb]

/-- Settles O1: a command's word is its row of the opcode map, and a frame's header gives back direction and address. -/
theorem decodeOfEncodeIsTheInstruction : Obligations.DecodeOfEncodeIsTheInstruction := by
  intro i dummy _
  cases i with
  | busWrite addr sent => exact congrArg some (decodeFrame_writeHeader addr sent)
  | busRead addr count =>
    calc decode (encode dummy (.busRead addr count))
        = some (decodeFrame (readHeader (addr.setWidth 8)) (List.replicate count dummy)) := rfl
      _ = some (.busRead addr count) := by rw [decodeFrame_readHeader, List.length_replicate]
  | _ => exact decode_encode_command _ dummy rfl

/-! ### The invariant -/

/-- Settles O53: after reset nothing is open, nothing runs and the configuration has its reset values. -/
theorem resetMeetsTheInvariant : Obligations.ResetMeetsTheInvariant := by
  unfold Obligations.ResetMeetsTheInvariant
  decide

theorem State.moved_inv (s : State) (hs : s.Inv) : s.moved.Inv :=
  State.inv_of_eq s _ hs rfl rfl rfl rfl rfl rfl rfl rfl rfl hs.2.2.2

theorem State.withGrant_inv (s : State) (hs : s.Inv) (g : Grant) : (s.withGrant g).Inv :=
  State.inv_of_eq s _ hs rfl rfl rfl rfl rfl rfl rfl rfl rfl hs.2.2.2

/-- Block reset leaves the registers of `State.reset`, which meet the invariant. -/
theorem State.blockReset_inv (s : State) : s.blockReset.Inv :=
  State.inv_of_eq State.reset _ resetMeetsTheInvariant rfl rfl rfl rfl rfl rfl rfl rfl rfl rfl

theorem isCommand_of_decodeOpcode (op : Nat) (i : Instr) (h : decodeOpcode op = some i) : isCommand i = true :=
  (by decide : ∀ row ∈ opcodeMap, isCommand row.2 = true) (op, i) ((decodeOpcode_eq_some_iff op i).mp h)

/-- A word never decodes to a bus frame. -/
theorem isCommand_of_decodeWord (w : Word) (i : Instr) (h : decodeWord w = some i) : isCommand i = true :=
  isCommand_of_decodeOpcode w.toNat i (by rw [← decodeWord_eq_decodeOpcode_toNat, h])

/-- Settles O54: whichever agent moves, its move keeps the invariant. -/
theorem everyStepKeepsTheInvariant : Obligations.EveryStepKeepsTheInvariant := by
  intro s t hs hstep
  have hm (g : Grant) : (s.moved.withGrant g).Inv := s.moved.withGrant_inv (s.moved_inv hs) g
  have running (g : Grant) (hw : s.wait = 0) (ht : s.todo = []) (hn : s.next = .decode) :
      (s.moved.withGrant g).Running := State.running_of_inv _ (hm g) ht hw (by simp [State.moved, hn])
  rcases step_cases s with ⟨-, h⟩ | ⟨-, h⟩ | ⟨a, -, h⟩ |
    ⟨g, -, ⟨-, h⟩ | ⟨header, sent, rest, -, ht, h⟩ | ⟨i, hw, ht, hn, hd, h⟩ | ⟨hw, ht, hn, -, h⟩ | ⟨-, h⟩⟩
  all_goals rw [h] at hstep
  next => -- a tick
    cases hstep
    exact s.moved.tickOnce_inv (s.moved_inv hs)
  next => -- block reset
    cases hstep
    exact s.moved.blockReset_inv
  next => -- a host access
    exact s.moved.hostMove_inv t (s.moved_inv hs) a hstep
  next => -- the controller, blocked
    cases hstep
    exact hm g
  next => -- a frame is next
    exact exec_frame_inv (s.moved.withGrant g) (hm g) header sent rest ht t hstep
  next => -- the latched word is a command
    exact exec_inv i _ t (isCommand_of_decodeWord s.cmd i hd) (running g hw ht hn) hstep
  next => -- the latched word is illegal
    cases hstep
    exact State.startCommand_finish_inv _ [] _ .illegalCmd rfl (running g hw ht hn) rfl (by decide)
  next => -- the command goes on
    cases hstep
    exact State.run_inv _ (hm g)

end Sys2Proof.Machine
end

section
/-! Reading a trace back (30_encoding.md R98, R99), and words written out from the encoding tables. -/

namespace Sys2Proof.Machine

theorem transactionsFrom_sent (d sent answers : List Byte) (rest : List BusEvent) :
    transactionsFrom sent answers (d.map BusEvent.sent ++ rest) = transactionsFrom (sent ++ d) answers rest := by
  induction d generalizing sent with
  | nil => simp
  | cons b d ih =>
    calc transactionsFrom sent answers ((b :: d).map BusEvent.sent ++ rest)
        = transactionsFrom (sent ++ [b]) answers (d.map BusEvent.sent ++ rest) := rfl
      _ = transactionsFrom (sent ++ b :: d) answers rest := by rw [ih, List.append_cons sent b d]

theorem transactionsFrom_exchanged (dummy : Byte) (r sent answers : List Byte) (rest : List BusEvent) :
    transactionsFrom sent answers (r.map (BusEvent.exchanged dummy) ++ rest) =
      transactionsFrom (sent ++ List.replicate r.length dummy) (answers ++ r) rest := by
  induction r generalizing sent answers with
  | nil => simp
  | cons b r ih =>
    calc transactionsFrom sent answers ((b :: r).map (BusEvent.exchanged dummy) ++ rest)
        = transactionsFrom (sent ++ [dummy]) (answers ++ [b]) (r.map (BusEvent.exchanged dummy) ++ rest) := rfl
      _ = transactionsFrom (sent ++ List.replicate (r.length + 1) dummy) (answers ++ b :: r) rest := by
        rw [ih, List.append_assoc, List.append_assoc]
        rfl

theorem windowEvent_writeHeader (a : Byte) (d answers : List Byte) :
    windowEvent (writeHeader a :: d) answers = [.write (a.extractLsb' 0 7) d] := by
  have haddr : (writeHeader a).extractLsb' 0 7 = a.extractLsb' 0 7 := by revert a; decide
  simp only [windowEvent, writeHeader_msb, if_true, haddr]

theorem windowEvent_readHeader (a : Byte) (d answers : List Byte) :
    windowEvent (readHeader a :: d) answers = [.read (a.extractLsb' 0 7) answers] := by
  have haddr : (readHeader a).extractLsb' 0 7 = a.extractLsb' 0 7 := by revert a; decide
  simp only [windowEvent, readHeader_msb, Bool.false_eq_true, if_false, haddr]

theorem transactions_writeTrace (a : Byte) (d : List Byte) (rest : List BusEvent) :
    transactions (writeTrace a d ++ rest) = .write (a.extractLsb' 0 7) d :: transactions rest :=
  calc transactions (writeTrace a d ++ rest)
      = transactionsFrom [writeHeader a] [] ((d.map BusEvent.sent ++ [.select false]) ++ rest) := rfl
    _ = windowEvent (writeHeader a :: d) [] ++ transactions rest := by
      rw [List.append_assoc, transactionsFrom_sent]
      rfl
    _ = .write (a.extractLsb' 0 7) d :: transactions rest := by rw [windowEvent_writeHeader]; rfl

theorem transactions_readTrace (p : Params) (a : Byte) (answers : List Byte) (rest : List BusEvent) :
    transactions (readTrace p a answers ++ rest) = .read (a.extractLsb' 0 7) answers :: transactions rest :=
  calc transactions (readTrace p a answers ++ rest)
      = transactionsFrom [readHeader a] [] ((answers.map (BusEvent.exchanged p.readDummy) ++ [.select false]) ++ rest) :=
        rfl
    _ = windowEvent (readHeader a :: List.replicate answers.length p.readDummy) answers ++ transactions rest := by
      rw [List.append_assoc, transactionsFrom_exchanged]
      rfl
    _ = .read (a.extractLsb' 0 7) answers :: transactions rest := by rw [windowEvent_readHeader]; rfl

/-- Settles O4: the bytes of a window gather until chip-select goes inactive, and then its header decides. -/
theorem windowsReadBack : Obligations.WindowsReadBack := fun p a d answers rest =>
  ⟨transactions_writeTrace a d rest, transactions_readTrace p a answers rest⟩

/-- Settles O3: each written-out word is evaluated. -/
theorem writtenOutWordsDecode : Obligations.WrittenOutWordsDecode := by
  unfold Obligations.WrittenOutWordsDecode
  decide

end Sys2Proof.Machine
end

section
/-! One step, by what stands next: the decode of a latched word, a frame, a tick, a block reset (10_state.md R20). -/

namespace Sys2Proof.Machine

theorem step_decode_some (s : State) (g : Grant) (i : Instr) (h : s.nextEvent = .controller g) (hw : s.wait = 0)
    (ht : s.todo = []) (hn : s.next = .decode) (hd : decodeWord s.cmd = some i) :
    step s = exec i { s.moved with grant := g } := by
  rw [step_decode s g h hw ht hn, hd]

/-- Settles O5: with a word latched the controller's move is its decode. -/
theorem stepRunsTheLatchedCommand : Obligations.StepRunsTheLatchedCommand := step_decode_some

/-- Settles O6: a window of a header and further bytes decodes by its header, as the controller's move does. -/
theorem stepRunsTheNextFrame : Obligations.StepRunsTheNextFrame := by
  intro s g header sent rest i hevent hw ht hdecode
  have hi : decodeFrame header sent = i := Option.some.inj hdecode
  rw [step_frame s g header sent rest hevent hw ht, hi]

/-- Settles O7: the command that runs for an illegal word is its end alone. -/
theorem illegalWordEndsAtOnce : Obligations.IllegalWordEndsAtOnce := by
  intro s hevent hw ht hn hd
  rw [step_decode s .toWait hevent hw ht hn, hd]
  exact congrArg Host.Outcome.next (State.startCommand_only_finish _ .illegalCmd rfl)

/-- Settles O8: the step is one increment of the counter, of a 32-bit word. -/
theorem tickIncrementsTheCounter : Obligations.TickIncrementsTheCounter := by
  intro s hevent
  exact ⟨s.moved.tickOnce, step_tick s hevent, BitVec.toNat_add s.tick 1, rfl, rfl⟩

/-- Settles O10: each register of the reset state is evaluated. -/
theorem resetReadsAsTheTable : Obligations.ResetReadsAsTheTable := by
  unfold Obligations.ResetReadsAsTheTable
  decide

/-- STATUS is made of the flags and FSM alone. -/
theorem State.statusWord_blockReset (s : State) : s.blockReset.statusWord = 0x00000400 :=
  (by decide : State.reset.statusWord = 0x00000400)

/-- Settles O9: the step is `State.blockReset`, whose registers are those of `State.reset`. -/
theorem blockResetRestoresEverything : Obligations.BlockResetRestoresEverything := by
  intro s hevent
  refine ⟨s.moved.blockReset, step_blockReset s hevent, rfl, rfl, rfl, rfl, rfl, s.moved.statusWord_blockReset, ?_, rfl,
    rfl, rfl, rfl, rfl, ?_, rfl, fun _ => rfl, rfl, rfl, rfl, rfl, rfl, rfl, rfl⟩
  · show resultWord State.reset.data State.reset.code = 0
    decide
  · show State.reset.lastModeWord = 0
    decide

end Sys2Proof.Machine
end

section
/-! The fields of STATUS (10_state.md R25, R37). -/

namespace Sys2Proof.Machine

theorem flagAt_getLsbD (b : Bool) (position i : Nat) (hi : i < 32) :
    (flagAt b position).getLsbD i = (decide (i = position) && b) := by
  rcases Nat.lt_trichotomy i position with h | rfl | h
  · simp [flagAt, h, h.ne]
  · simp [flagAt, hi]
  · have hp : ¬ i < position := by omega
    have hne : i - position ≠ 0 := by omega
    simp [flagAt, hp, hne, h.ne']

/-- Bit `i` of STATUS: a flag's place, or a bit of FSM, or reserved (R25). -/
theorem State.statusWord_getLsbD (s : State) (i : Nat) (hi : i < 32) :
    s.statusWord.getLsbD i = (decide (i = 0) && s.busy || decide (4 ≤ i) && s.fsm.toBits.getLsbD (i - 4) ||
      decide (i = 8) && s.busAnomaly || decide (i = 9) && s.cmdOverrun || decide (i = 10) && s.sdn ||
      decide (i = 11) && s.sel) := by
  have hfsm : (s.fsm.toBits.setWidth 32 <<< 4).getLsbD i = (decide (4 ≤ i) && s.fsm.toBits.getLsbD (i - 4)) := by
    have hi4 : i - 4 < 32 := by omega
    rw [BitVec.getLsbD_shiftLeft, BitVec.getLsbD_setWidth, decide_eq_true hi, decide_eq_true hi4, Bool.true_and,
      Bool.true_and, ← decide_not, decide_eq_decide.mpr Nat.not_lt]
  simp only [State.statusWord, BitVec.getLsbD_or, flagAt_getLsbD _ _ i hi, hfsm]

theorem State.statusWord_fsm (s : State) : s.statusWord.extractLsb' 4 3 = s.fsm.toBits := by
  apply BitVec.eq_of_getLsbD_eq
  intro i hi
  have hflags : 4 + i ≠ 0 ∧ 4 + i ≠ 8 ∧ 4 + i ≠ 9 ∧ 4 + i ≠ 10 ∧ 4 + i ≠ 11 := by omega
  obtain ⟨h0, h8, h9, h10, h11⟩ := hflags
  rw [BitVec.getLsbD_extractLsb', s.statusWord_getLsbD (4 + i) (by omega)]
  simp only [hi, h0, h8, h9, h10, h11, Nat.le_add_right, Nat.add_sub_cancel_left, decide_true, decide_false,
    Bool.true_and, Bool.false_and, Bool.false_or, Bool.or_false]

/-- Bits 3:1, 7 and 31:12 of STATUS are no field's. -/
theorem State.statusWord_reservedBit (s : State) (i : Nat) (hi : i < 32)
    (hres : (1 ≤ i ∧ i ≤ 3) ∨ i = 7 ∨ 12 ≤ i) : s.statusWord.getLsbD i = false := by
  have hflags : i ≠ 0 ∧ i ≠ 8 ∧ i ≠ 9 ∧ i ≠ 10 ∧ i ≠ 11 := by omega
  obtain ⟨h0, h8, h9, h10, h11⟩ := hflags
  have hfsm : (decide (4 ≤ i) && s.fsm.toBits.getLsbD (i - 4)) = false := by
    by_cases h : 4 ≤ i
    · rw [BitVec.getLsbD_of_ge s.fsm.toBits (i - 4) (by omega), Bool.and_false]
    · rw [decide_eq_false h, Bool.false_and]
  rw [s.statusWord_getLsbD i hi, hfsm]
  simp only [h0, h8, h9, h10, h11, decide_false, Bool.false_and, Bool.false_or]

/-- A field of STATUS made of reserved bits reads 0. -/
theorem State.statusWord_reservedField (s : State) (start len : Nat)
    (h : ∀ i < len, s.statusWord.getLsbD (start + i) = false) : s.statusWord.extractLsb' start len = 0 := by
  apply BitVec.eq_of_getLsbD_eq
  intro i hi
  rw [BitVec.getLsbD_extractLsb', h i hi]
  simp

/-- A flag's bit above FSM. -/
theorem State.statusWord_flagBit (s : State) (i : Nat) (hi : i < 12) (h7 : 7 ≤ i) : s.statusWord.getLsbD i =
    (decide (i = 8) && s.busAnomaly || decide (i = 9) && s.cmdOverrun || decide (i = 10) && s.sdn ||
      decide (i = 11) && s.sel) := by
  have h0 : i ≠ 0 := by omega
  rw [s.statusWord_getLsbD i (by omega), BitVec.getLsbD_of_ge s.fsm.toBits (i - 4) (by omega), Bool.and_false,
    decide_eq_false h0, Bool.false_and, Bool.false_or, Bool.false_or]

/-- Settles O15: each bit of the word is the flag or the bit of FSM at its place, or is no field's. -/
theorem statusWordHasItsFields : Obligations.StatusWordHasItsFields := by
  intro s
  refine ⟨?busy, ?fsm, ?anomaly, ?overrun, ?sdn, ?sel, ?low, s.statusWord_reservedBit 7 (by decide) (by decide), ?high⟩
  case busy => rw [s.statusWord_getLsbD 0 (by decide)]; simp
  case fsm =>
    rw [s.statusWord_fsm]
    cases s.fsm <;> rfl
  case anomaly => rw [s.statusWord_flagBit 8 (by decide) (by decide)]; simp
  case overrun => rw [s.statusWord_flagBit 9 (by decide) (by decide)]; simp
  case sdn => rw [s.statusWord_flagBit 10 (by decide) (by decide)]; simp
  case sel => rw [s.statusWord_flagBit 11 (by decide) (by decide)]; simp
  case low => exact s.statusWord_reservedField 1 3 fun i hi => s.statusWord_reservedBit _ (by omega) (by omega)
  case high => exact s.statusWord_reservedField 12 20 fun i hi => s.statusWord_reservedBit _ (by omega) (by omega)

end Sys2Proof.Machine
end

section
/-! The host's accesses (10_state.md R21 to R36, 20_memory.md R60 to R65, R71). -/

namespace Sys2Proof.Machine

/-! ### Which access is which -/

/-- An aligned store in the aperture. -/
theorem step_store (s : State) (offset : Nat) (w : Word) (h : offset < 0x200) (h4 : offset % 4 = 0)
    (hevent : s.nextEvent = .host (.store (s.params.base + offset) 4 w)) :
    step s = .next (s.moved.hostStore offset w) :=
  (step_host s _ hevent).trans (s.moved.hostMove_store offset w h h4)

/-- An aligned load in the aperture. -/
theorem step_load (s : State) (offset : Nat) (h : offset < 0x200) (h4 : offset % 4 = 0)
    (hevent : s.nextEvent = .host (.load (s.params.base + offset) 4)) :
    step s = .next (s.moved.hostLoad offset) :=
  (step_host s _ hevent).trans (s.moved.hostMove_load offset h h4)

/-- An access that begins in the aperture reaches the block. -/
theorem reachesAperture_of_lt (p : Params) (offset size : Nat) (h : offset < 0x200) (hsize : 0 < size) :
    reachesAperture p (p.base + offset) size = true := (reachesAperture_iff ..).mpr (by omega)

/-- An access that begins above the aperture does not. -/
theorem not_reachesAperture_of_le (p : Params) (offset size : Nat) (h : 0x200 ≤ offset) :
    ¬ reachesAperture p (p.base + offset) size = true := by
  rw [reachesAperture_iff]; omega

theorem not_accessibleAt_of_form (p : Params) (offset size : Nat) (h : size ≠ 4 ∨ offset % 4 ≠ 0) :
    ¬ accessibleAt p (p.base + offset) size = true := by
  rw [accessibleAt_iff]; omega

/-- Settles O18: such an access reaches the block and is not accessible there. -/
theorem otherAccessFormsAreRefused : Obligations.OtherAccessFormsAreRefused := by
  intro s offset size w hlt hsize hform
  have hreach := reachesAperture_of_lt s.params offset size hlt hsize
  have hacc := not_accessibleAt_of_form s.params offset size hform
  constructor
  · intro hevent
    exact (step_host s _ hevent).trans ((if_pos hreach).trans (if_neg hacc))
  · intro hevent
    exact (step_host s _ hevent).trans ((if_pos hreach).trans (if_neg hacc))

/-- Settles O19: such an access does not reach the block. -/
theorem outsideAccessDoesNotReach : Obligations.OutsideAccessDoesNotReach := by
  intro s offset size w hle
  have hout := not_reachesAperture_of_le s.params offset size hle
  constructor
  · intro hevent
    exact (step_host s _ hevent).trans (if_neg hout)
  · intro hevent
    exact ⟨_, (step_host s _ hevent).trans (if_neg hout), rfl⟩

/-! ### Stores -/

/-- Settles O11: with BUSY = 0 the guard lets each store through. -/
theorem idleStoresLatchTheWord : Obligations.IdleStoresLatchTheWord := by
  intro s w hb
  refine ⟨fun hevent => ?cmd, fun hevent => ?arg0, fun hevent => ?arg1⟩
  case cmd =>
    rw [step_store s 0 w (by decide) rfl hevent]
    exact congrArg Host.Outcome.next (s.moved.guarded_of_idle (s.moved.issue w) hb)
  case arg0 =>
    rw [step_store s 4 w (by decide) rfl hevent]
    exact congrArg Host.Outcome.next (s.moved.guarded_of_idle { s.moved with arg0 := w } hb)
  case arg1 =>
    rw [step_store s 8 w (by decide) rfl hevent]
    exact congrArg Host.Outcome.next (s.moved.guarded_of_idle { s.moved with arg1 := w } hb)

/-- Settles O14: a store to STATUS is `State.clearFlags`, and from 0x10 to 0xFF a store changes nothing. -/
theorem statusAndReadOnlyStores : Obligations.StatusAndReadOnlyStores := by
  intro s w
  refine ⟨step_store s 0xC w (by decide) rfl, fun offset hlo hhi h4 hevent => ?_⟩
  rw [step_store s offset w (by omega) h4 hevent, s.moved.hostStore_readOnly offset w hlo hhi]

/-! ### Loads -/

theorem State.hostReadsResult_of_idle (s : State) (w mask : Word) (hb : s.busy = false) :
    s.hostReadsResult w mask = s.hostReads w := by
  rw [State.hostReadsResult, if_neg (by simp [hb])]

theorem State.hostReadsResult_of_busy (s : State) (w mask : Word) (hb : s.busy = true) :
    s.hostReadsResult w mask = s.hostReadsOpen mask 0 := if_pos hb

theorem State.hostReadsBuf_of_idle (s : State) (i : Nat) (hb : s.busy = false) :
    s.hostReadsBuf i = (s.bufRead i 4).2.hostReads (wordOfBytes (s.bufRead i 4).1) := by
  rw [State.hostReadsBuf, if_neg (by simp [hb])]

theorem State.hostReadsBuf_of_busy (s : State) (i : Nat) (hb : s.busy = true) :
    s.hostReadsBuf i = s.hostReadsOpen 0xFFFFFFFF 0 := if_pos hb

theorem State.hostLoad_result_of_idle (s : State) (hb : s.busy = false) :
    s.hostLoad 0x10 = s.hostReads (resultWord s.data s.code) := if_neg (by simp [hb])

theorem State.hostLoad_result_of_busy (s : State) (hb : s.busy = true) :
    s.hostLoad 0x10 = s.hostReadsOpen 0xFF00 (resultWord 0 s.code) := if_pos hb

/-- The registers at their offsets as an idle load reads them (R21). -/
def State.idleRegisters (s : State) : List (Nat × Word) :=
  [(0x000, s.cmd), (0x004, s.arg0), (0x008, s.arg1), (0x00C, s.statusWord), (0x010, resultWord s.data s.code),
    (0x014, s.rxlen.setWidth 32), (0x018, s.cfgFreq), (0x01C, s.cfgBaud), (0x020, s.cfgChannel.setWidth 32),
    (0x024, s.cfgSignature.setWidth 32), (0x028, s.lastModeWord), (0x02C, s.tick)]

theorem State.idleRegisters_aligned (s : State) : ∀ row ∈ s.idleRegisters, row.1 < 0x200 ∧ row.1 % 4 = 0 := by
  simp [State.idleRegisters]

theorem State.hostLoad_of_mem_idleRegisters (s : State) (hb : s.busy = false) :
    ∀ row ∈ s.idleRegisters, s.hostLoad row.1 = s.hostReads row.2 := by
  simp only [State.idleRegisters, List.forall_mem_cons, List.not_mem_nil, false_implies, implies_true, and_true]
  have result := fun w mask => s.hostReadsResult_of_idle w mask hb
  exact ⟨rfl, rfl, rfl, rfl, s.hostLoad_result_of_idle hb, result _ _, result _ _, result _ _, result _ _, result _ _,
    result _ _, rfl⟩

/-- Settles O16: the offset is a register's, which reads its value, or a reserved one's, which reads 0. -/
theorem idleLoadsReturnTheRegisters : Obligations.IdleLoadsReturnTheRegisters := by
  intro s offset v hb code hoffset hevent
  have hcode : s.code.toByte.setWidth 32 = code := by
    cases h : s.code <;> simp [code, h, ResultCode.toByte]
  rcases hoffset with hreg | ⟨hlo, hhi, h4, rfl⟩
  · rw [← hcode] at hreg
    obtain ⟨hlt, h4⟩ := s.idleRegisters_aligned (offset, v) hreg
    exact (step_load s offset hlt h4 hevent).trans
      (congrArg Host.Outcome.next (s.moved.hostLoad_of_mem_idleRegisters hb (offset, v) hreg))
  · exact (step_load s offset (by omega) h4 hevent).trans
      (congrArg Host.Outcome.next (s.moved.hostLoad_reserved offset hlo hhi))

/-- The registers that read their values whatever BUSY is (R71). -/
def State.liveRegisters (s : State) : List (Nat × Word) :=
  [(0x000, s.cmd), (0x004, s.arg0), (0x008, s.arg1), (0x00C, s.statusWord), (0x02C, s.tick)]

theorem State.liveRegisters_aligned (s : State) : ∀ row ∈ s.liveRegisters, row.1 < 0x200 ∧ row.1 % 4 = 0 := by
  simp [State.liveRegisters]

theorem State.hostLoad_of_mem_liveRegisters (s : State) :
    ∀ row ∈ s.liveRegisters, s.hostLoad row.1 = s.hostReads row.2 := by
  simp only [State.liveRegisters, List.forall_mem_cons, List.not_mem_nil, false_implies, implies_true, and_true]
  exact ⟨rfl, rfl, rfl, rfl, rfl⟩

/-- While a command runs, a load of a register that its end writes is an open read (R71). -/
theorem State.hostLoad_open_of_busy (s : State) (offset : Nat) (hb : s.busy = true)
    (h : offset ∈ [0x014, 0x018, 0x01C, 0x020, 0x024, 0x028] ∨ 0x100 ≤ offset) :
    ∃ mask, s.hostLoad offset = s.hostReadsOpen mask 0 := by
  have result := fun w mask => s.hostReadsResult_of_busy w mask hb
  rcases h with hreg | hbuf
  · simp only [List.mem_cons, List.not_mem_nil, or_false] at hreg
    rcases hreg with rfl | rfl | rfl | rfl | rfl | rfl <;> exact ⟨_, result _ _⟩
  · exact ⟨_, (s.hostLoad_buffer offset hbuf).trans (s.hostReadsBuf_of_busy _ hb)⟩

/-- RESULT while a command runs: only DATA is open, CODE and the reserved bits are those of the fixed word (log 6). -/
theorem open_resultWord_fields (w : Word) (code : ResultCode) :
    (w &&& 0xFF00 ||| resultWord 0 code).extractLsb' 0 8 = code.toByte ∧
      (w &&& 0xFF00 ||| resultWord 0 code).extractLsb' 16 16 = 0 := by
  have hmask0 : (0xFF00 : Word).extractLsb' 0 8 = 0#8 := by decide
  have hmask16 : (0xFF00 : Word).extractLsb' 16 16 = 0#16 := by decide
  have hfixed : (resultWord 0 code).extractLsb' 0 8 = code.toByte ∧ (resultWord 0 code).extractLsb' 16 16 = 0 := by
    cases code <;> decide
  rw [BitVec.extractLsb'_or, BitVec.extractLsb'_or, BitVec.extractLsb'_and, BitVec.extractLsb'_and, hmask0, hmask16,
    BitVec.and_zero, BitVec.and_zero, BitVec.zero_or, BitVec.zero_or]
  exact hfixed

/-- Settles O17: three kinds of offset: live or reserved, RESULT, and the registers a command's end writes. -/
theorem busyLoadsOfLiveRegisters : Obligations.BusyLoadsOfLiveRegisters := by
  intro s offset v hb
  refine ⟨fun hoffset hevent => ?live, fun hevent => ?result, fun hoffset hevent => ?opened⟩
  case live =>
    rcases hoffset with hreg | ⟨hlo, hhi, h4, rfl⟩
    · obtain ⟨hlt, h4⟩ := s.liveRegisters_aligned (offset, v) hreg
      exact (step_load s offset hlt h4 hevent).trans
        (congrArg Host.Outcome.next (s.moved.hostLoad_of_mem_liveRegisters (offset, v) hreg))
    · exact (step_load s offset (by omega) h4 hevent).trans
        (congrArg Host.Outcome.next (s.moved.hostLoad_reserved offset hlo hhi))
  case result =>
    have hstep := step_load s 0x10 (by decide) rfl hevent
    rw [s.moved.hostLoad_result_of_busy hb] at hstep
    obtain ⟨hcode, hreserved⟩ := open_resultWord_fields s.moved.nextFresh s.code
    exact ⟨_, hstep, rfl, hcode, fun hpending => hcode.trans (congrArg ResultCode.toByte hpending), hreserved⟩
  case opened =>
    obtain ⟨mask, hload⟩ := s.moved.hostLoad_open_of_busy offset hb (hoffset.imp_right And.left)
    have haligned : offset < 0x200 ∧ offset % 4 = 0 := by
      simp only [List.mem_cons, List.not_mem_nil, or_false] at hoffset
      omega
    exact ⟨_, (step_load s offset haligned.1 haligned.2 hevent).trans (congrArg Host.Outcome.next hload), rfl⟩

/-! ### Reads of DATABUF -/

/-- What is read back from the bytes just written at index 0 is those bytes, and no draw is taken. -/
theorem State.bufRead_bufWrite (m : List Host.Cell) (d : List Byte) (s : State) (hd : d.length ≤ 256)
    (hs : s.databuf = bufWrite m 0 d) : s.bufRead 0 d.length = (d, s) := by
  refine s.bufRead_written 0 d fun k hk => ?_
  have hin : 0 ≤ 0 + k ∧ 0 + k < 0 + d.length := by omega
  rw [hs, bufGet_bufWrite m 0 (0 + k) d (by rw [Nat.zero_add]; exact hd), if_pos hin, Nat.zero_add, Nat.sub_zero]

theorem bufGet_bufWrite_above (m : List Host.Cell) (d : List Byte) (j : Nat) (hd : d.length ≤ 256)
    (hj : d.length ≤ j) : bufGet (bufWrite m 0 d) j = bufGet m j := by
  have hout : ¬ (0 ≤ j ∧ j < 0 + d.length) := by omega
  rw [bufGet_bufWrite m 0 j d (by rw [Nat.zero_add]; exact hd), if_neg hout]

/-- Lane `k` of the word of four listed bytes is byte `k`. -/
theorem wordOfBytes_range_lane (f : Nat → Byte) (k : Nat) (hk : k < 4) :
    (wordOfBytes ((List.range 4).map f)).extractLsb' (8 * k) 8 = f k := by
  have hlist : (List.range 4).map f = [f 0, f 1, f 2, f 3] := rfl
  rw [hlist, wordOfBytes_lane _ _ _ _ k hk]
  rcases (by omega : k = 0 ∨ k = 1 ∨ k = 2 ∨ k = 3) with rfl | rfl | rfl | rfl <;> rfl

/-- Settles O27: a read is `State.bufRead_eq`, and a host's load is the read of its four bytes. -/
theorem bufferReadsWhatWasWritten : Obligations.BufferReadsWhatWasWritten := by
  refine ⟨fun m d s hd hs => ⟨s.bufRead_bufWrite m d hd hs, fun j hj => bufGet_bufWrite_above m d j hd hj⟩, ?_⟩
  intro s i drawn byteAt
  refine ⟨fun n => s.bufRead_eq i n, fun halign hi hb hevent => ?_⟩
  have hread : s.moved.bufRead i 4 = ((List.range 4).map byteAt, { s.moved with fresh := s.fresh.skip (drawn 4) }) :=
    s.moved.bufRead_eq i 4
  have hload : s.moved.hostReadsBuf i = State.hostReads { s.moved with fresh := s.fresh.skip (drawn 4) }
      (wordOfBytes ((List.range 4).map byteAt)) := by rw [s.moved.hostReadsBuf_of_idle i hb, hread]
  refine ⟨_, (step_bufferLoad s i halign hi hevent).trans (congrArg Host.Outcome.next hload), rfl, fun k hk => ?_⟩
  exact wordOfBytes_range_lane byteAt k hk

end Sys2Proof.Machine
end

section
/-! The frames and the bursts (41_register_access.md R120, R121, R126, R127). -/

namespace Sys2Proof.Machine

theorem State.transact_toWait (s : State) (window : List Micro) (hs : s.grant = .toWait) :
    s.transact window = s.micros window := by
  simp only [State.transact, hs]

/-- Settles O20: the frame is `WriteBurst` alone, and its header has bit 7 set. -/
theorem busWriteMakesOneWindow : Obligations.BusWriteMakesOneWindow := by
  intro s addr sent hs
  calc exec (.busWrite addr sent) s = .next (s.transact (writeWindow (regByte addr) sent)) := rfl
    _ = .next { s with sel := false, trace := s.trace ++ writeTrace (regByte addr) sent } := by
      rw [s.transact_toWait _ hs, State.micros_writeWindow]
    _ = _ := by rw [writeTrace, writeHeader_eq]; rfl

/-- Settles O21: the frame is `ReadBurst` alone. -/
theorem busReadMakesOneWindow : Obligations.BusReadMakesOneWindow := by
  intro s addr count hs
  calc exec (.busRead addr count) s = .next (s.transact (readWindow s.params.readDummy (regByte addr) count)) := rfl
    _ = _ := by
      rw [s.transact_toWait _ hs, State.micros_readWindow]
      rfl

theorem State.not_badCount (s : State) (h : s.opCount ≤ 256) : ¬ s.badCount = true := by
  rw [s.badCount_iff]; omega

theorem execWriteBurst_of_count (s : State) (h : s.opCount ≤ 256) :
    execWriteBurst s = .next ((s.bufRead 0 s.opCount).2.startCommand
      (writeBurst s.opAddr (s.bufRead 0 s.opCount).1 ++ [.finish .ok]) .idle) := by
  rw [execWriteBurst, if_neg (s.not_badCount h)]

theorem execReadBurst_of_count (s : State) (h : s.opCount ≤ 256) :
    execReadBurst s =
      .next (s.startCommand (readBurst s.params s.opAddr s.opCount ++ [.storeRx, .finish .ok]) .idle) := by
  rw [execReadBurst, if_neg (s.not_badCount h)]

/-- Settles O24: the bytes are read, which moves the tape of open reads alone, and sent in one window. -/
theorem writeBurstCompletes : Obligations.WriteBurstCompletes := by
  intro s hs n hn
  have hcount : s.opCount ≤ 256 := hn
  obtain ⟨k, hread⟩ := s.bufRead_state 0 s.opCount
  show execWriteBurst s = .next (State.ended { s with
    sel := false
    fresh := (s.bufRead 0 s.opCount).2.fresh
    trace := s.trace ++ writeTrace s.opAddr (s.bufRead 0 s.opCount).1 } .ok)
  rw [execWriteBurst_of_count s hcount, hread, State.startCommand_finish_toWait _ _ .ok (by exact hs),
    State.perform_writeBurst]
  rfl

/-- Settles O25: the window's answers are stored in DATABUF, and the command ends. -/
theorem readBurstCompletes : Obligations.ReadBurstCompletes := by
  intro s hs n hn
  have hcount : s.opCount ≤ 256 := hn
  calc exec .readBurst s
      = .next (s.startCommand (readBurst s.params s.opAddr s.opCount ++ [Micro.storeRx, .finish .ok]) .idle) :=
        execReadBurst_of_count s hcount
    _ = .next (((s.atIdle.perform (readBurst s.params s.opAddr s.opCount)).wholeMicro .storeRx).finish .ok) := by
      rw [s.startCommand_update_toWait _ .storeRx .ok hs]
    _ = .next (State.ended { s with
          sel := false
          databuf := bufWrite s.databuf 0 (s.answersFor s.opCount)
          rxlen := BitVec.ofNat 9 (s.answersFor s.opCount).length
          rx := s.answersFor s.opCount
          answers := s.answers.skip s.opCount
          trace := s.trace ++ readTrace s.params s.opAddr (s.answersFor s.opCount) } .ok) := by
      rw [s.atIdle.perform_readBurst s.params rfl]
      rfl
    _ = _ := by
      rw [s.answersFor_length]
      rfl

/-- Settles O26: with a count above 256 both commands are their end alone. -/
theorem tooLongBurstsAreBadArg : Obligations.TooLongBurstsAreBadArg := by
  intro s hs hcount
  have hbad : s.badCount = true := s.badCount_iff.mpr hcount
  have hend : s.startCommand [.finish .badArg] .idle = s.ended .badArg := s.startCommand_only_finish .badArg hs
  constructor
  · show execWriteBurst s = _
    rw [execWriteBurst, if_pos hbad, hend]
  · show execReadBurst s = _
    rw [execReadBurst, if_pos hbad, hend]

end Sys2Proof.Machine
end

section
/-! The setters in range, and the IF-filter selection (42_configuration.md R150, R151, R166). -/

namespace Sys2Proof.Machine

/-- Settles O29: the command is one write window, the update of CFG_FREQ and its end. -/
theorem setFrequencyCompletes : Obligations.SetFrequencyCompletes := by
  intro s hs hlo hhi
  have hin : s.freqInRange = true := s.freqInRange_iff.mpr ⟨hlo, hhi⟩
  calc exec .setFrequency s
      = .next (s.startCommand (writeFrequency s.params s.opFreq ++ [.setCfgFreq s.arg0, .finish .ok]) .idle) := by
        rw [exec, execSetFrequency, if_pos hin]
    _ = .next (((s.atIdle.perform (writeFrequency s.params s.opFreq)).wholeMicro (.setCfgFreq s.arg0)).finish .ok) := by
        rw [s.startCommand_update_toWait _ _ .ok hs]
    _ = _ := by
        rw [writeFrequency, State.perform_writeBurst]
        rfl

/-- Settles O32: by induction on the table, whose first entry either reaches the request or is passed over. -/
theorem ifLookupPicksTheFirst : Obligations.IfLookupPicksTheFirst := by
  intro entries req
  induction entries with
  | nil => exact .inr ⟨by simp, rfl⟩
  | cons e rest ih =>
    obtain ⟨threshold, value⟩ := e
    by_cases h : req ≤ threshold
    · exact .inl ⟨[], threshold, value, rest, rfl, by simp, h, if_pos h⟩
    · have hskip : ifLookup ((threshold, value) :: rest) req = ifLookup rest req := if_neg h
      have hbelow : threshold < req := Nat.not_le.mp h
      rcases ih with ⟨before, th, v, after, rfl, hbefore, hth, hv⟩ | ⟨hall, hv⟩
      · exact .inl ⟨(threshold, value) :: before, th, v, after, rfl, List.forall_mem_cons.mpr ⟨hbelow, hbefore⟩, hth,
          hskip.trans hv⟩
      · exact .inr ⟨List.forall_mem_cons.mpr ⟨hbelow, hall⟩, hskip.trans hv⟩

/-! ### SET_BAUD_RATE (R166) -/

theorem baudEncode_of_faults (table : IfTable) (k : Nat) (h : baudFaults (baudValues table k) = true) :
    baudEncode table k = none := by simp only [baudEncode, h, if_true]

theorem baudEncode_of_not_faults (table : IfTable) (k : Nat) (h : baudFaults (baudValues table k) = false) :
    baudEncode table k = some [modulationBurst (baudValues table k), dataRateBurst (baudValues table k),
      [(baudValues table k).filt], timingBurst (baudValues table k)] := by
  simp only [baudEncode, h, Bool.false_eq_true, if_false]

/-- `s` after the calculation for its operand. -/
def State.baudCalculated (s : State) : State := { s with baud := baudValues s.params.ifTable s.opBaud }

/-- In range the command comes to the branch after its calculation. -/
theorem exec_setBaudRate_toWait (s : State) (hs : s.grant = .toWait) (hin : s.baudInRange = true) :
    exec .setBaudRate s = .next ((s.atIdle.goOn [] .baudDone).baudCalculated.atBaudDone.runBlocks 15) :=
  calc exec .setBaudRate s = .next (s.startCommand [.calculate s.opBaud] .baudDone) := by
        rw [exec, execSetBaudRate, if_pos hin]
    _ = _ := by
        rw [s.startCommand_toWait _ _ hs]
        rfl

theorem State.atBaudDone_fault_runBlocks (s : State) (n : Nat) (hw : s.wait = 0) (h : baudFaults s.baud = true) :
    s.atBaudDone.runBlocks (n + 1) = s.ended .calcFault := by
  have hend := s.goOn_finish_runBlocks [] .calcFault n hw
  rw [List.nil_append] at hend
  rw [State.atBaudDone, if_pos h, hend, State.ended, ← hw]
  rfl

theorem State.atBaudDone_ok_runBlocks (s : State) (n : Nat) (hw : s.wait = 0) (h : baudFaults s.baud = false) :
    s.atBaudDone.runBlocks (n + 1) = State.ended { s with
      sel := false, cfgBaud := s.arg0, trace := s.trace ++ baudTrace s.params s.baud } .ok := by
  rw [State.atBaudDone, if_neg (by simp [h]), List.append_cons, s.goOn_finish_runBlocks _ .ok n hw,
    State.perform_append, State.perform_writeBaud, State.ended, ← hw]
  rfl

/-- Settles O36: the command calculates, and ends at once where that faults, else after the four writes. -/
theorem setBaudRateCompletes : Obligations.SetBaudRateCompletes := by
  intro s hs hlo hhi
  have hexec := exec_setBaudRate_toWait s hs (s.baudInRange_iff.mpr ⟨hlo, hhi⟩)
  cases hfault : baudFaults (baudValues s.params.ifTable s.arg0.toNat) with
  | true =>
    have hnone := baudEncode_of_faults _ _ hfault
    refine ⟨fun mod rate timing filt hsome => ?_, fun _ => ?_, .inl hnone⟩
    · rw [hnone] at hsome; cases hsome
    · rw [hexec, State.atBaudDone_fault_runBlocks _ 14 rfl hfault]
      rfl
  | false =>
    have hsome := baudEncode_of_not_faults _ _ hfault
    refine ⟨fun mod rate timing filt heq => ?_, fun hnone => ?_, .inr ⟨_, _, _, _, hsome⟩⟩
    · rw [hsome] at heq
      cases heq
      rw [hexec, State.atBaudDone_ok_runBlocks _ 14 rfl hfault]
      rw [baudTrace, ← List.append_assoc, ← List.append_assoc, ← List.append_assoc]
      dsimp only [State.baudCalculated, State.goOn, State.atIdle]
      rfl
    · rw [hsome] at hnone; cases hnone

end Sys2Proof.Machine
end

section
/-! SendPoll and SEND_PACKET (44_packet.md R203, R204, R210). -/

namespace Sys2Proof.Machine

/-! ### The controller's move to the next wait -/

/-- `s` with the next move, one of the controller to the next wait, taken off the schedule. -/
def State.atMove (s : State) : State := s.moved.withGrant .toWait

/-- The controller's move to the next wait from a branch begins with that branch. -/
theorem step_enter (s : State) (h : s.nextEvent = .controller .toWait) (hw : s.wait = 0) (ht : s.todo = [])
    (hn : s.next ≠ .decode) : step s = .next (s.atMove.enter.runBlocks 15) :=
  step_branch_toWait s h hw ht hn

theorem State.runBlocks_enter (s : State) (n : Nat) (hw : s.wait = 0) (ht : s.todo = []) :
    s.runBlocks (n + 1) = s.enter.runBlocks n := by
  rw [s.runBlocks_succ n hw, s.runBlock_enter ht]

/-- Two steps meet: where `k` blocks of the one come to the branch that the other begins at, both end alike. -/
theorem step_meets (s t : State) (k : Nat) (l : Label) (hs : s.nextEvent = .controller .toWait) (hws : s.wait = 0)
    (hts : s.todo = []) (hns : s.next ≠ .decode) (ht : t.nextEvent = .controller .toWait) (hwt : t.wait = 0)
    (htt : t.todo = []) (hl : t.next = l) (hlt : l ≠ .decode) (h : s.atMove.runBlocks k = t.atMove.enter)
    (hsleeps : t.Sleeps) (h0 : 0 < k) (hk : k + l.blocks ≤ blocksPerMove + 1) : step s = step t := by
  rw [step_branch_blocks s hs hws hts hns, step_branch_blocks t ht hwt htt (hl ▸ hlt)]
  exact congrArg _ (State.runBlocks_meet s.atMove t.atMove k l hl hwt htt h hsleeps h0 hk)

/-! ### The exits of SendPoll -/

/-- The timeout exit after the device-status read, chip-select inactive as that read left it (R204, R210). -/
theorem State.atSendTimeout_runBlocks (s : State) (n : Nat) (hw : s.wait = 0) (hsel : s.sel = false) :
    s.atSendTimeout.runBlocks (n + 1) = State.ended { s with
      fsm := .idle
      trace := s.trace ++ (if s.received &&& s.params.maskOvfl ≠ 0 then
        clearTrace s.params (s.params.clrTx ||| s.params.clrRx) else []) } .txTimeout := by
  rw [State.atSendTimeout, List.append_cons, s.goOn_finish_runBlocks _ _ n hw, State.perform_append]
  split_ifs
  · rw [clearBoth, State.perform_clearWith]
    simp [State.goOn, State.wholeMicro, State.micro, State.finish, State.ended, hw, hsel]
  · simp [State.goOn, State.wholeMicro, State.micro, State.finish, State.ended, hw]

/-- {READY} and the device-status read of the timeout exit (R204). -/
theorem State.perform_readyStatus (s : State) (p : Params) (hp : s.params = p) :
    s.perform (switchMode p (modeByte [.ready]) ++ readReg p (regByte p.regs.deviceStatus)) =
      { s with sel := false
               modeValue := 0x01
               modeValid := true
               busAnomaly := s.busAnomaly || isAnomaly (s.answerAt 0)
               rx := [s.answerAt 1]
               answers := s.answers.skip 2
               trace := s.trace ++ switchModeTrace p 0x01 (s.answerAt 0) ++
                 readTrace p (regByte p.regs.deviceStatus) [s.answerAt 1] } := by
  have hready : modeByte [.ready] = 0x01 := rfl
  simp [State.perform_switchMode, State.perform_readReg, hp, State.answerAt, hready]

/-- The bound test of SendPoll at its bound: {READY}, one device-status read and the timeout exit. -/
theorem State.atSendHead_bound_runBlocks (s : State) (n : Nat) (hw : s.wait = 0)
    (h : s.params.txTimeout ≤ s.elapsed) :
    s.atSendHead.runBlocks (n + 2) = State.ended { s with
      sel := false
      fsm := .idle
      modeValue := 0x01
      modeValid := true
      busAnomaly := s.busAnomaly || isAnomaly (s.answerAt 0)
      rx := [s.answerAt 1]
      answers := s.answers.skip 2
      trace := s.trace ++ switchModeTrace s.params 0x01 (s.answerAt 0) ++
        readTrace s.params (regByte s.params.regs.deviceStatus) [s.answerAt 1] ++
        (if s.answerAt 1 &&& s.params.maskOvfl ≠ 0 then clearTrace s.params (s.params.clrTx ||| s.params.clrRx)
         else []) } .txTimeout := by
  rw [s.atSendHead_bound h, s.goOn_runBlocks _ _ (n + 1) hw, (s.goOn [] .sendTimeout).perform_readyStatus s.params rfl]
  exact State.atSendTimeout_runBlocks _ n hw rfl

theorem State.enter_sendHead (s : State) (hn : s.next = .sendHead) : s.enter = s.atSendHead := by
  rw [State.enter, hn]

/-- Settles O40: the step is the bound test at its bound. -/
theorem sendPollTimesOut : Obligations.SendPollTimesOut := by
  intro s hevent hw ht hn hbound
  rw [step_enter s hevent hw ht (by simp [hn]), s.atMove.enter_sendHead hn,
    s.atMove.atSendHead_bound_runBlocks 13 hw hbound]
  rfl

/-! ### One poll below the bound (R204) -/

/-- A sample of an idle line, and the sleep. -/
theorem State.atSendHead_high_runBlocks (s : State) (n : Nat) (hw : s.wait = 0) (h : s.elapsed < s.params.txTimeout)
    (hlevel : s.nextLevel = .high) :
    s.atSendHead.runBlocks (n + 1) = { s with
      todo := [], next := .sendHead, wait := 1, levels := s.levels.advance
      trace := s.trace ++ [.irq .high, .wait 1] } := by
  rw [s.atSendHead_below h, s.goOn_runBlocks [] .sendSample n hw]
  show (s.goOn [] .sendSample).atSendSample.runBlocks n = _
  rw [(s.goOn [] .sendSample).atSendSample_high hlevel, State.runBlocks_blocked _ n (Nat.one_ne_zero)]
  simp [State.sampled, State.waitTicks, State.goOn, State.nextLevel, ← hlevel]

/-- A sample of an asserted line, and the two status reads. -/
theorem State.atSendHead_low_runBlocks (s : State) (n : Nat) (hw : s.wait = 0) (h : s.elapsed < s.params.txTimeout)
    (hlevel : s.nextLevel = .low) :
    s.atSendHead.runBlocks (n + 2) = (s.checked.goOn [] .sendStatus).atSendStatus.runBlocks n := by
  rw [s.atSendHead_below h, s.goOn_runBlocks [] .sendSample (n + 1) hw]
  show (s.goOn [] .sendSample).atSendSample.runBlocks (n + 1) = _
  rw [(s.goOn [] .sendSample).atSendSample_low hlevel, State.goOn_runBlocks _ _ _ n (by exact hw),
    State.perform_pollStatus _ (s.goOn [] .sendSample).params (by rfl), State.checked, ← hlevel]
  rfl

/-- An asserted line without the packet-sent bit, and the sleep. -/
theorem State.atSendHead_notSent_runBlocks (s : State) (n : Nat) (hw : s.wait = 0)
    (h : s.elapsed < s.params.txTimeout) (hlevel : s.nextLevel = .low)
    (hbit : s.answerAt 0 &&& s.params.maskPksent = 0) :
    s.atSendHead.runBlocks (n + 2) = { s.checked with
      todo := [], next := .sendHead, wait := 1, trace := s.checked.trace ++ [.wait 1] } := by
  rw [s.atSendHead_low_runBlocks n hw h hlevel, (s.checked.goOn [] .sendStatus).atSendStatus_notSent hbit,
    State.runBlocks_blocked _ n (Nat.one_ne_zero)]
  rfl

/-- `s` after the poll that sees the packet-sent bit, the chip in {READY, TUNE} (R204). -/
def State.sentSeen (s : State) : State :=
  { s with
    sel := false
    s1 := s.answerAt 0
    rx := [s.answerAt 2]
    modeValue := 0x03
    modeValid := true
    busAnomaly := s.busAnomaly || isAnomaly (s.answerAt 2)
    answers := s.answers.skip 3
    levels := s.levels.advance
    trace := s.trace ++ [.irq .low] ++ statusTrace s.params (s.answerAt 0) (s.answerAt 1) ++
      switchModeTrace s.params 0x03 (s.answerAt 2) }

/-- The poll that sees the packet-sent bit goes on from SENT. -/
theorem State.atSendHead_sent_runBlocks (s : State) (n : Nat) (hw : s.wait = 0) (h : s.elapsed < s.params.txTimeout)
    (hlevel : s.nextLevel = .low) (hbit : s.answerAt 0 &&& s.params.maskPksent ≠ 0) :
    s.atSendHead.runBlocks (n + 3) = (s.sentSeen.goOn [] .sendSent).atSendSent.runBlocks n := by
  rw [s.atSendHead_low_runBlocks (n + 1) hw h hlevel, (s.checked.goOn [] .sendStatus).atSendStatus_sent hbit,
    State.goOn_runBlocks _ _ _ n (by exact hw),
    State.perform_switchMode _ (s.checked.goOn [] .sendStatus).params (by rfl)]
  rfl

/-- SENT without acknowledgment ends the command (R210). -/
theorem State.atSendSent_noAck_runBlocks (s : State) (n : Nat) (hw : s.wait = 0) (hack : s.arg0.getLsbD 8 = false) :
    s.atSendSent.runBlocks (n + 1) = State.ended { s with fsm := .idle } .ok := by
  have hend := s.goOn_finish_runBlocks [.setFsm .idle] .ok n hw
  rw [List.singleton_append] at hend
  rw [s.atSendSent_noAck hack, hend, State.ended, ← hw]
  rfl

/-! ### A loop of polls on an idle line (R204, R206) -/

/-- `t` is `s` but for what polls on an idle line change. -/
def State.PolledFrom (s t : State) : Prop :=
  t = { s with tick := t.tick, events := t.events, levels := t.levels, trace := t.trace, grant := t.grant }

/-- `s` after one poll on an idle line and its sleep of one tick. -/
def State.idlePolled (s : State) : State :=
  State.tickOnce (State.moved { s.moved with
    grant := .toWait, wait := 1, levels := s.levels.advance, trace := s.trace ++ [.irq .high, .wait 1] })

theorem State.PolledFrom.idlePolled {s t : State} (h : s.PolledFrom t) (hw : s.wait = 0) : s.PolledFrom t.idlePolled := by
  rw [State.PolledFrom] at h ⊢
  rw [h]
  simp [State.idlePolled, State.tickOnce, State.moved, hw]

/-- `n` polls on an idle line, each of them and each of their sleeps one move of the schedule, where `poll` says what one
poll below the bound does. -/
theorem run_idlePolls (s : State) (bound : Nat) (hw : s.wait = 0)
    (poll : ∀ t, s.PolledFrom t → t.nextEvent = .controller .toWait → t.nextLevel = .high → t.elapsed < bound →
      step t = .next { t.moved with
        grant := .toWait, wait := 1, levels := t.levels.advance, trace := t.trace ++ [.irq .high, .wait 1] })
    (hbound : bound < 2 ^ 32) (n : Nat) (t : State) (moves : List Event) (rest : List Level) (ht : s.PolledFrom t)
    (hn : t.elapsed + n = bound)
    (hevents : t.events.script = (List.replicate n [Event.controller .toWait, Event.tick]).flatten ++ moves)
    (hlevels : t.levels.script = List.replicate n Level.high ++ rest) :
    ∃ u : State, (∀ k, Host.Core.run Sys2Proof.core (2 * n + k) t = Host.Core.run Sys2Proof.core k u) ∧
      s.PolledFrom u ∧ u.elapsed = bound ∧ u.tick = t.tick + BitVec.ofNat 32 n ∧ u.events.script = moves ∧
      u.levels.script = rest := by
  induction n generalizing t with
  | zero => exact ⟨t, fun k => by rw [Nat.mul_zero, Nat.zero_add], ht, hn, by simp, hevents, hlevels⟩
  | succ n ih =>
    have hpoll := poll t ht (t.nextEvent_of _ _ hevents) (t.nextLevel_of _ _ hlevels) (by omega)
    have hsleep := step_tick { t.moved with
      grant := .toWait, wait := 1, levels := t.levels.advance, trace := t.trace ++ [.irq .high, .wait 1] }
      (State.nextEvent_of _ _ _ (t.moved_script _ _ hevents))
    have helapsed : t.idlePolled.elapsed = t.elapsed + 1 := t.elapsed_tickOnce (by omega)
    obtain ⟨u, hrun, hu, hel, htick, hmoves, hrest⟩ := ih t.idlePolled (ht.idlePolled hw) (by omega)
      (State.moved_script _ _ _ (t.moved_script _ _ hevents))
      (by simp [State.idlePolled, State.tickOnce, State.moved, Tape.advance, hlevels, List.replicate_succ])
    refine ⟨u, fun k => ?_, hu, hel, ?_, hmoves, hrest⟩
    · rw [show 2 * (n + 1) + k = (2 * n + k) + 1 + 1 by omega, run_succ _ _ _ hpoll, run_succ _ _ _ hsleep]
      exact hrun k
    · rw [htick, show t.idlePolled.tick = t.tick + 1 from rfl, BitVec.add_assoc, Nat.add_comm n 1, BitVec.ofNat_add]
      rfl

/-! ### SendPoll from its first poll to its last -/

theorem step_sendHead_idle (s : State) (hevent : s.nextEvent = .controller .toWait) (hw : s.wait = 0)
    (ht : s.todo = []) (hn : s.next = .sendHead) (h : s.elapsed < s.params.txTimeout) (hlevel : s.nextLevel = .high) :
    step s = .next { s.moved with
      grant := .toWait, wait := 1, levels := s.levels.advance, trace := s.trace ++ [.irq .high, .wait 1] } := by
  rw [step_enter s hevent hw ht (by simp [hn]), s.atMove.enter_sendHead hn,
    s.atMove.atSendHead_high_runBlocks 14 hw h hlevel, ← ht, ← hn]
  rfl

/-- A send poll whose line never asserts: every poll is idle up to the bound, and there the command ends. -/
theorem send_never_seen (s : State) (moves : List Event) (rest : List Level) (hw : s.wait = 0) (ht : s.todo = [])
    (hn : s.next = .sendHead) (ht0 : s.t0 = s.tick) (hbound : s.params.txTimeout < 2 ^ 32)
    (hevents : s.events.script = (List.replicate s.params.txTimeout [Event.controller .toWait, Event.tick]).flatten ++
      .controller .toWait :: moves)
    (hlevels : s.levels.script = List.replicate s.params.txTimeout Level.high ++ rest) :
    ∃ t, Host.Core.run Sys2Proof.core (2 * s.params.txTimeout + 1) s = .next t ∧
      t.code = .txTimeout ∧ t.busy = false ∧ t.fsm = .idle ∧ t.modeValue = 0x01 ∧ t.modeValid = true ∧
      t.tick.toNat = (s.tick.toNat + s.params.txTimeout) % 2 ^ 32 ∧ t.events.script = moves ∧ t.levels.script = rest := by
  have helapsed : s.elapsed = 0 := by simp [State.elapsed, ht0]
  obtain ⟨u, hrun, hu, hel, htick, hmoves, hrest⟩ := run_idlePolls s s.params.txTimeout hw
    (fun t h he hl hlt => by
      have hparams : t.params = s.params := by rw [h]
      exact step_sendHead_idle t he (by rw [h]; exact hw) (by rw [h]; exact ht) (by rw [h]; exact hn)
        (by rw [hparams]; exact hlt) hl)
    hbound s.params.txTimeout s _ rest rfl (by omega) hevents hlevels
  have hlast := sendPollTimesOut u (u.nextEvent_of _ _ hmoves) (by rw [hu]; exact hw) (by rw [hu]; exact ht)
    (by rw [hu]; exact hn) (by rw [show u.params = s.params by rw [hu]]; exact hel.ge)
  refine ⟨_, (hrun 1).trans (run_succ 0 _ _ hlast), rfl, rfl, rfl, rfl, rfl, ?_, u.moved_script _ _ hmoves, hrest⟩
  show u.tick.toNat = _
  rw [htick, BitVec.toNat_add, BitVec.toNat_ofNat, Nat.add_mod_mod]

/-- Settles O41: the loop of idle polls and its end, and each outcome of one poll. -/
theorem sendNeverSeenTimesOutAtTheBound : Obligations.SendNeverSeenTimesOutAtTheBound := by
  refine ⟨send_never_seen, ?_⟩
  intro s hevent hw ht hn hlt seen
  have hblocks : step s = .next (s.atMove.atSendHead.runBlocks 15) := by
    rw [step_enter s hevent hw ht (by simp [hn]), s.atMove.enter_sendHead hn]
  refine ⟨fun hlow hbit => ⟨fun hack => ?noAck, fun hack => ?ack⟩, fun hhigh => ?idle, fun hlow hbit => ?notSent⟩
  case noAck =>
    rw [hblocks, s.atMove.atSendHead_sent_runBlocks 12 hw hlt hlow hbit,
      State.atSendSent_noAck_runBlocks (s.atMove.sentSeen.goOn [] .sendSent) 11 hw hack]
    rfl
  case ack =>
    have hfour : s.atMove.runBlocks 4 = (s.atMove.sentSeen.goOn [] .sendSent).atSendSent := by
      rw [s.atMove.runBlocks_enter 3 hw ht, s.atMove.enter_sendHead hn]
      exact s.atMove.atSendHead_sent_runBlocks 0 hw hlt hlow hbit
    refine step_meets s { seen with next := .sendSent } 4 .sendSent hevent hw ht (by simp [hn]) hevent hw ht
      rfl nofun ?_ nofun
      (by decide) (by decide)
    refine hfour.trans (congrArg State.atSendSent ?_)
    rw [State.goOn, ← ht]
    rfl
  case idle => exact step_sendHead_idle s hevent hw ht hn hlt hhigh
  case notSent =>
    rw [hblocks, s.atMove.atSendHead_notSent_runBlocks 13 hw hlt hlow hbit, ← ht, ← hn]
    rfl

/-! ### SEND_PACKET up to its first poll (R203, R210) -/

/-- `s` after SendStart with the bytes read from DATABUF, at the bound test of SendPoll. -/
def State.sendStarted (s : State) : State :=
  { s with
    sel := false
    fsm := .transmitting
    t0 := s.tick
    todo := []
    next := .sendHead
    wait := 0
    rx := [s.answerAt 2]
    modeValue := 0x09
    modeValid := true
    busAnomaly := s.busAnomaly || isAnomaly (s.answerAt 2)
    fresh := (s.bufRead 0 s.opLen.toNat).2.fresh
    answers := s.answers.skip 3
    trace := s.trace ++ sendStartTrace s.params s.opLen (s.bufRead 0 s.opLen.toNat).1 (s.answerAt 0) (s.answerAt 1)
      (s.answerAt 2) }

/-- The first operations of SEND_PACKET. -/
def State.sendSteps (s : State) : List Micro :=
  [.setFsm .transmitting] ++ sendStart s.params s.opLen (s.bufRead 0 s.opLen.toNat).1 ++ [.setT0]

theorem State.perform_sendSteps (s : State) :
    ((s.bufRead 0 s.opLen.toNat).2.atIdle.goOn [] .sendHead).perform s.sendSteps = s.sendStarted := by
  obtain ⟨k, hread⟩ := s.bufRead_state 0 s.opLen.toNat
  rw [State.sendSteps, State.sendStarted, hread, State.perform_append, State.perform_append,
    State.perform_sendStart _ s.params (by rfl)]
  rfl

theorem State.bufRead_grant (s : State) (i n : Nat) : (s.bufRead i n).2.grant = s.grant := by
  obtain ⟨k, hread⟩ := s.bufRead_state i n
  rw [hread]

/-- SEND_PACKET comes to the bound test of its first poll. -/
theorem exec_sendPacket_toWait (s : State) (hs : s.grant = .toWait) :
    exec .sendPacket s = .next (s.sendStarted.atSendHead.runBlocks 15) := by
  calc exec .sendPacket s = .next ((s.bufRead 0 s.opLen.toNat).2.startCommand s.sendSteps .sendHead) := rfl
    _ = .next (s.sendStarted.enter.runBlocks 15) := by
      rw [State.startCommand_toWait _ _ _ ((s.bufRead_grant _ _).trans hs), s.perform_sendSteps]

theorem State.sendStarted_elapsed (s : State) : s.sendStarted.elapsed = 0 := by
  simp [State.elapsed, State.sendStarted]

/-- Settles O39: SendStart, then the first poll, whose bound is not reached. -/
theorem sendPacketCompletes : Obligations.SendPacketCompletes := by
  intro s hs htimeout len started polled
  have hlt : s.sendStarted.elapsed < s.sendStarted.params.txTimeout := by rw [s.sendStarted_elapsed]; exact htimeout
  have hexec := exec_sendPacket_toWait s hs
  refine ⟨fun hack hlow hbit => ?noAck, fun hack hlow hbit => ?ack, fun hlow hbit => ?notSent, fun hhigh => ?idle⟩
  case noAck =>
    rw [hexec, s.sendStarted.atSendHead_sent_runBlocks 12 rfl hlt hlow hbit,
      State.atSendSent_noAck_runBlocks (s.sendStarted.sentSeen.goOn [] .sendSent) 11 rfl hack]
    rfl
  case ack =>
    have hrun : ((s.bufRead 0 s.opLen.toNat).2.atIdle.goOn s.sendSteps .sendHead).runBlocks 4 =
        (s.sendStarted.sentSeen.goOn [] .sendSent).enter := by
      rw [State.goOn_runBlocks _ _ _ 3 (by rfl), s.perform_sendSteps]
      exact s.sendStarted.atSendHead_sent_runBlocks 0 rfl hlt hlow hbit
    exact (State.startCommand_meets _ (s.sendStarted.sentSeen.goOn [] .sendSent) s.sendSteps .sendHead .sendSent 4
      ((s.bufRead_grant _ _).trans hs) hs rfl rfl rfl nofun hrun nofun (by decide) (by decide)).trans (congrArg step rfl)
  case notSent =>
    rw [hexec, s.sendStarted.atSendHead_notSent_runBlocks 13 rfl hlt hlow hbit]
    rfl
  case idle =>
    rw [hexec, s.sendStarted.atSendHead_high_runBlocks 14 rfl hlt hhigh]
    rfl

end Sys2Proof.Machine
end

section
/-! WaitProc, WAIT_FOR_PACKET and the acknowledged SEND_PACKET (44_packet.md R205 to R211). -/

namespace Sys2Proof.Machine

/-! ### After the check returned false (R206, R207) -/

theorem State.notReceived_of_wait (s : State) (ops : List Micro) (who : Poller) (hwho : who ≠ .once) :
    s.notReceived ops who = s.goOn ops (.pollSleep who) := by
  cases who with
  | once => exact absurd rfl hwho
  | waitCommand => rfl
  | acknowledgment => rfl

theorem State.notReceived_nil_runBlocks (s : State) (who : Poller) (n : Nat) (hwho : who ≠ .once) (hw : s.wait = 0) :
    (s.notReceived [] who).runBlocks (n + 1) = { s with
      todo := [], next := .waitHead who, wait := 1, trace := s.trace ++ [.wait 1] } := by
  rw [s.notReceived_of_wait [] who hwho, s.goOn_runBlocks [] _ n hw]
  exact State.runBlocks_blocked ((s.goOn [] (.pollSleep who)).waitTicks 1 (.waitHead who)) n Nat.one_ne_zero

/-- The CRC error's recovery, and the sleep. -/
theorem State.atRxStatus_crc_wait_runBlocks (s : State) (who : Poller) (n : Nat) (hwho : who ≠ .once) (hw : s.wait = 0)
    (hvalid : s.s1 &&& s.params.maskPkvalid = 0) (hcrc : s.s1 &&& s.params.maskCrcerr ≠ 0) :
    (s.atRxStatus who).runBlocks (n + 1) = { s with
      sel := false
      todo := []
      next := .waitHead who
      wait := 1
      modeValue := 0x05
      modeValid := true
      busAnomaly := s.busAnomaly || isAnomaly (s.answerAt 0) || isAnomaly (s.answerAt 1)
      rx := [s.answerAt 1]
      answers := s.answers.skip 2
      trace := s.trace ++ (switchModeTrace s.params 0x01 (s.answerAt 0) ++ clearTrace s.params s.params.clrRx ++
        switchModeTrace s.params 0x05 (s.answerAt 1)) ++ [.wait 1] } := by
  rw [s.atRxStatus_crc who hvalid hcrc, s.notReceived_of_wait _ who hwho, s.goOn_runBlocks _ _ n hw,
    (s.goOn [] (.pollSleep who)).perform_recovery s.params rfl]
  exact State.runBlocks_blocked (State.waitTicks _ 1 (.waitHead who)) n Nat.one_ne_zero

/-! ### A valid packet (R207 to R211) -/

/-- WAIT_FOR_PACKET takes the path of IS_PACKET_RECEIVED. -/
theorem State.atRxStatus_waitCommand_valid (s : State) (h : s.s1 &&& s.params.maskPkvalid ≠ 0) :
    s.atRxStatus .waitCommand = s.atRxStatus .once := (if_pos h).trans (if_pos h).symm

theorem State.atRxStatus_acknowledgment_valid (s : State) (h : s.s1 &&& s.params.maskPkvalid ≠ 0) :
    s.atRxStatus .acknowledgment = s.goOn (switchMode s.params (modeByte [.ready, .tune]) ++ [.setFsm .idle] ++
      readReg s.params (regByte s.params.regs.rxLen)) (.fetch true) := if_pos h

theorem State.perform_seenLength (s : State) (p : Params) (hp : s.params = p) :
    s.perform (switchMode p (modeByte [.ready, .tune]) ++ [.setFsm .idle] ++ readReg p (regByte p.regs.rxLen)) =
      { s with sel := false
               fsm := .idle
               modeValue := 0x03
               modeValid := true
               busAnomaly := s.busAnomaly || isAnomaly (s.answerAt 0)
               rx := [s.answerAt 1]
               answers := s.answers.skip 2
               trace := s.trace ++ switchModeTrace p 0x03 (s.answerAt 0) ++
                 readTrace p (regByte p.regs.rxLen) [s.answerAt 1] } := by
  have htune : modeByte [.ready, .tune] = 0x03 := rfl
  simp [State.perform_switchMode, State.perform_readReg, hp, State.answerAt, State.wholeMicro, State.micro, htune]

/-- GetPacket inside SEND_PACKET, with the bytes the length read asked for (R208, R210). -/
theorem State.atFetch_ack_runBlocks (s : State) (n : Nat) (hw : s.wait = 0) :
    (s.atFetch true).runBlocks (n + 1) = State.ended { s with
      sel := false
      fsm := .idle
      databuf := bufWrite s.databuf 0 (s.answersFor s.received.toNat)
      rxlen := BitVec.ofNat 9 s.received.toNat
      rx := s.answersFor s.received.toNat
      answers := s.answers.skip s.received.toNat
      trace := s.trace ++ (readTrace s.params (regByte s.params.regs.fifo) (s.answersFor s.received.toNat) ++
        clearTrace s.params s.params.clrRx) } .packet := by
  rw [State.atFetch, if_pos rfl, List.append_cons, s.goOn_finish_runBlocks _ .packet n hw, State.perform_append,
    (s.goOn [] .idle).perform_fetch s.params rfl, State.ended, ← hw]
  rfl

theorem State.answerAt_skip (s t : State) (m k : Nat) (ht : t.answers = s.answers.skip m) :
    t.answerAt k = s.answerAt (m + k) := by
  rw [State.answerAt, State.answerAt, ht, Tape.skip_skip]

theorem State.answersFor_skip (s t : State) (m n : Nat) (ht : t.answers = s.answers.skip m) :
    t.answersFor n = (List.range n).map (fun k => s.answerAt (m + k)) :=
  List.map_congr_left fun k _ => s.answerAt_skip t m k ht

theorem State.answersFrom_skip (s t : State) (m k n : Nat) (ht : t.answers = s.answers.skip m) :
    (List.range n).map (fun i => t.answerAt (k + i)) = (List.range n).map (fun i => s.answerAt (m + k + i)) :=
  List.map_congr_left fun i _ => by rw [s.answerAt_skip t m (k + i) ht, Nat.add_assoc]

theorem Tape.skip_skip_add {α : Type} (t : Tape α) (m k n : Nat) : (t.skip m).skip (k + n) = t.skip (m + k + n) := by
  rw [Tape.skip_skip, Nat.add_assoc]

/-- `s` after {READY, TUNE} and the length read of an acknowledgment's packet (R208). -/
def State.lengthSeen (s : State) : State :=
  { s with
    sel := false
    fsm := .idle
    modeValue := 0x03
    modeValid := true
    busAnomaly := s.busAnomaly || isAnomaly (s.answerAt 0)
    rx := [s.answerAt 1]
    answers := s.answers.skip 2
    trace := s.trace ++ switchModeTrace s.params 0x03 (s.answerAt 0) ++
      readTrace s.params (regByte s.params.regs.rxLen) [s.answerAt 1] }

/-- The acknowledgment's packet is fetched (R208 to R210): `count` bytes, and what is left of the answers after them. -/
theorem State.atRxStatus_ack_runBlocks (s : State) (n count : Nat) (bytes : List Byte) (answers : Tape Byte)
    (hw : s.wait = 0) (h : s.s1 &&& s.params.maskPkvalid ≠ 0) (hcount : (s.answerAt 1).toNat = count)
    (hbytes : (List.range count).map (fun k => s.answerAt (2 + k)) = bytes)
    (hanswers : s.answers.skip (2 + count) = answers) :
    (s.atRxStatus .acknowledgment).runBlocks (n + 2) = State.ended { s with
      sel := false
      fsm := .idle
      databuf := bufWrite s.databuf 0 bytes
      rxlen := BitVec.ofNat 9 count
      modeValue := 0x03
      modeValid := true
      busAnomaly := s.busAnomaly || isAnomaly (s.answerAt 0)
      rx := bytes
      answers := answers
      trace := s.trace ++ switchModeTrace s.params 0x03 (s.answerAt 0) ++
        readTrace s.params (regByte s.params.regs.rxLen) [s.answerAt 1] ++
        readTrace s.params (regByte s.params.regs.fifo) bytes ++ clearTrace s.params s.params.clrRx } .packet := by
  have hreceived : (s.goOn [] (.fetch true)).lengthSeen.received.toNat = count := hcount
  have hfetched : (s.goOn [] (.fetch true)).lengthSeen.answersFor count = bytes :=
    (s.answersFor_skip _ 2 count rfl).trans hbytes
  have hskip : (s.goOn [] (.fetch true)).lengthSeen.answers.skip count = answers :=
    (s.answers.skip_skip 2 count).trans hanswers
  have hseen := (s.goOn [] (.fetch true)).perform_seenLength s.params rfl
  calc (s.atRxStatus .acknowledgment).runBlocks (n + 2)
      = ((s.goOn [] (.fetch true)).lengthSeen.atFetch true).runBlocks (n + 1) := by
        rw [s.atRxStatus_acknowledgment_valid h, s.goOn_runBlocks _ _ (n + 1) hw, hseen]
        rfl
    _ = _ := by
        rw [State.atFetch_ack_runBlocks _ n (by exact hw), hreceived, hfetched, hskip, ← List.append_assoc]
        rfl

/-! ### The bound test of a wait (R206) -/

/-- At its bound: {READY}, the receive FIFO cleared and NO_PACKET. -/
theorem State.atWaitHead_bound_runBlocks (s : State) (who : Poller) (n : Nat) (hw : s.wait = 0)
    (h : s.waitBound who ≤ s.elapsed) :
    (s.atWaitHead who).runBlocks (n + 1) = State.ended { s with
      sel := false
      fsm := .idle
      modeValue := 0x01
      modeValid := true
      busAnomaly := s.busAnomaly || isAnomaly (s.answerAt 0)
      rx := [s.answerAt 0]
      answers := s.answers.skip 1
      trace := s.trace ++ switchModeTrace s.params 0x01 (s.answerAt 0) ++ clearTrace s.params s.params.clrRx }
      .noPacket := by
  rw [s.atWaitHead_bound who h, List.append_cons, s.goOn_finish_runBlocks _ .noPacket n hw, State.perform_append,
    State.perform_append, (s.goOn [] .idle).perform_switchMode s.params rfl, clearRx, State.perform_clearWith,
    State.ended, ← hw]
  rfl

/-- Below it: the check's sample. -/
theorem State.atWaitHead_below_runBlocks (s : State) (who : Poller) (n : Nat) (hw : s.wait = 0)
    (h : s.elapsed < s.waitBound who) :
    (s.atWaitHead who).runBlocks (n + 1) = ((s.goOn [] (.rxSample who)).atRxSample who).runBlocks n := by
  rw [s.atWaitHead_below who h, s.goOn_runBlocks [] _ n hw]
  rfl

/-- A check on an idle line, and the sleep. -/
theorem State.atWaitHead_high_runBlocks (s : State) (who : Poller) (n : Nat) (hwho : who ≠ .once) (hw : s.wait = 0)
    (h : s.elapsed < s.waitBound who) (hlevel : s.nextLevel = .high) :
    (s.atWaitHead who).runBlocks (n + 2) = { s with
      todo := [], next := .waitHead who, wait := 1, levels := s.levels.advance
      trace := s.trace ++ [.irq .high, .wait 1] } := by
  rw [s.atWaitHead_below_runBlocks who (n + 1) hw h, (s.goOn [] (.rxSample who)).atRxSample_high who hlevel,
    State.notReceived_nil_runBlocks _ who n hwho (by exact hw)]
  simp [State.sampled, State.goOn, State.nextLevel, ← hlevel]

/-- A check on an asserted line comes to its tests. -/
theorem State.atWaitHead_low_runBlocks (s : State) (who : Poller) (n : Nat) (hw : s.wait = 0)
    (h : s.elapsed < s.waitBound who) (hlevel : s.nextLevel = .low) :
    (s.atWaitHead who).runBlocks (n + 2) = ((s.checked.goOn [] (.rxStatus who)).atRxStatus who).runBlocks n := by
  rw [s.atWaitHead_below_runBlocks who (n + 1) hw h,
    (s.goOn [] (.rxSample who)).atRxSample_low_runBlocks who n hw hlevel]
  rfl

theorem State.enter_waitHead (s : State) (who : Poller) (hn : s.next = .waitHead who) : s.enter = s.atWaitHead who := by
  rw [State.enter, hn]

theorem step_waitHead (s : State) (who : Poller) (hevent : s.nextEvent = .controller .toWait) (hw : s.wait = 0)
    (ht : s.todo = []) (hn : s.next = .waitHead who) : step s = .next ((s.atMove.atWaitHead who).runBlocks 15) := by
  rw [step_enter s hevent hw ht (by simp [hn]), s.atMove.enter_waitHead who hn]

/-! ### A receive wait from its first check to its last (R206) -/

theorem State.waitBound_eq (s : State) (who : Poller) (hwho : who ≠ .once) :
    s.waitBound who = if who = .waitCommand then s.arg0.toNat else s.arg1.toNat := by
  cases who with
  | once => exact absurd rfl hwho
  | waitCommand => rfl
  | acknowledgment => rfl

theorem step_waitHead_bound (s : State) (who : Poller) (hevent : s.nextEvent = .controller .toWait) (hw : s.wait = 0)
    (ht : s.todo = []) (hn : s.next = .waitHead who) (h : s.waitBound who ≤ s.elapsed) :
    step s = .next (State.ended { s.moved with
      grant := .toWait
      sel := false
      fsm := .idle
      modeValue := 0x01
      modeValid := true
      busAnomaly := s.busAnomaly || isAnomaly (s.answerAt 0)
      rx := [s.answerAt 0]
      answers := s.answers.skip 1
      trace := s.trace ++ switchModeTrace s.params 0x01 (s.answerAt 0) ++ clearTrace s.params s.params.clrRx }
      .noPacket) := by
  rw [step_waitHead s who hevent hw ht hn,
    s.atMove.atWaitHead_bound_runBlocks who 14 hw ((s.moved.waitBound_withGrant .toWait who).trans_le h)]
  rfl

theorem step_waitHead_idle (s : State) (who : Poller) (hevent : s.nextEvent = .controller .toWait) (hw : s.wait = 0)
    (ht : s.todo = []) (hn : s.next = .waitHead who) (hwho : who ≠ .once) (h : s.elapsed < s.waitBound who)
    (hlevel : s.nextLevel = .high) :
    step s = .next { s.moved with
      grant := .toWait, wait := 1, levels := s.levels.advance, trace := s.trace ++ [.irq .high, .wait 1] } := by
  rw [step_waitHead s who hevent hw ht hn, s.atMove.atWaitHead_high_runBlocks who 13 hwho hw
    (h.trans_eq (s.moved.waitBound_withGrant .toWait who).symm) hlevel, ← ht, ← hn]
  rfl

/-- A WAIT_FOR_PACKET whose line never asserts: every check is idle up to the bound, and there the command ends. -/
theorem wait_never_served (s : State) (moves : List Event) (rest : List Level) (hw : s.wait = 0) (ht : s.todo = [])
    (hn : s.next = .waitHead .waitCommand) (ht0 : s.t0 = s.tick)
    (hevents : s.events.script =
      (List.replicate s.arg0.toNat [Event.controller .toWait, Event.tick]).flatten ++ .controller .toWait :: moves)
    (hlevels : s.levels.script = List.replicate s.arg0.toNat Level.high ++ rest) :
    ∃ t, Host.Core.run Sys2Proof.core (2 * s.arg0.toNat + 1) s = .next t ∧
      t.code = .noPacket ∧ t.busy = false ∧ t.fsm = .idle ∧ t.modeValue = 0x01 ∧ t.modeValid = true ∧
      t.tick.toNat = (s.tick.toNat + s.arg0.toNat) % 2 ^ 32 ∧ t.events.script = moves ∧ t.levels.script = rest := by
  have helapsed : s.elapsed = 0 := by simp [State.elapsed, ht0]
  have harg (t : State) (h : s.PolledFrom t) : t.waitBound .waitCommand = s.arg0.toNat := by
    rw [show t.waitBound .waitCommand = t.arg0.toNat from rfl, h]
  obtain ⟨u, hrun, hu, hel, htick, hmoves, hrest⟩ := run_idlePolls s s.arg0.toNat hw
    (fun t h he hl hlt => step_waitHead_idle t .waitCommand he (by rw [h]; exact hw) (by rw [h]; exact ht)
      (by rw [h]; exact hn) nofun (hlt.trans_eq (harg t h).symm) hl)
    s.arg0.isLt s.arg0.toNat s _ rest rfl (by omega) hevents hlevels
  have hlast := step_waitHead_bound u .waitCommand (u.nextEvent_of _ _ hmoves) (by rw [hu]; exact hw)
    (by rw [hu]; exact ht) (by rw [hu]; exact hn) ((harg u hu).trans_le hel.ge)
  refine ⟨_, (hrun 1).trans (run_succ 0 _ _ hlast), rfl, rfl, rfl, rfl, rfl, ?_, u.moved_script _ _ hmoves, hrest⟩
  show u.tick.toNat = _
  rw [htick, BitVec.toNat_add, BitVec.toNat_ofNat, Nat.add_mod_mod]

/-- Settles O44: the loop of idle checks and its end, and each outcome of one check. -/
theorem waitNeverServedTimesOutAtTheBound : Obligations.WaitNeverServedTimesOutAtTheBound := by
  refine ⟨wait_never_served, ?_⟩
  intro s who hevent hw ht hn hwho bound n bytes polled
  have hbound : s.waitBound who = bound := s.waitBound_eq who hwho
  refine ⟨fun h => step_waitHead_bound s who hevent hw ht hn (hbound.trans_le h), fun h => ?_⟩
  replace h := h.trans_eq hbound.symm
  have hlow (hlevel : s.nextLevel = .low) : step s =
      .next (((s.atMove.checked.goOn [] (.rxStatus who)).atRxStatus who).runBlocks 13) := by
    rw [step_waitHead s who hevent hw ht hn, s.atMove.atWaitHead_low_runBlocks who 13 hw
      (h.trans_eq (s.moved.waitBound_withGrant .toWait who).symm) hlevel]
  refine ⟨step_waitHead_idle s who hevent hw ht hn hwho h, fun hlevel hvalid hcrc => ?nothing,
    fun hlevel hvalid hcrc => ?crc, fun hlevel hvalid => ⟨?wait, ?ack⟩⟩
  case nothing =>
    rw [hlow hlevel, State.atRxStatus_nothing _ who hvalid hcrc, State.notReceived_nil_runBlocks _ who 12 hwho
      (by exact hw), ← ht, ← hn]
    rfl
  case crc =>
    rw [hlow hlevel, State.atRxStatus_crc_wait_runBlocks _ who 12 hwho (by exact hw) hvalid hcrc, ← ht, ← hn]
    simp [State.goOn, State.checked, State.atMove, State.withGrant, State.moved, State.answerAt, polled]
  case wait =>
    rintro rfl
    rw [hlow hlevel, State.atRxStatus_waitCommand_valid _ hvalid, State.atRxStatus_valid_runBlocks _ 12 (by exact hw) hvalid]
    simp [State.ended, State.goOn, State.checked, State.atMove, State.withGrant, State.moved, State.answerAt, polled]
  case ack =>
    rintro rfl
    have hbytes : (List.range n).map (fun k => s.atMove.checked.answerAt (2 + k)) = bytes :=
      s.answersFrom_skip s.atMove.checked 2 2 n rfl
    have hskip : s.atMove.checked.answers.skip (2 + n) = s.answers.skip (4 + n) :=
      s.answers.skip_skip_add 2 2 n
    rw [hlow hlevel, State.atRxStatus_ack_runBlocks _ 11 n bytes (s.answers.skip (4 + n)) (by exact hw) hvalid (by rfl)
      (by exact hbytes) (by exact hskip)]
    simp [State.ended, State.goOn, State.checked, State.atMove, State.withGrant, State.moved, State.answerAt, regByte, polled]

/-! ### The wait from where it is armed (R205, R206) -/

/-- `s` with reception armed, at the bound test of a wait. -/
def State.armed (s : State) (label : Fsm) (who : Poller) : State :=
  { s with
    sel := false
    fsm := label
    t0 := s.tick
    todo := []
    next := .waitHead who
    wait := 0
    rx := [s.answerAt 2]
    modeValue := 0x05
    modeValid := true
    busAnomaly := s.busAnomaly || isAnomaly (s.answerAt 2)
    answers := s.answers.skip 3
    trace := s.trace ++ listenTrace s.params (s.answerAt 0) (s.answerAt 1) (s.answerAt 2) }

theorem State.armed_elapsed (s : State) (label : Fsm) (who : Poller) : (s.armed label who).elapsed = 0 := by
  simp [State.elapsed, State.armed]

theorem State.armed_waitBound (s : State) (label : Fsm) (who : Poller) :
    (s.armed label who).waitBound who = s.waitBound who := by
  cases who <;> rfl

theorem State.perform_arm (s : State) (label : Fsm) (who : Poller) :
    (s.atIdle.goOn [] (.waitHead who)).perform (listen s.params label ++ [.setT0]) = s.armed label who := by
  rw [State.perform_append, State.perform_listen _ s.params (by rfl)]
  rfl

/-- A wait of bound 0 ends with no check. -/
theorem State.armed_bound_runBlocks (s : State) (label : Fsm) (who : Poller) (n : Nat) (h : s.waitBound who = 0) :
    ((s.armed label who).atWaitHead who).runBlocks (n + 1) = State.ended { s with
      sel := false
      fsm := .idle
      t0 := s.tick
      rx := [s.answerAt 3]
      modeValue := 0x01
      modeValid := true
      busAnomaly := s.busAnomaly || isAnomaly (s.answerAt 2) || isAnomaly (s.answerAt 3)
      answers := s.answers.skip 4
      trace := s.trace ++ listenTrace s.params (s.answerAt 0) (s.answerAt 1) (s.answerAt 2) ++
        switchModeTrace s.params 0x01 (s.answerAt 3) ++ clearTrace s.params s.params.clrRx } .noPacket := by
  have hbound : (s.armed label who).waitBound who ≤ (s.armed label who).elapsed :=
    ((s.armed_waitBound label who).trans h).trans_le (Nat.zero_le _)
  rw [State.atWaitHead_bound_runBlocks _ who n rfl hbound]
  rfl

theorem State.armed_below (s : State) (label : Fsm) (who : Poller) (h : 0 < s.waitBound who) :
    (s.armed label who).elapsed < (s.armed label who).waitBound who := by
  rwa [s.armed_elapsed, s.armed_waitBound]

/-- A first check on an idle line. -/
theorem State.armed_high_runBlocks (s : State) (label : Fsm) (who : Poller) (n : Nat) (hwho : who ≠ .once)
    (h : 0 < s.waitBound who) (hlevel : s.nextLevel = .high) :
    ((s.armed label who).atWaitHead who).runBlocks (n + 2) = { s.armed label who with
      todo := [], next := .waitHead who, wait := 1, levels := s.levels.advance
      trace := (s.armed label who).trace ++ [.irq .high, .wait 1] } := by
  rw [State.atWaitHead_high_runBlocks _ who n hwho (by rfl) (s.armed_below label who h) hlevel]
  rfl

/-- A first check on an asserted line. -/
theorem State.armed_low_runBlocks (s : State) (label : Fsm) (who : Poller) (n : Nat)
    (h : 0 < s.waitBound who) (hlevel : s.nextLevel = .low) :
    ((s.armed label who).atWaitHead who).runBlocks (n + 2) =
      (((s.armed label who).checked.goOn [] (.rxStatus who)).atRxStatus who).runBlocks n := by
  rw [State.atWaitHead_low_runBlocks _ who n (by rfl) (s.armed_below label who h) hlevel]

/-! ### WAIT_FOR_PACKET (R211) -/

theorem exec_waitForPacket_toWait (s : State) (hs : s.grant = .toWait) :
    exec .waitForPacket s = .next (((s.armed .listening .waitCommand).atWaitHead .waitCommand).runBlocks 15) := by
  have harmed : exec .waitForPacket s = .next ((s.armed .listening .waitCommand).enter.runBlocks 15) := by
    rw [← s.perform_arm, ← s.startCommand_toWait _ _ hs]
    rfl
  rw [harmed, State.enter_waitHead _ .waitCommand rfl]

/-- Settles O43: reception is armed, then the bound test and the first check. -/
theorem waitForPacketCompletes : Obligations.WaitForPacketCompletes := by
  intro s hs
  have hexec := exec_waitForPacket_toWait s hs
  refine ⟨?arm, fun hbound => ?bound, fun hbound hlevel hvalid => ?valid, fun hbound hhigh => ?idle⟩
  case arm =>
    have hone : (s.atIdle.goOn (listen s.params .listening ++ [.setT0]) (.waitHead .waitCommand)).runBlocks 1 =
        (s.armed .listening .waitCommand).enter := by
      rw [s.atIdle.goOn_runBlocks _ _ 0 (by rfl), s.perform_arm]
      rfl
    exact State.startCommand_meets s (s.armed .listening .waitCommand) _ _ (.waitHead .waitCommand) 1 hs hs rfl rfl rfl
      nofun hone nofun (by decide) (by decide)
  case bound =>
    rw [hexec, s.armed_bound_runBlocks .listening .waitCommand 14 hbound]
  case valid =>
    rw [hexec, s.armed_low_runBlocks .listening .waitCommand 13 hbound hlevel,
      State.atRxStatus_waitCommand_valid _ hvalid, State.atRxStatus_valid_runBlocks _ 12 (by rfl) hvalid]
    rfl
  case idle =>
    rw [hexec, s.armed_high_runBlocks .listening .waitCommand 13 nofun hbound hhigh]
    rfl

/-! ### The acknowledged SEND_PACKET after SENT (R210) -/

theorem State.atSendSent_ack_runBlocks (s : State) (n : Nat) (hw : s.wait = 0) (hack : s.arg0.getLsbD 8 = true) :
    s.atSendSent.runBlocks (n + 1) = ((s.armed .awaitingAck .acknowledgment).atWaitHead .acknowledgment).runBlocks n := by
  rw [s.atSendSent_ack hack, s.goOn_runBlocks _ _ n hw, State.perform_append, State.perform_append,
    State.perform_listen _ s.params (by rfl)]
  rw [State.armed, ← hw]
  rfl

theorem State.enter_sendSent (s : State) (hn : s.next = .sendSent) : s.enter = s.atSendSent := by
  rw [State.enter, hn]

/-- Settles O42: reception is armed, then the bound test, the first check and the fetch. -/
theorem acknowledgedSendFetchesTheBytes : Obligations.AcknowledgedSendFetchesTheBytes := by
  intro s hevent hw ht hn hack n bytes
  have hstep : step s =
      .next (((s.atMove.armed .awaitingAck .acknowledgment).atWaitHead .acknowledgment).runBlocks 14) := by
    rw [step_enter s hevent hw ht (by simp [hn]), s.atMove.enter_sendSent hn, s.atMove.atSendSent_ack_runBlocks 14 hw hack]
  refine ⟨?arm, fun hbound => ?bound, fun hbound hlevel hvalid => ?valid, fun hbound hhigh => ?idle⟩
  case arm =>
    have htwo : s.atMove.runBlocks 2 = (s.atMove.armed .awaitingAck .acknowledgment).enter := by
      rw [s.atMove.runBlocks_enter 1 hw ht, s.atMove.enter_sendSent hn, s.atMove.atSendSent_ack_runBlocks 0 hw hack]
      rfl
    refine step_meets s _ 2 (.waitHead .acknowledgment) hevent hw ht (by simp [hn]) hevent hw ht rfl nofun ?_ nofun
      (by decide) (by decide)
    refine htwo.trans (congrArg State.enter ?_)
    rw [State.armed, ← ht]
    simp [State.atMove, State.moved, State.withGrant, hw, State.answerAt]
  case bound =>
    rw [hstep, s.atMove.armed_bound_runBlocks .awaitingAck .acknowledgment 13 hbound]
    rfl
  case valid =>
    have hbytes : (List.range n).map (fun k => (s.atMove.armed .awaitingAck .acknowledgment).checked.answerAt (2 + k)) =
        bytes := s.answersFrom_skip _ 5 2 n rfl
    have hskip : (s.atMove.armed .awaitingAck .acknowledgment).checked.answers.skip (2 + n) = s.answers.skip (7 + n) :=
      s.answers.skip_skip_add 5 2 n
    rw [hstep, s.atMove.armed_low_runBlocks .awaitingAck .acknowledgment 12 hbound hlevel,
      State.atRxStatus_ack_runBlocks _ 10 n bytes (s.answers.skip (7 + n)) (by rfl) hvalid (by rfl) (by exact hbytes)
        (by exact hskip)]
    simp [State.ended, State.goOn, State.checked, State.armed, State.atMove, State.withGrant, State.moved,
      State.answerAt, regByte]
  case idle =>
    rw [hstep, s.atMove.armed_high_runBlocks .awaitingAck .acknowledgment 12 nofun hbound hhigh, State.armed, ← ht]
    rfl

end Sys2Proof.Machine
end

section
/-! The bootstrap commands that poll: SOFTWARE_RESET, HARDWARE_RESET and PorPoll (45_bootstrap.md R251 to R254). -/

namespace Sys2Proof.Machine

/-! ### One power-on-reset poll (R254) -/

/-- `s` after the read of one power-on-reset poll. -/
def State.porPolled (s : State) : State :=
  { s with
    sel := false
    polls := s.polls + 1
    rx := [s.answerAt 0]
    answers := s.answers.skip 1
    trace := s.trace ++ readTrace s.params (regByte s.params.regs.intStatus2) [s.answerAt 0] }

theorem State.atPorHead_runBlocks (s : State) (n : Nat) (hw : s.wait = 0) :
    s.atPorHead.runBlocks (n + 1) = (s.porPolled.goOn [] .porTest).atPorTest.runBlocks n := by
  rw [State.atPorHead, s.goOn_runBlocks _ _ n hw, State.perform_append,
    State.perform_readReg _ s.params (by rfl)]
  rfl

/-- A poll that shows the bit is followed by Boot (R251, R253, R256). -/
theorem State.atPorHead_shown_runBlocks (s : State) (n : Nat) (hw : s.wait = 0)
    (h : s.answerAt 0 &&& s.params.maskPor ≠ 0) :
    s.atPorHead.runBlocks (n + 3) = State.ended { s.porPolled with
      fsm := .idle
      baud := baudValues s.params.ifTable s.cfgBaud.toNat
      modeValue := 0x01
      modeValid := true
      busAnomaly := s.busAnomaly || isAnomaly (s.answerAt 1)
      rx := [s.answerAt 1]
      answers := s.answers.skip 2
      trace := s.porPolled.trace ++ bootTrace s.params s.cfgFreq.toNat
        (baudValues s.params.ifTable s.cfgBaud.toNat) s.cfgChannel s.cfgSignature (s.answerAt 1) }
      (if baudEncode s.params.ifTable s.cfgBaud.toNat = none then .calcFault else .ok) := by
  rw [s.atPorHead_runBlocks (n + 2) hw, (s.porPolled.goOn [] .porTest).atPorTest_shown h,
    State.boot_runBlocks _ n (by exact hw)]
  rfl

/-- A poll without the bit at the limit ends POR_TIMEOUT. -/
theorem State.atPorHead_limit_runBlocks (s : State) (n : Nat) (hw : s.wait = 0)
    (h : s.answerAt 0 &&& s.params.maskPor = 0) (hlimit : s.porPolled.porExhausted = true) :
    s.atPorHead.runBlocks (n + 2) = State.ended { s.porPolled with fsm := .idle } .porTimeout := by
  rw [s.atPorHead_runBlocks (n + 1) hw, (s.porPolled.goOn [] .porTest).atPorTest_limit h hlimit]
  exact (State.goOn_finish_runBlocks (s.porPolled.goOn [] .porTest) [.setFsm .idle] .porTimeout n hw).trans
    (by rw [State.ended, ← hw]; rfl)

/-- A poll without the bit below the limit sleeps. -/
theorem State.atPorHead_again_runBlocks (s : State) (n : Nat) (hw : s.wait = 0)
    (h : s.answerAt 0 &&& s.params.maskPor = 0) (hlimit : s.porPolled.porExhausted = false)
    (hsleep : 0 < s.params.porSleep) :
    s.atPorHead.runBlocks (n + 1) = { s.porPolled with
      todo := []
      next := .porHead
      wait := s.params.porSleep
      trace := s.porPolled.trace ++ [.wait s.params.porSleep] } := by
  rw [s.atPorHead_runBlocks n hw, (s.porPolled.goOn [] .porTest).atPorTest_again h hlimit,
    State.runBlocks_blocked _ n (by exact hsleep.ne')]
  rfl

theorem State.porExhausted_of_some (s : State) (n : Nat) (h : s.params.porLimit = some n) :
    s.porExhausted = decide (n ≤ s.polls) := by
  rw [State.porExhausted, h]

theorem State.porExhausted_of_none (s : State) (h : s.params.porLimit = none) : s.porExhausted = false := by
  rw [State.porExhausted, h]

theorem State.enter_porHead (s : State) (hn : s.next = .porHead) : s.enter = s.atPorHead := by
  rw [State.enter, hn]

/-- The poll loop begins with no polls made. -/
theorem State.enter_porStart_runBlocks (s : State) (n : Nat) (hw : s.wait = 0) (hn : s.next = .porStart) :
    s.enter.runBlocks (n + 1) = (({ s with polls := 0 } : State).goOn [] .porHead).atPorHead.runBlocks n := by
  rw [State.enter, hn]
  exact s.goOn_runBlocks _ _ n hw

/-- Settles O52: the begin of the loop, and each outcome of one poll. -/
theorem porPollStopsAtItsLimit : Obligations.PorPollStopsAtItsLimit := by
  constructor
  · intro s hevent hw ht hn hsleep
    refine step_meets s { s with next := .porHead, polls := 0 } 2 .porHead hevent hw ht (by simp [hn]) hevent hw ht rfl
      nofun ?_ (fun _ => hsleep.ne') (by decide) (by decide)
    rw [s.atMove.runBlocks_enter 1 hw ht, s.atMove.enter_porStart_runBlocks 0 hw hn, State.goOn, ← ht]
    rfl
  · intro s hevent hw ht hn b polled
    have hblocks : step s = .next (s.atMove.atPorHead.runBlocks 15) := by
      rw [step_enter s hevent hw ht (by simp [hn]), s.atMove.enter_porHead hn]
    refine ⟨fun hshown => ?shown, fun hbit n hlimit hle => ?limit, fun hbit hsleep hlimit => ?again⟩
    case shown =>
      rw [hblocks, s.atMove.atPorHead_shown_runBlocks 12 hw hshown]
      rfl
    case limit =>
      have hexhausted : s.atMove.porPolled.porExhausted = true := by
        rw [State.porExhausted_of_some _ n (by exact hlimit)]
        exact decide_eq_true hle
      rw [hblocks, s.atMove.atPorHead_limit_runBlocks 13 hw hbit hexhausted]
      rfl
    case again =>
      have hexhausted : s.atMove.porPolled.porExhausted = false := by
        obtain hnone | ⟨n, hsome, hlt⟩ := hlimit
        · exact State.porExhausted_of_none _ hnone
        · rw [State.porExhausted_of_some _ n (by exact hsome)]
          exact decide_eq_false (Nat.not_le.mpr hlt)
      rw [hblocks, s.atMove.atPorHead_again_runBlocks 14 hw hbit hexhausted hsleep, ← ht, ← hn]
      rfl

/-! ### SOFTWARE_RESET (R251, R252) -/

/-- `s` after SoftReset, at the first poll. -/
def State.softResetDone (s : State) : State :=
  { s with
    sel := false
    fsm := .resetting
    polls := 0
    todo := []
    next := .porHead
    wait := 0
    modeValue := s.params.stateReset
    modeValid := true
    trace := s.trace ++ writeTrace (regByte s.params.regs.state) [s.params.stateReset] }

theorem State.perform_softReset (s : State) :
    (s.atIdle.goOn [] .porHead).perform ([.setFsm .resetting] ++ softReset s.params ++ [.clearPolls]) =
      s.softResetDone := by
  simp only [softReset, State.perform_append]
  rw [State.perform_writeReg]
  rfl

/-- Settles O49: SoftReset, then the first poll. -/
theorem softwareResetCompletes : Obligations.SoftwareResetCompletes := by
  intro s hs b
  refine ⟨fun hsleep => ?poll, fun hshown => ?boot⟩
  case poll =>
    have hone : (s.atIdle.goOn ([.setFsm .resetting] ++ softReset s.params ++ [.clearPolls]) .porHead).runBlocks 1 =
        s.softResetDone.enter := by
      rw [s.atIdle.goOn_runBlocks _ _ 0 (by rfl), s.perform_softReset]
      rfl
    exact State.startCommand_meets s s.softResetDone _ _ .porHead 1 hs hs rfl rfl rfl nofun hone
      (fun _ => hsleep.ne') (by decide) (by decide)
  case boot =>
    have hexec : exec .softwareReset s = .next (s.softResetDone.enter.runBlocks 15) := by
      rw [← s.perform_softReset, ← s.startCommand_toWait _ _ hs]
      rfl
    rw [hexec, s.softResetDone.enter_porHead rfl, s.softResetDone.atPorHead_shown_runBlocks 12 rfl hshown]
    rfl

/-! ### HARDWARE_RESET (R253) -/

/-- Settles O50: the pin active and the first delay, the pin released and the second. -/
theorem hardwareResetPowersOff : Obligations.HardwareResetPowersOff := by
  constructor
  · intro s hs hoff
    have hexec : exec .hardwareReset s =
        .next (((s.atIdle.goOn [] .sdnOff).perform [.setFsm .resetting, .setSdn true, .clearMode]).enter.runBlocks 15) := by
      rw [← s.startCommand_toWait _ _ hs]
      rfl
    rw [hexec]
    refine congrArg _ ((State.runBlocks_blocked _ 15 hoff.ne').trans ?_)
    simp [State.enter, State.perform, State.wholeMicro, State.micro, State.setSdn, State.waitTicks, State.goOn,
      State.atIdle]
  · intro s hevent hw ht hn hon
    rw [step_enter s hevent hw ht (by simp [hn]), State.enter, show s.atMove.next = .sdnRelease from hn]
    refine congrArg _ ((s.atMove.goOn_runBlocks [.setSdn false] .sdnOn 14 hw).trans ?_)
    rw [State.runBlocks_blocked _ 14 (by exact hon.ne'), ← ht]
    simp [State.enter, State.perform, State.wholeMicro, State.micro, State.setSdn, State.waitTicks, State.goOn,
      State.atMove, State.withGrant, State.moved, ht]

theorem run_one (s t : State) (h : step s = .next t) : Host.Core.run Sys2Proof.core 1 s = .next t := run_succ 0 s t h

/-- `n` ticks on from `s`, where the schedule goes on with `rest`. -/
def State.ticked (s : State) (n : Nat) (rest : List Event) : State :=
  { s with tick := s.tick + BitVec.ofNat 32 n, wait := 0, events := ⟨rest, s.events.used⟩ }

/-- A wait that begins with a move, and its ticks. -/
theorem run_move_ticks (s u : State) (n k : Nat) (rest : List Event) (hstep : step s = .next u) (hwait : u.wait = n)
    (hevents : u.events.script = List.replicate n .tick ++ rest) :
    Host.Core.run Sys2Proof.core (n + k + 1) s = Host.Core.run Sys2Proof.core k (u.ticked n rest) := by
  obtain ⟨t, hrun, rfl⟩ := run_ticks n u rest hevents hwait
  exact (run_succ _ _ _ hstep).trans (hrun k)

/-- The poll after the second delay of HARDWARE_RESET, and Boot (R251, R253, R256). -/
theorem step_porStart_shown (s : State) (hevent : s.nextEvent = .controller .toWait) (hw : s.wait = 0)
    (ht : s.todo = []) (hn : s.next = .porStart) (hshown : s.answerAt 0 &&& s.params.maskPor ≠ 0) :
    step s = .next (State.ended { s.moved with
      grant := .toWait
      sel := false
      fsm := .idle
      polls := 1
      baud := baudValues s.params.ifTable s.cfgBaud.toNat
      modeValue := 0x01
      modeValid := true
      busAnomaly := s.busAnomaly || isAnomaly (s.answerAt 1)
      rx := [s.answerAt 1]
      answers := s.answers.skip 2
      trace := s.trace ++ readTrace s.params (regByte s.params.regs.intStatus2) [s.answerAt 0] ++
        bootTrace s.params s.cfgFreq.toNat (baudValues s.params.ifTable s.cfgBaud.toNat) s.cfgChannel s.cfgSignature
          (s.answerAt 1) }
      (if baudEncode s.params.ifTable s.cfgBaud.toNat = none then .calcFault else .ok)) := by
  rw [step_enter s hevent hw ht (by simp [hn]), s.atMove.enter_porStart_runBlocks 14 hw hn,
    State.atPorHead_shown_runBlocks _ 11 (by exact hw) (by exact hshown)]
  simp [State.ended, State.porPolled, State.goOn, State.atMove, State.withGrant, State.moved, State.answerAt]
  rfl

/-- `s` with the pin active and the first delay begun (R253). -/
def State.poweredOff (s : State) : State :=
  { s with
    fsm := .resetting
    sdn := true
    modeValue := 0
    modeValid := false
    todo := []
    next := .sdnRelease
    wait := s.params.sdnOff
    trace := s.trace ++ [.sdn true, .wait s.params.sdnOff] }

/-- `s` after both delays, the schedule going on with `rest`. -/
def State.poweredUp (s : State) (rest : List Event) : State :=
  { s with
    fsm := .resetting
    sdn := false
    modeValue := 0
    modeValid := false
    tick := s.tick + BitVec.ofNat 32 s.params.sdnOff + BitVec.ofNat 32 s.params.sdnOn
    todo := []
    next := .porStart
    wait := 0
    grant := .toWait
    events := ⟨rest, s.events.used⟩
    trace := s.trace ++ [.sdn true, .wait s.params.sdnOff] ++ [.sdn false, .wait s.params.sdnOn] }

/-- HARDWARE_RESET from the latched word through both delays (R253). -/
theorem run_hardwareReset (s : State) (rest : List Event) (k : Nat) (hd : decodeWord s.cmd = some .hardwareReset)
    (hw : s.wait = 0) (ht : s.todo = []) (hn : s.next = .decode) (hoff : 0 < s.params.sdnOff)
    (hon : 0 < s.params.sdnOn)
    (hevents : s.events.script = .controller .toWait :: (List.replicate s.params.sdnOff Event.tick ++
      .controller .toWait :: (List.replicate s.params.sdnOn Event.tick ++ rest))) :
    Host.Core.run Sys2Proof.core (s.params.sdnOff + (s.params.sdnOn + k + 1) + 1) s =
      Host.Core.run Sys2Proof.core k (s.poweredUp rest) := by
  have hfirst : step s = .next s.atMove.poweredOff := by
    rw [step_decode_some s .toWait .hardwareReset (s.nextEvent_of _ _ hevents) hw ht hn hd]
    exact hardwareResetPowersOff.1 _ rfl hoff
  rw [run_move_ticks s _ s.params.sdnOff _ _ hfirst rfl (s.moved_script _ _ hevents)]
  have hsecond := hardwareResetPowersOff.2 (s.atMove.poweredOff.ticked s.params.sdnOff
    (.controller .toWait :: (List.replicate s.params.sdnOn Event.tick ++ rest))) (State.nextEvent_of _ _ _ rfl) rfl rfl
    rfl hon
  rw [run_move_ticks _ _ s.params.sdnOn k rest hsecond rfl (State.moved_script _ _ _ rfl)]
  simp [State.ticked, State.poweredOff, State.poweredUp, State.atMove, State.withGrant, State.moved, Tape.advance, hevents]

/-- Settles O51: the two delays with their ticks, the poll and Boot. -/
theorem hardwareResetRunsToBoot : Obligations.HardwareResetRunsToBoot := by
  intro s moves hd hw ht hn hoff hon hshown hevents
  have hlast := run_one _ _ (step_porStart_shown (s.poweredUp (.controller .toWait :: moves))
    (State.nextEvent_of _ _ moves rfl) rfl rfl rfl hshown)
  have hrun := (run_hardwareReset s _ 1 hd hw ht hn hoff hon hevents).trans hlast
  rw [show s.params.sdnOff + (s.params.sdnOn + 1 + 1) + 1 = s.params.sdnOff + s.params.sdnOn + 3 by omega] at hrun
  refine ⟨_, hrun, ?_⟩
  simp [State.ended, State.poweredUp, State.moved, State.answerAt, regByte]

end Sys2Proof.Machine
end

section
/-! What the move that begins an instruction leaves unchanged (10_state.md section 2). -/

namespace Sys2Proof.Machine

/-! ### How a command begins -/

/-- The operations a command begins with. -/
def State.firstOps (s : State) : Instr → List Micro
  | .writeReg => writeReg s.opAddr s.opValue ++ [.finish .ok]
  | .readReg => readReg s.params s.opAddr ++ [.setData, .storeRx, .finish .ok]
  | .writeBurst =>
    if s.badCount then [.finish .badArg] else writeBurst s.opAddr (s.bufRead 0 s.opCount).1 ++ [.finish .ok]
  | .readBurst =>
    if s.badCount then [.finish .badArg] else readBurst s.params s.opAddr s.opCount ++ [.storeRx, .finish .ok]
  | .setFrequency =>
    if s.freqInRange then writeFrequency s.params s.opFreq ++ [.setCfgFreq s.arg0, .finish .ok] else [.finish .ignored]
  | .setSignature => writeSignature s.params s.opSignature ++ [.setCfgSignature s.opSignature, .finish .ok]
  | .setChannel => writeChannel s.params s.opChannel ++ [.setCfgChannel s.opChannel, .finish .ok]
  | .setBaudRate => if s.baudInRange then [.calculate s.opBaud] else [.finish .ignored]
  | .switchMode => switchMode s.params s.opMode ++ [.finish .ok]
  | .clearTxFifo => clearTx s.params ++ [.finish .ok]
  | .clearRxFifo => clearRx s.params ++ [.finish .ok]
  | .clearFifo => clearBoth s.params ++ [.finish .ok]
  | .sendPacket => s.sendSteps
  | .waitForPacket => listen s.params .listening ++ [.setT0]
  | .startListening => listen s.params .listening ++ [.finish .ok]
  | .isPacketReceived => []
  | .getPacketReceived => readReg s.params (regByte s.params.regs.rxLen)
  | .boot => [.setFsm .resetting] ++ s.bootSteps
  | .softwareReset => [.setFsm .resetting] ++ softReset s.params ++ [.clearPolls]
  | .hardwareReset => [.setFsm .resetting, .setSdn true, .clearMode]
  | .busWrite _ _ | .busRead _ _ => []

/-- The branch those operations lead to. -/
def State.firstBranch (s : State) : Instr → Label
  | .setBaudRate => if s.baudInRange then .baudDone else .idle
  | .sendPacket => .sendHead
  | .waitForPacket => .waitHead .waitCommand
  | .isPacketReceived => .rxSample .once
  | .getPacketReceived => .fetch false
  | .boot => .bootBaud
  | .softwareReset => .porHead
  | .hardwareReset => .sdnOff
  | .writeReg | .readReg | .writeBurst | .readBurst | .setFrequency | .setSignature | .setChannel | .switchMode => .idle
  | .clearTxFifo | .clearRxFifo | .clearFifo | .startListening | .busWrite _ _ | .busRead _ _ => .idle

/-- `s` with `k` unwritten bytes of DATABUF drawn, before the first operation of `i`. -/
def State.begun (s : State) (i : Instr) (k : Nat) : State :=
  { s with fresh := s.fresh.skip k, todo := s.firstOps i, next := s.firstBranch i, wait := 0 }

/-- A command is a run from its first operation. -/
theorem exec_begun (i : Instr) (s : State) (hi : isCommand i = true) : ∃ k, exec i s = .next (s.begun i k).run := by
  cases i with
  | writeBurst =>
    by_cases h : s.badCount = true
    · exact ⟨0, by simp [exec, execWriteBurst, State.begun, State.firstOps, State.firstBranch, State.startCommand, h]⟩
    · obtain ⟨k, hk⟩ := s.bufRead_state 0 s.opCount
      exact ⟨k, by simp [exec, execWriteBurst, State.begun, State.firstOps, State.firstBranch, State.startCommand, h, hk]⟩
  | sendPacket =>
    obtain ⟨k, hk⟩ := s.bufRead_state 0 s.opLen.toNat
    exact ⟨k, by simp [exec, execSendPacket, State.begun, State.firstOps, State.firstBranch, State.startCommand,
      State.sendSteps, hk]⟩
  | readBurst =>
    refine ⟨0, ?_⟩
    by_cases h : s.badCount = true <;>
      simp [exec, execReadBurst, State.begun, State.firstOps, State.firstBranch, State.startCommand, h]
  | setFrequency =>
    refine ⟨0, ?_⟩
    by_cases h : s.freqInRange = true <;>
      simp [exec, execSetFrequency, State.begun, State.firstOps, State.firstBranch, State.startCommand, h]
  | setBaudRate =>
    refine ⟨0, ?_⟩
    by_cases h : s.baudInRange = true <;>
      simp [exec, execSetBaudRate, State.begun, State.firstOps, State.firstBranch, State.startCommand, h]
  | busWrite addr sent => exact absurd hi Bool.false_ne_true
  | busRead addr count => exact absurd hi Bool.false_ne_true
  | _ => exact ⟨0, rfl⟩

/-! ### What belongs to the host or the platform -/

/-- What no step of the controller changes or takes back. -/
structure State.KeepsHost (s t : State) : Prop where
  cmd : t.cmd = s.cmd
  arg0 : t.arg0 = s.arg0
  arg1 : t.arg1 = s.arg1
  cmdOverrun : t.cmdOverrun = s.cmdOverrun
  tick : t.tick = s.tick
  params : t.params = s.params
  hostData : t.hostData = s.hostData
  events : t.events = s.events
  trace : s.trace <+: t.trace
  busAnomaly : s.busAnomaly = true → t.busAnomaly = true

theorem State.KeepsHost.refl (s : State) : s.KeepsHost s :=
  ⟨rfl, rfl, rfl, rfl, rfl, rfl, rfl, rfl, List.prefix_rfl, id⟩

theorem State.KeepsHost.trans {s t u : State} (h : s.KeepsHost t) (g : t.KeepsHost u) : s.KeepsHost u :=
  ⟨g.cmd.trans h.cmd, g.arg0.trans h.arg0, g.arg1.trans h.arg1, g.cmdOverrun.trans h.cmdOverrun, g.tick.trans h.tick,
    g.params.trans h.params, g.hostData.trans h.hostData, g.events.trans h.events, h.trace.trans g.trace,
    g.busAnomaly ∘ h.busAnomaly⟩

/-- An update that leaves those fields alone and adds `l` to the trace. -/
theorem State.KeepsHost.emit (s : State) (l : List BusEvent) {t : State}
    (ht : t = { t with
      cmd := s.cmd, arg0 := s.arg0, arg1 := s.arg1, cmdOverrun := s.cmdOverrun, tick := s.tick, params := s.params
      hostData := s.hostData, events := s.events, trace := s.trace ++ l, busAnomaly := s.busAnomaly }) : s.KeepsHost t := by
  rw [ht]
  exact ⟨rfl, rfl, rfl, rfl, rfl, rfl, rfl, rfl, List.prefix_append _ l, id⟩

/-- An update that leaves them all alone. -/
theorem State.KeepsHost.same (s : State) {t : State}
    (ht : t = { t with
      cmd := s.cmd, arg0 := s.arg0, arg1 := s.arg1, cmdOverrun := s.cmdOverrun, tick := s.tick, params := s.params
      hostData := s.hostData, events := s.events, trace := s.trace, busAnomaly := s.busAnomaly }) : s.KeepsHost t := by
  rw [ht]
  exact ⟨rfl, rfl, rfl, rfl, rfl, rfl, rfl, rfl, List.prefix_rfl, id⟩

theorem State.micro_keepsHost (s : State) (op : Micro) : s.KeepsHost (s.micro op) := by
  cases op with
  | select active => exact .emit s [.select active] rfl
  | send out => exact .emit s [.sent out] rfl
  | ask out => exact .emit s [.sent out] rfl
  | recv out => exact .emit s [.exchanged out s.nextAnswer] rfl
  | setSdn active => exact .emit s [.sdn active] rfl
  | testAnomaly =>
    have hflag (h : s.busAnomaly = true) : (s.busAnomaly || isAnomaly s.received) = true := by rw [h, Bool.true_or]
    exact ⟨rfl, rfl, rfl, rfl, rfl, rfl, rfl, rfl, List.prefix_rfl, hflag⟩
  | _ => exact .same s rfl

theorem State.enter_keepsHost (s : State) : s.KeepsHost s.enter :=
  State.enter_keeps s.KeepsHost (fun u _ _ h => h.trans (.same u rfl)) (fun u n _ h => h.trans (.emit u [.wait n] rfl))
    (fun u h => h.trans (.emit u [.irq u.nextLevel] rfl)) s (.refl s)

theorem State.ctlStep_keepsHost (s : State) : s.KeepsHost s.ctlStep := by
  unfold State.ctlStep
  split
  · split
    · next op rest ht => exact (State.KeepsHost.same s rfl).trans (State.micro_keepsHost { s with todo := rest } op)
    · exact s.enter_keepsHost
  · exact .refl s

theorem State.run_keepsHost (s : State) : s.KeepsHost s.run :=
  State.run_keeps s.KeepsHost (fun u h => h.trans u.ctlStep_keepsHost) s (.refl s)

theorem State.micros_keepsHost (s : State) (ops : List Micro) : s.KeepsHost (s.micros ops) := by
  induction ops generalizing s with
  | nil => exact .refl s
  | cons op ops ih => exact (s.micro_keepsHost op).trans (ih (s.micro op))

theorem State.transact_keepsHost (s : State) (window : List Micro) : s.KeepsHost (s.transact window) := by
  unfold State.transact
  split
  · exact s.micros_keepsHost window
  · next n _ =>
    exact State.ctlSteps_keeps s.KeepsHost (fun u h => h.trans u.ctlStep_keepsHost) n _ (.same s rfl)

theorem exec_keepsHost (i : Instr) (s t : State) (h : exec i s = .next t) : s.KeepsHost t := by
  by_cases hi : isCommand i = true
  · obtain ⟨k, hk⟩ := exec_begun i s hi
    obtain rfl := Host.Outcome.next.inj (hk.symm.trans h)
    exact (State.KeepsHost.same s rfl).trans (s.begun i k).run_keepsHost
  · cases i with
    | busWrite addr sent =>
      obtain rfl := Host.Outcome.next.inj h
      exact s.transact_keepsHost _
    | busRead addr count =>
      obtain rfl := Host.Outcome.next.inj h
      exact s.transact_keepsHost _
    | _ => exact absurd rfl hi

/-- Settles O55: every step of the controller keeps it. -/
theorem instructionsKeepTheHostsState : Obligations.InstructionsKeepTheHostsState := by
  intro i s t h
  obtain ⟨hcmd, harg0, harg1, hoverrun, htick, hparams, hdata, hevents, htrace, hanomaly⟩ := exec_keepsHost i s t h
  exact ⟨hcmd, harg0, harg1, hoverrun, htick, hparams, hdata, hevents, htrace, hanomaly⟩

/-! ### TICK at every step (R33) -/

theorem State.hostLoad_tick (s : State) (offset : Nat) : (s.hostLoad offset).tick = s.tick := by
  have hbuf (i : Nat) : (s.hostReadsBuf i).tick = s.tick := by
    obtain ⟨k, hk⟩ := s.bufRead_state i 4
    unfold State.hostReadsBuf
    split
    · rfl
    · rw [hk]; rfl
  have hresult (w mask : Word) : (s.hostReadsResult w mask).tick = s.tick := by
    unfold State.hostReadsResult
    split <;> rfl
  unfold State.hostLoad
  split
  · rfl
  · rfl
  · rfl
  · rfl
  · split <;> rfl
  · exact hresult _ _
  · exact hresult _ _
  · exact hresult _ _
  · exact hresult _ _
  · exact hresult _ _
  · exact hresult _ _
  · rfl
  · split
    · exact hbuf _
    · rfl

theorem State.hostStore_tick (s : State) (offset : Nat) (w : Word) : (s.hostStore offset w).tick = s.tick := by
  have hguarded (t : State) (ht : t.tick = s.tick) : (s.guarded t).tick = s.tick := by
    unfold State.guarded
    split
    · rfl
    · exact ht
  unfold State.hostStore
  split
  · exact hguarded _ rfl
  · exact hguarded _ rfl
  · exact hguarded _ rfl
  · rfl
  · split
    · exact hguarded _ rfl
    · rfl

theorem State.hostMove_tick (s t : State) (a : HostAccess) (h : s.hostMove a = .next t) : t.tick = s.tick := by
  cases a with
  | load addr size =>
    simp only [State.hostMove] at h
    split_ifs at h
    · obtain rfl := Host.Outcome.next.inj h
      exact s.hostLoad_tick _
    · obtain rfl := Host.Outcome.next.inj h
      rfl
  | store addr size w =>
    simp only [State.hostMove] at h
    split_ifs at h
    · obtain rfl := Host.Outcome.next.inj h
      exact s.hostStore_tick _ w
    · obtain rfl := Host.Outcome.next.inj h
      rfl

/-- Settles O57, by the agent that moves. -/
theorem onlyTheGeneratorTicks : Obligations.OnlyTheGeneratorTicks := by
  intro s t h htick hreset
  obtain ⟨htick', -⟩ | ⟨hreset', -⟩ | ⟨a, -, hs⟩ | ⟨g, -, hcontroller⟩ := step_cases s
  · exact absurd htick' htick
  · exact absurd hreset' hreset
  · exact s.moved.hostMove_tick t a (hs.symm.trans h)
  · obtain ⟨-, hs⟩ | ⟨header, sent, rest, -, -, hs⟩ | ⟨i, -, -, -, -, hs⟩ | ⟨-, -, -, -, hs⟩ | ⟨-, hs⟩ := hcontroller
    · obtain rfl := Host.Outcome.next.inj (hs.symm.trans h)
      rfl
    · exact (exec_keepsHost _ _ t (hs.symm.trans h)).tick
    · exact (exec_keepsHost i _ t (hs.symm.trans h)).tick
    · obtain rfl := Host.Outcome.next.inj (hs.symm.trans h)
      exact (State.run_keepsHost _).tick
    · obtain rfl := Host.Outcome.next.inj (hs.symm.trans h)
      exact (State.run_keepsHost _).tick

/-! ### The registers and their writers (R26 to R32, R34, R37, R40) -/

theorem State.begun_ahead (s : State) (i : Instr) (k : Nat) (hi : isCommand i = true) : (s.begun i k).Ahead i := by
  cases i with
  | writeBurst => exact ⟨by dsimp only [State.begun, State.firstOps]; split <;> rfl, rfl⟩
  | readBurst => exact ⟨by dsimp only [State.begun, State.firstOps]; split <;> rfl, rfl⟩
  | setFrequency => exact ⟨by dsimp only [State.begun, State.firstOps]; split <;> rfl, rfl⟩
  | setBaudRate =>
    exact ⟨by dsimp only [State.begun, State.firstOps]; split <;> rfl,
      by dsimp only [State.begun, State.firstBranch]; split <;> rfl⟩
  | boot => exact ⟨ahead_of_common _ _ (common_append _ _ rfl (common_bootFirst _ _ _)), rfl⟩
  | busWrite addr sent => exact absurd hi Bool.false_ne_true
  | busRead addr count => exact absurd hi Bool.false_ne_true
  | _ => exact ⟨rfl, rfl⟩

/-- No command but those that read from the chip begins with a write of DATABUF or leads to one. -/
theorem State.begun_noStore (s : State) (i : Instr) (k : Nat) (hi : i ∉ [.readReg, .readBurst, .getPacketReceived])
    (hack : i ≠ .sendPacket ∨ s.arg0.getLsbD 8 = false) : (s.begun i k).NoStore := by
  cases i with
  | readReg | readBurst | getPacketReceived => simp at hi
  | sendPacket =>
    have hbit : s.arg0.getLsbD 8 = false := hack.resolve_left (fun h => h rfl)
    exact ⟨rfl, by rw [show (s.begun .sendPacket k).next = .sendHead from rfl, State.noFetch]; exact congrArg (!·) hbit⟩
  | writeBurst => exact ⟨by dsimp only [State.begun, State.firstOps]; split <;> rfl, rfl⟩
  | setFrequency => exact ⟨by dsimp only [State.begun, State.firstOps]; split <;> rfl, rfl⟩
  | setBaudRate =>
    exact ⟨by dsimp only [State.begun, State.firstOps]; split <;> rfl,
      by dsimp only [State.begun, State.firstBranch]; split <;> rfl⟩
  | boot => exact ⟨noStore_append _ _ rfl (noStore_bootFirst _ _ _), rfl⟩
  | _ => exact ⟨rfl, rfl⟩

/-- The commands that write LAST_MODE or STATUS.FSM. -/
def Shared.writers : Shared → List Instr
  | .lastMode =>
    [.switchMode, .sendPacket, .waitForPacket, .startListening, .isPacketReceived, .boot, .softwareReset, .hardwareReset]
  | .fsm => [.sendPacket, .waitForPacket, .startListening, .isPacketReceived, .boot, .softwareReset, .hardwareReset]

theorem State.begun_leaves (s : State) (r : Shared) (i : Instr) (k : Nat) (hi : i ∉ r.writers) :
    (s.begun i k).Leaves r := by
  cases i with
  | switchMode =>
    cases r with
    | lastMode => simp [Shared.writers] at hi
    | fsm => exact ⟨rfl, rfl⟩
  | sendPacket | waitForPacket | startListening | isPacketReceived | boot | softwareReset | hardwareReset =>
    cases r <;> simp [Shared.writers] at hi
  | writeBurst => exact ⟨by dsimp only [State.begun, State.firstOps]; split <;> rfl, rfl⟩
  | readBurst => exact ⟨by dsimp only [State.begun, State.firstOps]; split <;> rfl, rfl⟩
  | setFrequency => exact ⟨by dsimp only [State.begun, State.firstOps]; split <;> rfl, rfl⟩
  | setBaudRate =>
    exact ⟨by dsimp only [State.begun, State.firstOps]; split <;> rfl,
      by dsimp only [State.begun, State.firstBranch]; split <;> rfl⟩
  | _ => exact ⟨rfl, rfl⟩

/-- A move that runs the controller changes only the registers that the steps ahead of it are writers of. -/
theorem exec_keepsRegisters (i : Instr) (s t : State) (hi : isCommand i = true) (h : exec i s = .next t) :
    State.SameOwned i s t ∧
    (i ∉ [.readReg, .readBurst, .getPacketReceived] → i ≠ .sendPacket ∨ s.arg0.getLsbD 8 = false →
      t.databuf = s.databuf ∧ t.rxlen = s.rxlen) ∧
    ∀ r : Shared, i ∉ r.writers → r.same s t := by
  obtain ⟨k, hk⟩ := exec_begun i s hi
  obtain rfl := Host.Outcome.next.inj (hk.symm.trans h)
  refine ⟨(s.begun i k).run_sameOwned i (s.begun_ahead i k hi),
    fun hstore hack => (s.begun i k).run_noStore (s.begun_noStore i k hstore hack), fun r hr => ?_⟩
  cases r with
  | lastMode => exact (s.begun i k).run_leaves .lastMode (s.begun_leaves .lastMode i k hr)
  | fsm => exact (s.begun i k).run_leaves .fsm (s.begun_leaves .fsm i k hr)

/-- The command a branch belongs to, or one that owns nothing where it belongs to none. -/
def Label.ownerOrBoot (l : Label) : Instr := l.owner.getD .boot

theorem Label.allows_ownerOrBoot (l : Label) : allows l.ownerOrBoot l.owner = true := by
  unfold Label.ownerOrBoot
  cases l.owner with
  | none => rfl
  | some i => simp [allows]

theorem Label.ownerOrBoot_eq (l : Label) :
    l.ownerOrBoot = if l = .baudDone then .setBaudRate else if l ∈ [.sdnOff, .sdnRelease] then .hardwareReset else .boot := by
  cases l <;> rfl

theorem Label.ownerOrBoot_ne (l : Label) (i : Instr) (hi : i ∉ [.setBaudRate, .hardwareReset, .boot]) :
    l.ownerOrBoot ≠ i := by
  rintro rfl
  rw [l.ownerOrBoot_eq] at hi
  split_ifs at hi <;> simp at hi

theorem Label.ownerOrBoot_ne_setBaudRate (l : Label) (hl : l ≠ .baudDone) : l.ownerOrBoot ≠ .setBaudRate := by
  rw [l.ownerOrBoot_eq, if_neg hl]
  split_ifs <;> nofun

theorem Label.ownerOrBoot_ne_hardwareReset (l : Label) (hl : l ∉ [.sdnOff, .sdnRelease]) :
    l.ownerOrBoot ≠ .hardwareReset := by
  rw [l.ownerOrBoot_eq, if_neg hl]
  split_ifs <;> nofun

theorem State.noFetch_of (s : State) (l : Label)
    (hl : l ∉ [.fetch false, .fetch true, .waitHead .acknowledgment, .rxSample .acknowledgment,
      .rxStatus .acknowledgment, .pollSleep .acknowledgment])
    (hack : l ∉ [.sendHead, .sendSample, .sendStatus, .sendSent] ∨ s.arg0.getLsbD 8 = false) :
    s.noFetch l = true := by
  cases l with
  | fetch ack => cases ack <;> simp at hl
  | waitHead who | rxSample who | rxStatus who | pollSleep who => simpa [State.noFetch] using hl
  | sendHead | sendSample | sendStatus | sendSent => simpa [State.noFetch] using hack
  | _ => rfl

theorem Label.leaves_lastMode (l : Label) (hl : l ∈ [.idle, .baudDone, .fetch false, .fetch true, .sendTimeout]) :
    l.leaves .lastMode = true := by
  simp only [List.mem_cons, List.not_mem_nil, or_false] at hl
  obtain rfl | rfl | rfl | rfl | rfl := hl <;> rfl

theorem Label.leaves_fsm (l : Label) (hl : l ∈ [.idle, .baudDone, .fetch false]) : l.leaves .fsm = true := by
  simp only [List.mem_cons, List.not_mem_nil, or_false] at hl
  obtain rfl | rfl | rfl := hl <;> rfl

/-- Settles O56: what lies ahead of the first move of a command, and of a move from a branch. -/
theorem registersHaveTheirWriters : Obligations.RegistersHaveTheirWriters := by
  constructor
  · intro i s t hi h
    obtain ⟨⟨hfreq, hbaud, hchannel, hsignature, hsdn, hdata⟩, hbuffer, hshared⟩ := exec_keepsRegisters i s t hi h
    exact ⟨hfreq, hbaud, hchannel, hsignature, hsdn, hdata, hbuffer, hshared .lastMode, hshared .fsm⟩
  · intro s t g hevent ht hn h
    by_cases hw : s.wait = 0
    · obtain rfl := Host.Outcome.next.inj ((step_branch s g hevent hw ht hn).symm.trans h)
      have htodo (p : Micro → Bool) : (s.moved.withGrant g).todo.all p = true := by
        rw [show (s.moved.withGrant g).todo = [] from ht]
        rfl
      obtain ⟨hfreq, hbaud, hchannel, hsignature, hsdn, hdata⟩ := (s.moved.withGrant g).run_sameOwned
        s.next.ownerOrBoot ⟨htodo _, s.next.allows_ownerOrBoot⟩
      exact ⟨hfreq (s.next.ownerOrBoot_ne _ (by decide)), hchannel (s.next.ownerOrBoot_ne _ (by decide)),
        hsignature (s.next.ownerOrBoot_ne _ (by decide)), hdata (s.next.ownerOrBoot_ne _ (by decide)),
        fun hl => hbaud (s.next.ownerOrBoot_ne_setBaudRate hl), fun hl => hsdn (s.next.ownerOrBoot_ne_hardwareReset hl),
        fun hl hack => (s.moved.withGrant g).run_noStore ⟨htodo _, s.noFetch_of s.next hl hack⟩,
        fun hl => (s.moved.withGrant g).run_leaves .lastMode ⟨htodo _, s.next.leaves_lastMode hl⟩,
        fun hl => (s.moved.withGrant g).run_leaves .fsm ⟨htodo _, s.next.leaves_fsm hl⟩⟩
    · obtain rfl := Host.Outcome.next.inj ((step_blocked s g hevent hw).symm.trans h)
      exact ⟨rfl, rfl, rfl, rfl, fun _ => rfl, fun _ => rfl, fun _ _ => ⟨rfl, rfl⟩, fun _ => ⟨rfl, rfl⟩, fun _ => rfl⟩

/-! ### A coarse move is a number of single steps (R20, R69) -/

theorem State.run_coarse (s : State) : ∃ (n : Nat) (t : State),
    (s.withGrant .toWait).run = t.withGrant .toWait ∧ (s.withGrant (.steps n)).run = t.withGrant (.steps n) := by
  obtain ⟨n, hn⟩ := (s.withGrant .toWait).run_eq_ctlSteps
  exact ⟨n, s.ctlSteps n, hn.trans (s.ctlSteps_withGrant n .toWait), s.ctlSteps_withGrant n (.steps n)⟩

theorem State.transact_coarse (s : State) (hw : s.wait = 0) (window : List Micro)
    (hframe : ∀ op ∈ window, op.isFrame = false) : ∃ (n : Nat) (t : State),
    (s.withGrant .toWait).transact window = t.withGrant .toWait ∧
    (s.withGrant (.steps n)).transact window = t.withGrant (.steps n) := by
  have hsteps := s.ctlSteps_micros hw window s.todo hframe
  rw [State.setTodo_self _ _ (State.micros_todo window s hframe)] at hsteps
  refine ⟨window.length, s.micros window, s.micros_withGrant .toWait window, ?_⟩
  calc (s.withGrant (.steps window.length)).transact window
      = (({ s with todo := window ++ s.todo } : State).withGrant (.steps window.length)).ctlSteps window.length := rfl
    _ = (s.micros window).withGrant (.steps window.length) := by rw [State.ctlSteps_withGrant, hsteps]

theorem exec_coarse (i : Instr) (s : State) (hw : s.wait = 0) : ∃ (n : Nat) (t : State),
    exec i (s.withGrant .toWait) = .next (t.withGrant .toWait) ∧
    exec i (s.withGrant (.steps n)) = .next (t.withGrant (.steps n)) := by
  by_cases hi : isCommand i = true
  · obtain ⟨v, hv, -⟩ := exec_command i hi s
    obtain ⟨n, t, hcoarse, hfine⟩ := v.run_coarse
    exact ⟨n, t, (hv .toWait).trans (congrArg _ hcoarse), (hv (.steps n)).trans (congrArg _ hfine)⟩
  · have frame (window : List Micro) (hframe : ∀ op ∈ window, op.isFrame = false)
        (hexec : ∀ g, exec i (s.withGrant g) = .next ((s.withGrant g).transact window)) : ∃ (n : Nat) (t : State),
        exec i (s.withGrant .toWait) = .next (t.withGrant .toWait) ∧
        exec i (s.withGrant (.steps n)) = .next (t.withGrant (.steps n)) := by
      obtain ⟨n, t, hcoarse, hfine⟩ := s.transact_coarse hw window hframe
      exact ⟨n, t, (hexec .toWait).trans (congrArg _ hcoarse), (hexec (.steps n)).trans (congrArg _ hfine)⟩
    cases i with
    | busWrite addr sent =>
      exact frame (writeWindow (regByte addr) sent)
        (frameSteps_write s.params.readDummy (regByte addr) sent ▸ frameSteps_noFrame _ _ _) fun g => rfl
    | busRead addr count =>
      have hread := frameSteps_read s.params.readDummy (regByte addr) (List.replicate count 0)
      rw [List.length_replicate] at hread
      exact frame (readWindow s.params.readDummy (regByte addr) count) (hread ▸ frameSteps_noFrame _ _ _) fun g => rfl
    | _ => exact absurd rfl hi

/-- `s` with a controller move of length `g` next on the schedule and `moves` after it. -/
def State.granted (s : State) (moves : List Event) (g : Grant) : State :=
  { s with events := ⟨.controller g :: moves, s.events.used⟩ }

theorem State.granted_self (s : State) (moves : List Event) (g : Grant)
    (hevents : s.events.script = .controller g :: moves) : s.granted moves g = s := by
  rw [State.granted, ← hevents]

/-- A step whose outcome, for a move of any length, is that of `f` is coarse where `f` is. -/
theorem State.granted_coarse (s : State) (moves : List Event) (f : Grant → Host.Outcome State Fault Refusal)
    (hstep : ∀ g, step (s.granted moves g) = f g)
    (hf : ∃ (n : Nat) (t : State), f .toWait = .next (t.withGrant .toWait) ∧ f (.steps n) = .next (t.withGrant (.steps n))) :
    ∃ (n : Nat) (t : State), step (s.granted moves .toWait) = .next (t.withGrant .toWait) ∧
      step (s.granted moves (.steps n)) = .next (t.withGrant (.steps n)) := by
  obtain ⟨n, t, hcoarse, hfine⟩ := hf
  exact ⟨n, t, (hstep _).trans hcoarse, (hstep _).trans hfine⟩

theorem step_coarse (s : State) (moves : List Event) : ∃ (n : Nat) (t : State),
    step (s.granted moves .toWait) = .next (t.withGrant .toWait) ∧
    step (s.granted moves (.steps n)) = .next (t.withGrant (.steps n)) := by
  have hnext (g : Grant) : (s.granted moves g).nextEvent = .controller g := rfl
  let m := (s.granted moves .toWait).moved
  have run (u : State) : ∃ (n : Nat) (t : State),
      Host.Outcome.next (u.withGrant .toWait).run = (.next (t.withGrant .toWait) : Host.Outcome State Fault Refusal) ∧
      Host.Outcome.next (u.withGrant (.steps n)).run =
        (.next (t.withGrant (.steps n)) : Host.Outcome State Fault Refusal) := by
    obtain ⟨n, t, hcoarse, hfine⟩ := u.run_coarse
    exact ⟨n, t, congrArg _ hcoarse, congrArg _ hfine⟩
  by_cases hw : s.wait = 0
  · cases ht : s.todo with
    | nil =>
      by_cases hn : s.next = .decode
      · cases hd : decodeWord s.cmd with
        | none =>
          let u : State := { m with todo := [.finish .illegalCmd], next := .idle, wait := 0 }
          refine s.granted_coarse moves (fun g => .next (u.withGrant g).run) (fun g => ?_) (run u)
          rw [step_decode _ g (hnext g) hw ht hn, show (s.granted moves g).cmd = s.cmd from rfl, hd]
          rfl
        | some i =>
          exact s.granted_coarse moves (fun g => exec i (m.withGrant g))
            (fun g => step_decode_some _ g i (hnext g) hw ht hn hd) (exec_coarse i m hw)
      · exact s.granted_coarse moves _ (fun g => step_branch _ g (hnext g) hw ht hn) (run m)
    | cons op rest =>
      cases hop : op.isFrame with
      | false => exact s.granted_coarse moves _ (fun g => step_operation _ g op rest (hnext g) hw ht hop) (run m)
      | true =>
        cases op with
        | frame header sent =>
          exact s.granted_coarse moves (fun g => exec (decodeFrame header sent) (State.withGrant { m with todo := rest } g))
            (fun g => step_frame _ g header sent rest (hnext g) hw ht) (exec_coarse _ { m with todo := rest } hw)
        | _ => exact absurd hop Bool.false_ne_true
  · exact s.granted_coarse moves (fun g => .next (m.withGrant g)) (fun g => step_blocked _ g (hnext g) hw) ⟨0, m, rfl, rfl⟩

/-- Settles O58: the move of a step, and the move that begins an instruction. -/
theorem coarseMovesAreFineSteps : Obligations.CoarseMovesAreFineSteps := by
  refine ⟨fun s moves hevents => ?_, exec_coarse⟩
  have hcoarse := step_coarse s moves
  rwa [s.granted_self moves .toWait hevents] at hcoarse

end Sys2Proof.Machine
end

section
/-! The bus cost of the procedures (70_reset_and_hazards.md R318). -/

namespace Sys2Proof.Machine

/-- The windows and the bytes of a trace. -/
def busCost (trace : List BusEvent) : Nat × Nat := (windowCount trace, byteCount trace)

theorem busCost_append (a b : List BusEvent) : busCost (a ++ b) = busCost a + busCost b := by
  simp [busCost, windowCount, byteCount]

theorem busCost_irq_cons (l : Level) (t : List BusEvent) : busCost (.irq l :: t) = busCost t := rfl

/-! ### Single windows -/

theorem busCost_writeTrace (a : Byte) (d : List Byte) : busCost (writeTrace a d) = (1, d.length + 1) := by
  have hwindows : (d.map BusEvent.sent).countP (fun e => e == .select true) = 0 :=
    List.countP_eq_zero.mpr (by simp)
  have hbytes : (d.map BusEvent.sent).countP isTransfer = d.length :=
    (List.countP_map ..).trans (congrFun List.countP_true _)
  simp [busCost, windowCount, byteCount, writeTrace, hwindows, hbytes, isTransfer, List.countP_cons]

theorem busCost_readTrace (p : Params) (a : Byte) (answers : List Byte) :
    busCost (readTrace p a answers) = (1, answers.length + 1) := by
  have hwindows : (answers.map (BusEvent.exchanged p.readDummy)).countP (fun e => e == .select true) = 0 :=
    List.countP_eq_zero.mpr (by simp)
  have hbytes : (answers.map (BusEvent.exchanged p.readDummy)).countP isTransfer = answers.length :=
    (List.countP_map ..).trans (congrFun List.countP_true _)
  simp [busCost, windowCount, byteCount, readTrace, hwindows, hbytes, isTransfer, List.countP_cons]

/-! ### The procedures -/

theorem busCost_switchModeTrace (p : Params) (m ds : Byte) : busCost (switchModeTrace p m ds) = (2, 4) := by
  rw [switchModeTrace, busCost_append, busCost_writeTrace, busCost_readTrace]; rfl

theorem busCost_clearTrace (p : Params) (pattern : Byte) : busCost (clearTrace p pattern) = (2, 4) := by
  rw [clearTrace, busCost_append, busCost_writeTrace, busCost_writeTrace]; rfl

theorem busCost_statusTrace (p : Params) (s1 s2 : Byte) : busCost (statusTrace p s1 s2) = (2, 4) := by
  rw [statusTrace, busCost_append, busCost_readTrace, busCost_readTrace]; rfl

theorem busCost_enableTrace (p : Params) (ie1 ie2 : Byte) : busCost (enableTrace p ie1 ie2) = (2, 4) := by
  rw [enableTrace, busCost_append, busCost_writeTrace, busCost_writeTrace]; rfl

theorem busCost_listenTrace (p : Params) (s1 s2 ds : Byte) : busCost (listenTrace p s1 s2 ds) = (8, 16) := by
  simp only [listenTrace, busCost_append, busCost_clearTrace, busCost_enableTrace, busCost_statusTrace,
    busCost_switchModeTrace]
  rfl

theorem busCost_sendStartTrace (p : Params) (len : Byte) (d : List Byte) (s1 s2 ds : Byte) :
    busCost (sendStartTrace p len d s1 s2 ds) = (10, d.length + 19) := by
  simp only [sendStartTrace, busCost_append, busCost_clearTrace, busCost_writeTrace, busCost_enableTrace,
    busCost_statusTrace, busCost_switchModeTrace, Prod.mk_add_mk, List.length_cons, List.length_nil, Prod.mk.injEq, true_and]
  omega

theorem busCost_signatureTrace (p : Params) (sig : BitVec 16) : busCost (signatureTrace p sig) = (2, 6) := by
  rw [signatureTrace, busCost_append, busCost_writeTrace, busCost_writeTrace]; rfl

theorem busCost_baudTrace (p : Params) (b : BaudValues) : busCost (baudTrace p b) = (4, 16) := by
  simp only [baudTrace, busCost_append, busCost_writeTrace]; rfl

theorem busCost_bootTable (rows : List (ChipAddr × Byte)) :
    busCost (rows.flatMap (fun row => writeTrace (regByte row.1) [row.2])) = (rows.length, 2 * rows.length) := by
  induction rows with
  | nil => rfl
  | cons row rows ih =>
    rw [List.flatMap_cons, busCost_append, ih, busCost_writeTrace, Prod.mk_add_mk]
    simp only [List.length_cons, List.length_nil, Prod.mk.injEq]
    omega

theorem busCost_bootTrace (p : Params) (f : Nat) (b : BaudValues) (ch : Byte) (sig : BitVec 16) (ds : Byte)
    (hb : baudFaults b = false) :
    busCost (bootTrace p f b ch sig ds) = (p.bootTable.length + 10, 2 * p.bootTable.length + 32) := by
  simp only [bootTrace, hb, Bool.false_eq_true, if_false, busCost_append, busCost_bootTable, busCost_writeTrace,
    busCost_baudTrace, busCost_signatureTrace, busCost_switchModeTrace, Prod.mk_add_mk, List.length_cons, List.length_nil]
  rfl

theorem freqEncode_length (f : Nat) : (freqEncode f).length = 3 := rfl

/-- Settles O59, a row of the table for each of the procedures' traces. -/
theorem busCostsAreTheTable : Obligations.BusCostsAreTheTable := by
  intro p a pattern mode d answers len s1 s2 ds ds' ch sig f b cost
  have htotal : cost = busCost := rfl
  rw [htotal]
  refine ⟨busCost_writeTrace a d, busCost_readTrace p a answers, ?_, busCost_signatureTrace p sig,
    busCost_baudTrace p b, busCost_switchModeTrace p mode ds, busCost_clearTrace p pattern,
    busCost_listenTrace p s1 s2 ds, rfl, ?_, ?_, ?_, ?_, busCost_sendStartTrace p len d s1 s2 ds, ?_, ?_,
    busCost_bootTrace p f b ch sig ds⟩
  · rw [busCost_writeTrace, freqEncode_length]
  · rw [busCost_irq_cons, busCost_statusTrace]
  · rw [List.cons_append, busCost_irq_cons, busCost_append, busCost_statusTrace, busCost_switchModeTrace]
    rfl
  · rw [List.cons_append, List.cons_append, List.cons_append, busCost_irq_cons, busCost_append, busCost_append,
      busCost_append, busCost_statusTrace, busCost_switchModeTrace, busCost_clearTrace, busCost_switchModeTrace]
    rfl
  · simp only [busCost_append, busCost_readTrace, busCost_clearTrace, Prod.mk_add_mk, List.length_cons, List.length_nil,
      Prod.mk.injEq, true_and]
    omega
  · rw [busCost_append, busCost_switchModeTrace, busCost_readTrace]
    rfl
  · rw [busCost_append, busCost_append, busCost_switchModeTrace, busCost_readTrace, busCost_clearTrace]
    rfl

end Sys2Proof.Machine
end

section
/-! Host programs (30_encoding.md R90, R95, R102, R103). -/

namespace Sys2Proof.Machine

/-! ### Operands in the words of a command -/

theorem setWidth_eq_zero_append {n : Nat} (k : Nat) (x : BitVec n) : x.setWidth (k + n) = 0#k ++ x := by
  apply BitVec.eq_of_toNat_eq
  have hlt : x.toNat < 2 ^ (k + n) := x.isLt.trans_le (Nat.pow_le_pow_right (by decide) (by omega))
  simp [BitVec.toNat_append, Nat.mod_eq_of_lt hlt]

/-- LEN of SEND_PACKET under its acknowledgment bit. -/
theorem ackBit_or_len (len : Byte) : len.setWidth 32 ||| 0x100 = 0#23 ++ 1#1 ++ len := by
  revert len; decide

/-! ### The stores of a command line -/

theorem HostLine.stores_of_command (line : HostLine) (base : Nat) (a0 a1 w : Word)
    (h : line.command = some (a0, a1, w)) :
    line.stores base = [.store (base + 4) 4 a0, .store (base + 8) 4 a1, .store base 4 w] := by
  unfold HostLine.stores
  rw [h]

/-- The three stores of a command, from an idle block (R90, R95). -/
theorem run_command_stores (s : State) (a0 a1 w : Word) (moves : List Event) (hb : s.busy = false)
    (hevents : s.events.script = .host (.store (s.params.base + 4) 4 a0) :: .host (.store (s.params.base + 8) 4 a1) ::
      .host (.store s.params.base 4 w) :: moves) :
    Host.Core.run Sys2Proof.core 3 s = .next { s with
      arg0 := a0, arg1 := a1, cmd := w, busy := true, code := .pending, todo := [], next := .decode, wait := 0
      events := ⟨moves, s.events.used⟩ } := by
  have harg0 := (idleStoresLatchTheWord s a0 hb).2.1 (s.nextEvent_of _ _ hevents)
  have hevents1 := s.moved_script _ _ hevents
  have harg1 := (idleStoresLatchTheWord { s.moved with arg0 := a0 } a1 hb).2.2 (State.nextEvent_of _ _ _ hevents1)
  have hevents2 := State.moved_script { s.moved with arg0 := a0 } _ _ hevents1
  have hcmd := (idleStoresLatchTheWord { ({ s.moved with arg0 := a0 } : State).moved with arg1 := a1 } w hb).1
    (State.nextEvent_of _ _ _ hevents2)
  refine (run_succ 2 _ _ harg0).trans ((run_succ 1 _ _ harg1).trans ((run_one _ _ hcmd).trans ?_))
  simp [State.moved, Tape.advance, hevents]

/-! ### The stores of a `.buf` line -/

theorem bufStores_length (base offset : Nat) (bytes : List Byte) :
    (bufStores base offset bytes).length = (bytes.length + 3) / 4 := by
  fun_induction bufStores base offset bytes with
  | case1 offset => rfl
  | case2 offset b0 => simp
  | case3 offset b0 b1 => simp
  | case4 offset b0 b1 b2 => simp
  | case5 offset b0 b1 b2 b3 rest ih =>
    simp only [List.length_cons, ih]
    omega

/-- The first store of a `.buf` holds its first four bytes, each absent one as 0. -/
theorem bufWord_lanes (b0 b1 b2 b3 : Byte) (bytes : List Byte)
    (hbytes : ∀ k < 4, [b0, b1, b2, b3].getD k 0 = (bytes[k]?).getD 0) (k : Nat) (hk : k < 4) :
    (wordOfBytes [b0, b1, b2, b3]).extractLsb' (8 * k) 8 = (bytes[4 * 0 + k]?).getD 0 := by
  rw [wordOfBytes_lane b0 b1 b2 b3 k hk, hbytes k hk, Nat.mul_zero, Nat.zero_add]

theorem bufStores_getElem (base offset : Nat) (bytes : List Byte) (j : Nat)
    (hj : j < (bufStores base offset bytes).length) :
    ∃ w, (bufStores base offset bytes)[j]? = some (.store (base + (offset + 4 * j)) 4 w) ∧
      ∀ k < 4, w.extractLsb' (8 * k) 8 = (bytes[4 * j + k]?).getD 0 := by
  fun_induction bufStores base offset bytes generalizing j with
  | case1 offset => exact absurd hj (Nat.not_lt_zero j)
  | case2 offset b0 =>
    obtain rfl : j = 0 := Nat.lt_one_iff.mp hj
    exact ⟨_, rfl, bufWord_lanes b0 0 0 0 [b0] fun k hk => by interval_cases k <;> rfl⟩
  | case3 offset b0 b1 =>
    obtain rfl : j = 0 := Nat.lt_one_iff.mp hj
    exact ⟨_, rfl, bufWord_lanes b0 b1 0 0 [b0, b1] fun k hk => by interval_cases k <;> rfl⟩
  | case4 offset b0 b1 b2 =>
    obtain rfl : j = 0 := Nat.lt_one_iff.mp hj
    exact ⟨_, rfl, bufWord_lanes b0 b1 b2 0 [b0, b1, b2] fun k hk => by interval_cases k <;> rfl⟩
  | case5 offset b0 b1 b2 b3 rest ih =>
    cases j with
    | zero =>
      exact ⟨_, rfl, bufWord_lanes b0 b1 b2 b3 (b0 :: b1 :: b2 :: b3 :: rest) fun k hk => by interval_cases k <;> rfl⟩
    | succ j =>
      obtain ⟨w, hstore, hlanes⟩ := ih j (Nat.lt_of_succ_lt_succ hj)
      have hoffset : offset + 4 * (j + 1) = offset + 4 + 4 * j := by omega
      have hindex (k : Nat) : (b0 :: b1 :: b2 :: b3 :: rest)[4 * (j + 1) + k]? = rest[4 * j + k]? := by
        rw [show 4 * (j + 1) + k = 4 * j + k + 4 by omega]
        rfl
      exact ⟨w, by rw [hoffset]; exact hstore, fun k hk => by rw [hindex, hlanes k hk]⟩

/-! ### The moves of a program (R102) -/

/-- What the program does next depends on its machine and on what is due. -/
theorem Session.hostMove_congr (c d : Session) (hmachine : c.machine = d.machine) (hdue : c.due = d.due)
    (hne : c.due ≠ []) : c.hostMove = d.hostMove := by
  have hnext : c.nextAccess = d.nextAccess := by
    unfold Session.nextAccess
    rw [hdue, hmachine]
  obtain ⟨access, haccess⟩ : ∃ access, c.nextAccess = some access := by
    unfold Session.nextAccess
    split
    · contradiction
    · exact ⟨_, rfl⟩
    · exact ⟨_, rfl⟩
  unfold Session.hostMove
  rw [← hnext, haccess, hmachine]

theorem Session.hostMove_done (c : Session) (hdue : c.due = []) : c.hostMove = .next c := by
  have hnext : c.nextAccess = none := by
    unfold Session.nextAccess
    rw [hdue]
  unfold Session.hostMove
  rw [hnext]

/-- A wait that has not seen BUSY = 0 loads STATUS. -/
theorem Session.hostMove_poll (c : Session) (rest : List HostAction) (hdue : c.due = .awaitIdle :: rest) :
    c.hostMove = .next ⟨{ c.machine with hostData := c.machine.statusWord }, .awaitIdle :: rest,
      some c.machine.statusWord⟩ := by
  have hnext : c.nextAccess = some (statusPoll c.machine.params.base, .awaitIdle :: rest, true) := by
    unfold Session.nextAccess
    rw [hdue]
  have hstep := step_load { c.machine with
    events := ⟨.host (statusPoll c.machine.params.base) :: c.machine.events.script, c.machine.events.used⟩ } 0xC
    (by decide) (by decide) rfl
  unfold Session.hostMove
  rw [hnext]
  exact congrArg (Session.after _) hstep

theorem Session.due_of_awaitIdle (c : Session) (rest : List HostAction) (h : c.ahead = .awaitIdle :: rest) :
    c.due = if c.sawIdle then rest else .awaitIdle :: rest := by
  unfold Session.due
  rw [h]

theorem Session.due_of_none (c : Session) (h : c.status = none) : c.due = c.ahead := by
  have hsaw : c.sawIdle = false := by rw [Session.sawIdle, h]
  unfold Session.due
  split
  · rw [hsaw]
    rfl
  · rfl

/-- Settles O60: the packing, the three stores, the actions of a line and the moves of a wait. -/
theorem commandLineIssuesItsCommand : Obligations.CommandLineIssuesItsCommand := by
  refine ⟨fun a v len n m sig w => ?operands, fun s line a0 a1 w moves hcommand hb hevents => ?stores,
    fun base line hcommand => ?wait, fun base bytes => ?buf,
    fun c rest hahead => ⟨?poll, fun w hstatus hbit => ?ended, ?other⟩⟩
  case operands =>
    have haddr := setWidth_eq_zero_append 24 a
    have hcount := setWidth_eq_zero_append 23 n
    refine ⟨?_, ?_, ?_, ?_, rfl, ?_, ?_, rfl, ?_, ?_, ?_, rfl, rfl, rfl, rfl, rfl, rfl, rfl, rfl, rfl, rfl, rfl, rfl,
      rfl, rfl, rfl⟩
    · rw [← haddr, ← setWidth_eq_zero_append 24 v]; rfl
    · rw [← haddr]; rfl
    · rw [← haddr, ← hcount]; rfl
    · rw [← haddr, ← hcount]; rfl
    · rw [← setWidth_eq_zero_append 16 sig]; rfl
    · rw [← haddr]; rfl
    · rw [← setWidth_eq_zero_append 28 m]; rfl
    · rw [← setWidth_eq_zero_append 24 len]; rfl
    · rw [← ackBit_or_len len]; rfl
  case stores =>
    rw [line.stores_of_command s.params.base a0 a1 w hcommand] at hevents
    exact run_command_stores s a0 a1 w moves hb hevents
  case wait =>
    unfold HostLine.actions
    split
    · rfl
    · contradiction
  case buf =>
    exact ⟨rfl, bufStores_length base 0x100 bytes, fun j hj => bufStores_getElem base 0x100 bytes j hj⟩
  case poll =>
    intro hpolling
    have hsaw : c.sawIdle = false := by
      obtain hnone | ⟨w, hsome, hbit⟩ := hpolling
      · rw [Session.sawIdle, hnone]
      · rw [Session.sawIdle, hsome]
        exact congrArg (!·) hbit
    rw [c.hostMove_poll rest (by rw [c.due_of_awaitIdle rest hahead, hsaw]; rfl), ← hahead]
  case ended =>
    have hsaw : c.sawIdle = true := by
      rw [Session.sawIdle, hstatus]
      exact congrArg (!·) hbit
    have hdue : c.due = rest := by rw [c.due_of_awaitIdle rest hahead, hsaw]; rfl
    refine ⟨fun hrest => c.hostMove_congr { c with ahead := rest, status := none } rfl ?_ (hdue.symm ▸ hrest),
      fun hrest => c.hostMove_done (hdue.trans hrest)⟩
    rw [hdue, Session.due_of_none _ rfl]
  case other =>
    intro t ht
    unfold Session.otherMove
    rw [ht]
    rfl

end Sys2Proof.Machine
end
